-- ==== Sys2Proof/Word.lean ====
section
/-! DEFINITION. The words of the machine: bytes, doublewords, quadwords, 128-bit lanes, vector registers
(00_scope.md R10). -/

namespace Sys2Proof

abbrev Byte := BitVec 8
abbrev Dword := BitVec 32
abbrev Quad := BitVec 64
/-- A 128-bit lane, the group of four doublewords the shuffle works on (00_scope.md R10, R17). -/
abbrev Lane := BitVec 128

/-- A vector register as its four 128-bit lanes: lane l is bits 128l+127:128l (00_scope.md R10). -/
structure Zmm where
  lane0 : Lane
  lane1 : Lane
  lane2 : Lane
  lane3 : Lane
deriving DecidableEq, Repr

end Sys2Proof
end

