-- ==== Sys2Proof/Config.lean ====
section
/-! DEFINITION. What one machine fixes (00_scope.md R9): the type of its parameters, which State carries so that a
statement about every state is a statement about every machine; and the free values, constants with no body. -/

namespace Sys2Proof

/-- CPUID feature flags (00_scope.md R8, 10_state.md R31). -/
structure Features where
  sse2 : Bool
  avx : Bool
  avx2 : Bool
  avx512f : Bool
  avx512vl : Bool
deriving DecidableEq, Repr

/-- KW, the width of an opmask register (10_state.md R23). -/
inductive MaskWidth
  | kw16
  | kw64
deriving DecidableEq, Repr

/-- LEGACY_ALIGN_ADDR: the address the legacy form's 16-byte test looks at (20_memory.md R43). -/
inductive TestedAddress
  | linear
  | effective
deriving DecidableEq, Repr

/-- Width of a linear address in 64-bit mode, which decides what is canonical (20_memory.md R51). -/
inductive LinearWidth
  | bits48
  | bits57
deriving DecidableEq, Repr

/-- The constants of one machine. -/
structure Params where
  feat : Features
  kw : MaskWidth
  /-- AC_UNALIGNED (20_memory.md R45). -/
  acUnaligned : Bool
  legacyAlign : TestedAddress
  linearWidth : LinearWidth
  /-- The oracle's answer for an operand that runs past the top of the address space (20_memory.md R57, log 13). -/
  wrapsAtTop : Bool
  /-- Which of several faulting bytes the oracle reports (60_exceptions.md R147, log 15). -/
  reportedByte : Nat
deriving DecidableEq, Repr

/-- What EDX holds after reset (70_reset_and_hazards.md R171, log 6). DESIGN CHOICE: free. -/
opaque Config.processorId : Dword

/-- The step's choice between `#SS(0)` and `#GP(0)` (20_memory.md R50, U14, log 17), by the state's `tick`. -/
opaque Config.ssBeforeGp : Nat → Bool

/-- The step's choice to raise `#AC(0)` (20_memory.md R45, U12, log 18), by the state's `tick`. -/
opaque Config.acRaised : Nat → Bool

/-- The memory oracle's answer for a byte other agents may write (20_memory.md R46 R52, log 16): by the state's
`tick`, the byte's place in the operand, and its location. -/
opaque Config.sharedByte : Nat → Nat → Nat → Byte

end Sys2Proof
end

