-- ==== Sys2Proof/Syntax.lean ====
section
/-! DEFINITION. The instructions, one constructor for each row of spec/opcode_table.json, with the fields their
encodings carry (30_encoding.md). Stored-inverted prefix bits are held as their true values (R71), but for vvvv and
V', which name nothing and are held as stored (R85, R88). -/

namespace Sys2Proof

/-- Operating mode (00_scope.md R7). -/
inductive Mode
  | long64
  | prot32
  | prot16
  | real
  | v86
deriving DecidableEq, Repr

/-- Segment registers (10_state.md R29). -/
inductive SegReg
  | cs
  | ds
  | es
  | fs
  | gs
  | ss
deriving DecidableEq, Repr

/-- Address size of a memory operand (30_encoding.md R76). -/
inductive AddrSize
  | a16
  | a32
  | a64
deriving DecidableEq, Repr

/-- Vector length (30_encoding.md R72). -/
inductive VL
  | v128
  | v256
  | v512
deriving DecidableEq, Repr

/-- The REX byte `0100WRXB` (30_encoding.md R63). -/
structure Rex where
  w : Bool
  r : Bool
  x : Bool
  b : Bool
deriving DecidableEq, Repr

/-- Legacy prefixes and REX (30_encoding.md R61, R63). -/
structure Prefixes where
  seg : Option SegReg
  addr67 : Bool
  opsize66 : Bool
  lock : Bool
  repne : Bool
  rep : Bool
  rex : Option Rex
deriving DecidableEq, Repr

/-- Displacement of a 32- or 64-bit addressing form (30_encoding.md R66). -/
inductive Disp
  | absent
  | disp8 (d : BitVec 8)
  | disp32 (d : BitVec 32)
deriving DecidableEq, Repr

/-- Displacement of a 16-bit addressing form (30_encoding.md R67). -/
inductive Disp16
  | absent
  | disp8 (d : BitVec 8)
  | disp16 (d : BitVec 16)
deriving DecidableEq, Repr

/-- Operand 2 as ModRM.mod, ModRM.rm, SIB and displacement describe it (30_encoding.md R64 to R67). -/
inductive Rm
  /-- `mod = 11b`: a register source. -/
  | reg (rm : BitVec 3)
  /-- A base register without SIB. -/
  | indirect (rm : BitVec 3) (disp : Disp)
  /-- `mod = 00b, rm = 101b`: RIP-relative in long64, absolute elsewhere. -/
  | disp32 (d : BitVec 32)
  /-- SIB with a base register. -/
  | sib (scale : BitVec 2) (index base : BitVec 3) (disp : Disp)
  /-- SIB with `base = 101b, mod = 00b`: no base register, disp32. -/
  | sibNoBase (scale : BitVec 2) (index : BitVec 3) (d : BitVec 32)
  /-- A 16-bit form with registers. -/
  | indirect16 (rm : BitVec 3) (disp : Disp16)
  /-- The 16-bit absolute form, `mod = 00b, rm = 110b`. -/
  | disp16 (d : BitVec 16)
deriving DecidableEq, Repr

/-- What follows the opcode byte: ModRM with SIB and displacement, and imm8 (30_encoding.md R64, R73). -/
structure Body where
  reg : BitVec 3
  rm : Rm
  order : Byte
deriving DecidableEq, Repr

/-- Fields of the two-byte VEX prefix (30_encoding.md R68). -/
structure Vex2 where
  r : Bool
  vvvv : BitVec 4
deriving DecidableEq, Repr

/-- Fields of the three-byte VEX prefix (30_encoding.md R69). -/
structure Vex3 where
  r : Bool
  x : Bool
  b : Bool
  w : Bool
  vvvv : BitVec 4
deriving DecidableEq, Repr

/-- Fields of the EVEX prefix (30_encoding.md R70): `rHigh` is R', `vHigh` is V' as stored. -/
structure Evex where
  r : Bool
  x : Bool
  b : Bool
  rHigh : Bool
  vvvv : BitVec 4
  z : Bool
  bcast : Bool
  vHigh : Bool
  aaa : BitVec 3
deriving DecidableEq, Repr

/-- The eight rows of spec/opcode_table.json, the six forms of 00_scope.md R2 with the two VEX prefixes apart. -/
inductive Instr
  /-- `66 0F 70 /r ib`, PSHUFD xmm1, xmm2/m128, imm8. -/
  | pshufd (p : Prefixes) (body : Body)
  /-- `VEX.128.66.0F.WIG 70 /r ib` with prefix C5. -/
  | vpshufdVex128C5 (p : Prefixes) (e : Vex2) (body : Body)
  /-- `VEX.128.66.0F.WIG 70 /r ib` with prefix C4. -/
  | vpshufdVex128C4 (p : Prefixes) (e : Vex3) (body : Body)
  /-- `VEX.256.66.0F.WIG 70 /r ib` with prefix C5. -/
  | vpshufdVex256C5 (p : Prefixes) (e : Vex2) (body : Body)
  /-- `VEX.256.66.0F.WIG 70 /r ib` with prefix C4. -/
  | vpshufdVex256C4 (p : Prefixes) (e : Vex3) (body : Body)
  /-- `EVEX.128.66.0F.W0 70 /r ib`. -/
  | vpshufdEvex128 (p : Prefixes) (e : Evex) (body : Body)
  /-- `EVEX.256.66.0F.W0 70 /r ib`. -/
  | vpshufdEvex256 (p : Prefixes) (e : Evex) (body : Body)
  /-- `EVEX.512.66.0F.W0 70 /r ib`. -/
  | vpshufdEvex512 (p : Prefixes) (e : Evex) (body : Body)
deriving DecidableEq, Repr

end Sys2Proof
end

