-- ==== Sys2Proof/Decode.lean ====
section
/-! DEFINITION. From bytes to instructions (30_encoding.md R60 to R92): a decoder, total on any bytes, rejecting by
name; the encoder; the length of an instruction; the reading of a word of spec/opcode_table.json. -/

namespace Sys2Proof

/-! ## Results -/

/-- Why bytes are no instruction of the model; the step turns each into a refusal of the same name. -/
inductive DecodeRefusal
  /-- The bytes given end before the instruction does. -/
  | truncated
  /-- Not one of the six forms (92_eei_decisions.md D24). -/
  | notThisInstruction
  /-- A prefix repeated, or two segment overrides (30_encoding.md R61, D19). -/
  | repeatedPrefix
  /-- A REX byte that is followed by another prefix (30_encoding.md R63, D19). -/
  | rexNotLast
  /-- Extension bits that ask for registers above 7 in prot32 or prot16 (30_encoding.md R91, D19). -/
  | extensionOutsideLong64
deriving DecidableEq, Repr

/-- What the decoder reads. -/
inductive Decoded
  /-- An instruction and the bytes after it. -/
  | instr (i : Instr) (rest : List Byte)
  /-- This opcode with a reserved EVEX field that matches no table row, `len` bytes long: `#UD` (30_encoding.md R87,
  R88 a to c). -/
  | reserved (len : Nat)
  | refused (r : DecodeRefusal)
deriving DecidableEq, Repr

/-! ## Prefixes -/

/-- Default address size and the effect of prefix 67 (30_encoding.md R76). -/
def addressSize (m : Mode) (addr67 : Bool) : AddrSize :=
  match m with
  | .long64 => if addr67 then .a32 else .a64
  | .prot32 => if addr67 then .a16 else .a32
  | .prot16 | .real | .v86 => if addr67 then .a32 else .a16

def noPrefixes : Prefixes :=
  { seg := none, addr67 := false, opsize66 := false, lock := false, repne := false, rep := false, rex := none }

/-- Segment-override bytes (30_encoding.md R61). -/
def segOfByte (b : Byte) : Option SegReg :=
  if b = 0x2E#8 then some .cs
  else if b = 0x36#8 then some .ss
  else if b = 0x3E#8 then some .ds
  else if b = 0x26#8 then some .es
  else if b = 0x64#8 then some .fs
  else if b = 0x65#8 then some .gs
  else none

def byteOfSeg : SegReg → Byte
  | .cs => 0x2E#8
  | .ss => 0x36#8
  | .ds => 0x3E#8
  | .es => 0x26#8
  | .fs => 0x64#8
  | .gs => 0x65#8

/-- A legacy prefix byte (30_encoding.md R61). -/
def isLegacyPrefix (b : Byte) : Bool :=
  (segOfByte b).isSome || b = 0x67#8 || b = 0x66#8 || b = 0xF0#8 || b = 0xF2#8 || b = 0xF3#8

/-- Adds one legacy prefix, or `none` where its kind was given before (30_encoding.md R61, D19). -/
def addPrefix (p : Prefixes) (b : Byte) : Option Prefixes :=
  match segOfByte b with
  | some sg => if p.seg.isSome then none else some { p with seg := some sg }
  | none =>
    if b = 0x67#8 then (if p.addr67 then none else some { p with addr67 := true })
    else if b = 0x66#8 then (if p.opsize66 then none else some { p with opsize66 := true })
    else if b = 0xF0#8 then (if p.lock then none else some { p with lock := true })
    else if b = 0xF2#8 then (if p.repne then none else some { p with repne := true })
    else (if p.rep then none else some { p with rep := true })

/-- Reads the legacy prefixes, in any order; `none` where one is repeated. -/
def scanPrefixes (p : Prefixes) : List Byte → Option (Prefixes × List Byte)
  | [] => some (p, [])
  | b :: bs =>
    if isLegacyPrefix b then
      match addPrefix p b with
      | none => none
      | some p' => scanPrefixes p' bs
    else some (p, b :: bs)

def bit (b : Byte) (i : Nat) : Bool := b.getLsbD i

/-- A byte `40` to `4F`, a REX prefix in long64 (30_encoding.md R63). -/
def isRex (b : Byte) : Bool := b.extractLsb' 4 4 = 4#4

def rexOfByte (b : Byte) : Rex := { w := bit b 3, r := bit b 2, x := bit b 1, b := bit b 0 }

/-- A byte from its eight bits, bit 7 first. -/
def byteOfBits (b7 b6 b5 b4 b3 b2 b1 b0 : Bool) : Byte :=
  BitVec.ofBool b7 ++ BitVec.ofBool b6 ++ BitVec.ofBool b5 ++ BitVec.ofBool b4 ++
    BitVec.ofBool b3 ++ BitVec.ofBool b2 ++ BitVec.ofBool b1 ++ BitVec.ofBool b0

def byteOfRex (r : Rex) : Byte := byteOfBits false true false false r.w r.r r.x r.b

/-- Whether a byte stands where no prefix may: after REX (30_encoding.md R63, D19). -/
def startsWithPrefix : List Byte → Bool
  | [] => false
  | b :: _ => isLegacyPrefix b || isRex b

/-! ## ModRM, SIB, displacement, immediate -/

def modOf (b : Byte) : BitVec 2 := b.extractLsb' 6 2
def regOf (b : Byte) : BitVec 3 := b.extractLsb' 3 3
def rmOf (b : Byte) : BitVec 3 := b.extractLsb' 0 3

/-- A ModRM or SIB byte from its three fields. -/
def byteOfFields (hi : BitVec 2) (mid lo : BitVec 3) : Byte := hi ++ mid ++ lo

def take8 : List Byte → Option (BitVec 8 × List Byte)
  | b :: bs => some (b, bs)
  | [] => none

/-- Displacement fields are little-endian (20_memory.md R42). -/
def take16 : List Byte → Option (BitVec 16 × List Byte)
  | b0 :: b1 :: bs => some (b1 ++ b0, bs)
  | _ => none

def take32 : List Byte → Option (BitVec 32 × List Byte)
  | b0 :: b1 :: b2 :: b3 :: bs => some (b3 ++ b2 ++ b1 ++ b0, bs)
  | _ => none

def bytes16 (d : BitVec 16) : List Byte := [d.extractLsb' 0 8, d.extractLsb' 8 8]

def bytes32 (d : BitVec 32) : List Byte :=
  [d.extractLsb' 0 8, d.extractLsb' 8 8, d.extractLsb' 16 8, d.extractLsb' 24 8]

/-- The displacement that `mod` announces in a 32- or 64-bit form (30_encoding.md R66). -/
def takeDisp (md : BitVec 2) (bs : List Byte) : Option (Disp × List Byte) :=
  if md = 0#2 then some (.absent, bs)
  else if md = 1#2 then (take8 bs).map fun (d, r) => (.disp8 d, r)
  else (take32 bs).map fun (d, r) => (.disp32 d, r)

/-- The displacement that `mod` announces in a 16-bit form (30_encoding.md R67). -/
def takeDisp16 (md : BitVec 2) (bs : List Byte) : Option (Disp16 × List Byte) :=
  if md = 0#2 then some (.absent, bs)
  else if md = 1#2 then (take8 bs).map fun (d, r) => (.disp8 d, r)
  else (take16 bs).map fun (d, r) => (.disp16 d, r)

/-- Operand 2 in memory, address size 32 or 64 (30_encoding.md R65, R66). -/
def takeRm32 (md : BitVec 2) (rm : BitVec 3) (bs : List Byte) : Option (Rm × List Byte) :=
  if rm = 4#3 then
    match bs with
    | [] => none
    | sib :: bs =>
      if md = 0#2 ∧ rmOf sib = 5#3 then
        (take32 bs).map fun (d, r) => (.sibNoBase (modOf sib) (regOf sib) d, r)
      else (takeDisp md bs).map fun (d, r) => (.sib (modOf sib) (regOf sib) (rmOf sib) d, r)
  else if md = 0#2 ∧ rm = 5#3 then (take32 bs).map fun (d, r) => (.disp32 d, r)
  else (takeDisp md bs).map fun (d, r) => (.indirect rm d, r)

/-- Operand 2 in memory, address size 16 (30_encoding.md R67). -/
def takeRm16 (md : BitVec 2) (rm : BitVec 3) (bs : List Byte) : Option (Rm × List Byte) :=
  if md = 0#2 ∧ rm = 6#3 then (take16 bs).map fun (d, r) => (.disp16 d, r)
  else (takeDisp16 md bs).map fun (d, r) => (.indirect16 rm d, r)

/-- Operand 2 (30_encoding.md R64). -/
def takeRm (a : AddrSize) (md : BitVec 2) (rm : BitVec 3) (bs : List Byte) : Option (Rm × List Byte) :=
  if md = 3#2 then some (.reg rm, bs)
  else if a = .a16 then takeRm16 md rm bs
  else takeRm32 md rm bs

/-- ModRM, SIB, displacement and imm8, the last byte (30_encoding.md R60, R73). -/
def takeBody (a : AddrSize) : List Byte → Option (Body × List Byte)
  | [] => none
  | m :: bs =>
    match takeRm a (modOf m) (rmOf m) bs with
    | none => none
    | some (rm, bs) => (take8 bs).map fun (i, r) => ({ reg := regOf m, rm := rm, order := i }, r)

/-! ## The three encoding classes -/

/-- Reads the body and makes the instruction. -/
def finishInstr (a : AddrSize) (bs : List Byte) (mk : Body → Instr) : Decoded :=
  match takeBody a bs with
  | none => .refused .truncated
  | some (body, rest) => .instr (mk body) rest

/-- Form SSE after its `0F` (30_encoding.md R78): `66` present, `F2` and `F3` absent (R92). -/
def decodeLegacy (m : Mode) (p : Prefixes) : List Byte → Decoded
  | [] => .refused .truncated
  | op :: bs =>
    if op = 0x70#8 ∧ p.opsize66 ∧ !p.repne ∧ !p.rep then finishInstr (addressSize m p.addr67) bs (.pshufd p)
    else .refused .notThisInstruction

/-- After `C5` (30_encoding.md R68, R79, R80). Outside long64 the byte is a prefix only before bits 7:6 = 11b (R91). -/
def decodeVex2 (m : Mode) (p : Prefixes) : List Byte → Decoded
  | v1 :: op :: bs =>
    if (m ≠ .long64 ∧ modOf v1 ≠ 3#2) ∨ v1.extractLsb' 0 2 ≠ 1#2 ∨ op ≠ 0x70#8 then .refused .notThisInstruction
    else
      let e : Vex2 := { r := !bit v1 7, vvvv := v1.extractLsb' 3 4 }
      finishInstr (addressSize m p.addr67) bs
        (if bit v1 2 then .vpshufdVex256C5 p e else .vpshufdVex128C5 p e)
  | _ => .refused .truncated

/-- prot32 and prot16, where extension bits are refused (30_encoding.md R91; in real and v86 every VEX and EVEX form
raises `#UD`, log 21). -/
def isProtected (m : Mode) : Bool := m = .prot32 || m = .prot16

/-- After `C4` (30_encoding.md R69, R79, R80, R91). -/
def decodeVex3 (m : Mode) (p : Prefixes) : List Byte → Decoded
  | v1 :: v2 :: op :: bs =>
    if (m ≠ .long64 ∧ modOf v1 ≠ 3#2) ∨ v1.extractLsb' 0 5 ≠ 1#5 ∨ v2.extractLsb' 0 2 ≠ 1#2 ∨ op ≠ 0x70#8 then
      .refused .notThisInstruction
    else if isProtected m ∧ !(bit v1 5 && bit v2 6) then .refused .extensionOutsideLong64
    else
      let e : Vex3 := { r := !bit v1 7, x := !bit v1 6, b := !bit v1 5, w := bit v2 7, vvvv := v2.extractLsb' 3 4 }
      finishInstr (addressSize m p.addr67) bs
        (if bit v2 2 then .vpshufdVex256C4 p e else .vpshufdVex128C4 p e)
  | _ => .refused .truncated

/-- The row that L'L selects (30_encoding.md R81 to R83). -/
def evexRow (ll : BitVec 2) (p : Prefixes) (e : Evex) (body : Body) : Instr :=
  if ll = 0#2 then .vpshufdEvex128 p e body
  else if ll = 1#2 then .vpshufdEvex256 p e body
  else .vpshufdEvex512 p e body

/-- After `62` (30_encoding.md R70, R81 to R83, R87, R88, R91); `before` counts the bytes up to and with `62`. -/
def decodeEvex (m : Mode) (p : Prefixes) (before : Nat) : List Byte → Decoded
  | p0 :: p1 :: p2 :: op :: bs =>
    if (m ≠ .long64 ∧ modOf p0 ≠ 3#2) ∨ p0.extractLsb' 0 2 ≠ 1#2 ∨ p1.extractLsb' 0 2 ≠ 1#2 ∨ op ≠ 0x70#8 then
      .refused .notThisInstruction
    else if isProtected m ∧ !(bit p0 5 && bit p0 4 && bit p2 3) then .refused .extensionOutsideLong64
    else if p0.extractLsb' 2 2 ≠ 0#2 ∨ bit p1 7 ∨ !bit p1 2 ∨ p2.extractLsb' 5 2 = 3#2 then
      match takeBody (addressSize m p.addr67) bs with
      | none => .refused .truncated
      | some (_, rest) => .reserved (before + 4 + (bs.length - rest.length))
    else
      let e : Evex := { r := !bit p0 7, x := !bit p0 6, b := !bit p0 5, rHigh := !bit p0 4,
                        vvvv := p1.extractLsb' 3 4, z := bit p2 7, bcast := bit p2 4, vHigh := bit p2 3,
                        aaa := p2.extractLsb' 0 3 }
      finishInstr (addressSize m p.addr67) bs (evexRow (p2.extractLsb' 5 2) p e)
  | _ => .refused .truncated

/-- The encoding class by its first byte (30_encoding.md R77); `before` counts the prefix bytes. -/
def decodeClass (m : Mode) (p : Prefixes) (before : Nat) : List Byte → Decoded
  | [] => .refused .truncated
  | b :: bs =>
    if b = 0x0F#8 then decodeLegacy m p bs
    else if b = 0xC5#8 then decodeVex2 m p bs
    else if b = 0xC4#8 then decodeVex3 m p bs
    else if b = 0x62#8 then decodeEvex m p (before + 1) bs
    else .refused .notThisInstruction

/-- A REX byte, in long64 only, then the class (30_encoding.md R63). -/
def decodeRex (m : Mode) (p : Prefixes) (before : Nat) : List Byte → Decoded
  | [] => .refused .truncated
  | b :: bs =>
    if m = .long64 ∧ isRex b then
      if startsWithPrefix bs then .refused .rexNotLast
      else decodeClass m { p with rex := some (rexOfByte b) } (before + 1) bs
    else decodeClass m p before (b :: bs)

/-- The decoder (30_encoding.md R60, R77). -/
def decode (m : Mode) (bs : List Byte) : Decoded :=
  match scanPrefixes noPrefixes bs with
  | none => .refused .repeatedPrefix
  | some (p, rest) => decodeRex m p (bs.length - rest.length) rest

/-! ## The encoder -/

def encodeFlag (given : Bool) (b : Byte) : List Byte := if given then [b] else []

/-- The legacy prefixes in one fixed order, REX last (30_encoding.md R60, R61, R63). -/
def encodePrefixes (p : Prefixes) : List Byte :=
  (p.seg.map byteOfSeg).toList ++ encodeFlag p.addr67 0x67#8 ++ encodeFlag p.opsize66 0x66#8 ++
    encodeFlag p.lock 0xF0#8 ++ encodeFlag p.repne 0xF2#8 ++ encodeFlag p.rep 0xF3#8 ++
    (p.rex.map byteOfRex).toList

def modOfDisp : Disp → BitVec 2
  | .absent => 0#2
  | .disp8 _ => 1#2
  | .disp32 _ => 2#2

def bytesOfDisp : Disp → List Byte
  | .absent => []
  | .disp8 d => [d]
  | .disp32 d => bytes32 d

def modOfDisp16 : Disp16 → BitVec 2
  | .absent => 0#2
  | .disp8 _ => 1#2
  | .disp16 _ => 2#2

def bytesOfDisp16 : Disp16 → List Byte
  | .absent => []
  | .disp8 d => [d]
  | .disp16 d => bytes16 d

/-- ModRM with SIB and displacement (30_encoding.md R64 to R67). -/
def encodeRm (reg : BitVec 3) : Rm → List Byte
  | .reg rm => [byteOfFields 3#2 reg rm]
  | .indirect rm d => byteOfFields (modOfDisp d) reg rm :: bytesOfDisp d
  | .disp32 d => byteOfFields 0#2 reg 5#3 :: bytes32 d
  | .sib sc ix ba d => byteOfFields (modOfDisp d) reg 4#3 :: byteOfFields sc ix ba :: bytesOfDisp d
  | .sibNoBase sc ix d => byteOfFields 0#2 reg 4#3 :: byteOfFields sc ix 5#3 :: bytes32 d
  | .indirect16 rm d => byteOfFields (modOfDisp16 d) reg rm :: bytesOfDisp16 d
  | .disp16 d => byteOfFields 0#2 reg 6#3 :: bytes16 d

def encodeBody (b : Body) : List Byte := encodeRm b.reg b.rm ++ [b.order]

/-- `C5 v1` (30_encoding.md R68). -/
def encodeVex2 (e : Vex2) (l : Bool) : List Byte :=
  [0xC5#8, BitVec.ofBool (!e.r) ++ e.vvvv ++ BitVec.ofBool l ++ 1#2]

/-- `C4 v1 v2` (30_encoding.md R69). -/
def encodeVex3 (e : Vex3) (l : Bool) : List Byte :=
  [0xC4#8, BitVec.ofBool (!e.r) ++ BitVec.ofBool (!e.x) ++ BitVec.ofBool (!e.b) ++ 1#5,
    BitVec.ofBool e.w ++ e.vvvv ++ BitVec.ofBool l ++ 1#2]

/-- `62 P0 P1 P2` (30_encoding.md R70). -/
def encodeEvex (e : Evex) (ll : BitVec 2) : List Byte :=
  [0x62#8, BitVec.ofBool (!e.r) ++ BitVec.ofBool (!e.x) ++ BitVec.ofBool (!e.b) ++ BitVec.ofBool (!e.rHigh) ++ 1#4,
    0#1 ++ e.vvvv ++ 1#1 ++ 1#2,
    BitVec.ofBool e.z ++ ll ++ BitVec.ofBool e.bcast ++ BitVec.ofBool e.vHigh ++ e.aaa]

/-- The bytes of a well-formed instruction (30_encoding.md R60, R78 to R83). -/
def encode : Instr → List Byte
  | .pshufd p b => encodePrefixes p ++ [0x0F#8, 0x70#8] ++ encodeBody b
  | .vpshufdVex128C5 p e b => encodePrefixes p ++ encodeVex2 e false ++ [0x70#8] ++ encodeBody b
  | .vpshufdVex128C4 p e b => encodePrefixes p ++ encodeVex3 e false ++ [0x70#8] ++ encodeBody b
  | .vpshufdVex256C5 p e b => encodePrefixes p ++ encodeVex2 e true ++ [0x70#8] ++ encodeBody b
  | .vpshufdVex256C4 p e b => encodePrefixes p ++ encodeVex3 e true ++ [0x70#8] ++ encodeBody b
  | .vpshufdEvex128 p e b => encodePrefixes p ++ encodeEvex e 0#2 ++ [0x70#8] ++ encodeBody b
  | .vpshufdEvex256 p e b => encodePrefixes p ++ encodeEvex e 1#2 ++ [0x70#8] ++ encodeBody b
  | .vpshufdEvex512 p e b => encodePrefixes p ++ encodeEvex e 2#2 ++ [0x70#8] ++ encodeBody b

/-! ## Length -/

def prefixesLength (p : Prefixes) : Nat :=
  p.seg.isSome.toNat + p.addr67.toNat + p.opsize66.toNat + p.lock.toNat + p.repne.toNat + p.rep.toNat +
    p.rex.isSome.toNat

def dispLength : Disp → Nat
  | .absent => 0
  | .disp8 _ => 1
  | .disp32 _ => 4

def disp16Length : Disp16 → Nat
  | .absent => 0
  | .disp8 _ => 1
  | .disp16 _ => 2

/-- ModRM, SIB and displacement bytes (30_encoding.md R64 to R67). -/
def rmLength : Rm → Nat
  | .reg _ => 1
  | .indirect _ d => 1 + dispLength d
  | .disp32 _ => 5
  | .sib _ _ _ d => 2 + dispLength d
  | .sibNoBase _ _ _ => 6
  | .indirect16 _ d => 1 + disp16Length d
  | .disp16 _ => 3

/-- `len`, all bytes of the instruction (30_encoding.md R60): prefixes, class and opcode bytes, body, imm8. -/
def instrLength : Instr → Nat
  | .pshufd p b => prefixesLength p + 2 + rmLength b.rm + 1
  | .vpshufdVex128C5 p _ b | .vpshufdVex256C5 p _ b => prefixesLength p + 3 + rmLength b.rm + 1
  | .vpshufdVex128C4 p _ b | .vpshufdVex256C4 p _ b => prefixesLength p + 4 + rmLength b.rm + 1
  | .vpshufdEvex128 p _ b | .vpshufdEvex256 p _ b | .vpshufdEvex512 p _ b =>
    prefixesLength p + 5 + rmLength b.rm + 1

/-! ## Words of spec/opcode_table.json -/

/-- The longest byte string the decoder reads an instruction from: every kind of prefix, REX, EVEX, opcode, ModRM, SIB,
disp32, imm8. -/
def longestInstr : Nat := 19

/-- The bytes of a table word, as the table says: "that byte string read as one big-endian number". A pattern that
starts at the `0F` escape has the mandatory `66` before it ("before_pattern"); bytes after the pattern are zero (log 9). -/
def tableBytes (nbits w : Nat) : List Byte :=
  let n := (nbits + 7) / 8
  let bs := (List.range n).map fun j => BitVec.ofNat 8 (w >>> (8 * (n - 1 - j)))
  (if bs.head? = some 0x0F#8 then [0x66#8] else []) ++ bs ++ List.replicate longestInstr 0#8

/-- The instruction the decoder reads from a table word, in long64, where every row's word is a form (30_encoding.md
R91; log 9). -/
def decodeTableWord (nbits w : Nat) : Option Instr :=
  match decode .long64 (tableBytes nbits w) with
  | .instr i _ => some i
  | .reserved _ => none
  | .refused _ => none

end Sys2Proof
end

