-- ==== Sys2Proof/Machine/State.lean ====
section
/-! DEFINITION. The state of the machine, as plain data (10_state.md R20 to R33, 20_memory.md R48 to R52,
60_exceptions.md R150), its value after reset (70_reset_and_hazards.md R171), and the reasons a step can stop. -/

namespace Sys2Proof.Machine

open Sys2Proof

/-- A segment register: selector and the base, limit and attributes the translation reads (10_state.md R29, R30). -/
structure Segment where
  selector : BitVec 16
  base : Quad
  limit : BitVec 32
  /-- Not the null selector (20_memory.md R51). -/
  usable : Bool
  readable : Bool
  /-- PRESUMED (log 14): the legal offsets lie above the limit. -/
  expandDown : Bool
  /-- CS.L (10_state.md R30). -/
  l : Bool
  /-- CS.D (10_state.md R30). -/
  d : Bool
deriving DecidableEq, Repr

/-- The page walk's answer for a data read (20_memory.md R49, 60_exceptions.md R147): the location range starts at
`target`, or a fault with bits P, RSVD and PK of its code. -/
inductive Walk
  | mapped (target : Nat)
  | denied (present rsvd pk : Bool)
deriving DecidableEq, Repr

/-- One range of linear addresses of the paging part of the oracle (log 11): answers for data reads at CPL 3 and below,
and where instruction bytes are fetched from, if they can be. -/
structure MapRange where
  first : Nat
  size : Nat
  user : Walk
  supervisor : Walk
  fetch : Option Nat
deriving DecidableEq, Repr

/-- Locations that are not ordinary private memory (20_memory.md R47, R52, log 16). -/
inductive RegionKind
  /-- Other agents may write it: each byte read is the memory oracle's answer. -/
  | shared
  /-- A device, or memory that is not ordinary. -/
  | device
deriving DecidableEq, Repr

structure Region where
  first : Nat
  size : Nat
  kind : RegionKind
deriving DecidableEq, Repr

/-- One byte read of a memory operand (20_memory.md R52). -/
structure ReadEvent where
  location : Nat
  byte : Byte
deriving DecidableEq, Repr

/-- Memory: (location, byte) pairs, locations strictly rising, no byte equal to what an unlisted location reads as. -/
abbrev Memory := List Host.Cell

/-- Every piece of state the spec gives the machine (INVENTORY.md, ## State). -/
structure State where
  v : Vector Zmm 32
  k : Vector Quad 8
  x : Vector Quad 16
  pc : Quad
  rflags : Quad
  mxcsr : BitVec 32
  st : Vector (BitVec 80) 8
  fsw : BitVec 16
  ftw : BitVec 16
  cs : Segment
  ds : Segment
  es : Segment
  fs : Segment
  gs : Segment
  ss : Segment
  cr0 : Quad
  cr2 : Quad
  cr4 : Quad
  xcr0 : Quad
  efer : Quad
  cpl : BitVec 2
  /-- Constants of the machine (00_scope.md R9). -/
  machine : Params
  /-- Paging off, or its ranges, the first that holds an address answering (20_memory.md R49, log 11). -/
  paging : Option (List MapRange)
  regions : List Region
  mem : Memory
  /-- The address just past the program text (92_eei_decisions.md D23, log 28). -/
  programEnd : Option Quad
  /-- The model's own: indexes the free values (log 27). -/
  tick : Nat
  /-- The model's own: the byte reads made, newest instruction first (20_memory.md R52, log 27). -/
  reads : List ReadEvent
deriving DecidableEq, Repr

/-- What an exception is (60_exceptions.md R140). -/
inductive Exc
  | ud
  | nm
  | ss
  | gp
  | pf (code : BitVec 32) (linear : Quad)
  | ac
deriving DecidableEq, Repr

/-- The machine stops with an exception, its terminal outcome (60_exceptions.md R153, log 1). Each carries the state it
leaves, whose `pc` is the saved instruction pointer (R150, R152). All are safe: no claim is made past the fault. -/
inductive Fault
  /-- `#UD`, raised by every form (R141 to R143) and by reserved EVEX fields (30_encoding.md R87, R88). Safe. -/
  | ud (left : State)
  /-- `#NM`, raised by every form under CR0.TS (R144). Safe. -/
  | nm (left : State)
  /-- `#SS(0)`, raised by memory-source forms addressed through SS (R145). Safe. -/
  | ss (left : State)
  /-- `#GP(0)`, raised by memory-source forms and by over-long instructions (R146). Safe. -/
  | gp (left : State)
  /-- `#PF(code)` with the faulting linear address, raised by memory-source forms (R147). Safe. -/
  | pf (code : BitVec 32) (linear : Quad) (left : State)
  /-- `#AC(0)`, raised by VEX and EVEX memory-source forms as the free choice allows (R148). Safe. -/
  | ac (left : State)
deriving DecidableEq, Repr

/-- The model has no rule for what stands here. All are safe: nothing is claimed of the machine. -/
inductive Refusal
  /-- An instruction with no meaning in the model, raised by exec. Safe. -/
  | notModelled (mnemonic : String)
  /-- Bytes that are not one of the six forms, raised by the step (92_eei_decisions.md D24). Safe. -/
  | notThisInstruction
  /-- A prefix repeated, raised by the step (30_encoding.md R61, D19). Safe. -/
  | repeatedPrefix
  /-- REX not immediately before the opcode, raised by the step (30_encoding.md R63, D19). Safe. -/
  | rexNotLast
  /-- Extension bits in prot32 or prot16, raised by the step (30_encoding.md R91, D19). Safe. -/
  | extensionOutsideLong64
  /-- Instruction bytes that cannot be fetched from private memory, raised by the step (20_memory.md R54). Safe. -/
  | bytesNotFetchable
  /-- `pc` stands just past the program text: the run ended normally, raised by the step (D23). Safe. -/
  | programEnded
  /-- `pc + len` outside the address space or code segment, raised by every form (10_state.md R27, D17). Safe. -/
  | successorOutside
  /-- An EVEX disp8 with 16-bit addresses, raised by EVEX memory-source forms (30_encoding.md R67, D4). Safe. -/
  | evexDisp8Addr16
  /-- A memory operand in a device, raised by memory-source forms (20_memory.md R47, D9). Safe. -/
  | deviceOperand
deriving DecidableEq, Repr

abbrev Outcome := Host.Outcome State Fault Refusal

def zeroZmm : Zmm := { lane0 := 0#128, lane1 := 0#128, lane2 := 0#128, lane3 := 0#128 }

/-- A data segment after reset: PRESUMED, the family's (log 4). -/
def resetSegment : Segment :=
  { selector := 0#16, base := 0#64, limit := 0xFFFF#32, usable := true, readable := true, expandDown := false,
    l := false, d := false }

/-- The constants of the machine that `State.reset` names (log 5): DESIGN CHOICE but for AC_UNALIGNED and
LEGACY_ALIGN_ADDR, whose defaults are the rules' (20_memory.md R43, R45). -/
def resetParams : Params :=
  { feat := { sse2 := true, avx := true, avx2 := true, avx512f := true, avx512vl := true }, kw := .kw64,
    acUnaligned := true, legacyAlign := .linear, linearWidth := .bits48, wrapsAtTop := false, reportedByte := 0 }

/-- The machine right after power-up or hardware reset (70_reset_and_hazards.md R171); what that rule does not give is
named in logs 4 to 7, 27 and 28. -/
def State.reset : State :=
  { v := Vector.replicate 32 zeroZmm
    k := Vector.replicate 8 0#64
    x := (Vector.replicate 16 0#64).set 2 (Config.processorId.setWidth 64)
    pc := 0xFFF0#64
    rflags := 0x2#64
    mxcsr := 0x1F80#32
    st := Vector.replicate 8 0#80
    fsw := 0#16
    ftw := 0x5555#16
    cs := { resetSegment with selector := 0xF000#16, base := 0xFFFF0000#64 }
    ds := resetSegment
    es := resetSegment
    fs := resetSegment
    gs := resetSegment
    ss := resetSegment
    cr0 := 0x60000010#64
    cr2 := 0#64
    cr4 := 0#64
    xcr0 := 1#64
    efer := 0#64
    cpl := 0#2
    machine := resetParams
    paging := none
    regions := []
    mem := []
    programEnd := none
    tick := 0
    reads := [] }

end Sys2Proof.Machine
end

