-- ==== Sys2Proof/Machine/Flags.lean ====
section
/-! DEFINITION. The status and control bits the instruction reads (10_state.md R28, R30), the mode they select (00_scope.md
R7) and the machine's widths. No form writes a flag ("Flags Affected: None.", R28), so no flag is computed here. -/

namespace Sys2Proof.Machine

open Sys2Proof

/-! ## Bits, by the positions of R30 -/

def State.pe (s : State) : Bool := s.cr0.getLsbD 0
def State.em (s : State) : Bool := s.cr0.getLsbD 2
def State.ts (s : State) : Bool := s.cr0.getLsbD 3
def State.am (s : State) : Bool := s.cr0.getLsbD 18
def State.osfxsr (s : State) : Bool := s.cr4.getLsbD 9
def State.osxsave (s : State) : Bool := s.cr4.getLsbD 18
def State.lma (s : State) : Bool := s.efer.getLsbD 10
def State.vm (s : State) : Bool := s.rflags.getLsbD 17
def State.acFlag (s : State) : Bool := s.rflags.getLsbD 18

/-- `XCR0[2:1] = 11b`: SSE and AVX state enabled (60_exceptions.md R142). -/
def State.xcr0Avx (s : State) : Bool := s.xcr0.getLsbD 1 && s.xcr0.getLsbD 2

/-- `XCR0[7:5] = 111b`: opmask, ZMM_Hi256 and Hi16_ZMM state enabled (60_exceptions.md R143). -/
def State.xcr0Avx512 (s : State) : Bool := s.xcr0.getLsbD 5 && s.xcr0.getLsbD 6 && s.xcr0.getLsbD 7

def State.feat (s : State) : Features := s.machine.feat

/-! ## Mode -/

/-- The operating mode (00_scope.md R7) from PE, VM, LMA, CS.L and CS.D (10_state.md R30, log 10). -/
def State.mode (s : State) : Mode :=
  if !s.pe then .real
  else if s.vm then .v86
  else if s.lma && s.cs.l then .long64
  else if s.cs.d then .prot32
  else .prot16

/-- real and v86, where every VEX and EVEX form raises `#UD` (60_exceptions.md R142, R143). -/
def isRealOrV86 (m : Mode) : Bool := m = .real || m = .v86

/-- Width of the instruction pointer (10_state.md R27). -/
def pcWidth : Mode → Nat
  | .long64 => 64
  | .prot32 => 32
  | .prot16 | .real | .v86 => 16

/-- Alignment checking is enabled (20_memory.md R45). -/
def State.alignCheck (s : State) : Bool := s.am && s.acFlag && s.cpl = 3#2

/-! ## Widths -/

/-- The number of 128-bit lanes of MAXVL (00_scope.md R6, 92_eei_decisions.md D2). -/
def maxLanes (f : Features) : Nat := if f.avx512f then 4 else if f.avx then 2 else 1

/-- Lanes of a vector length; KL is four times as many (30_encoding.md R72). -/
def vlLanes : VL → Nat
  | .v128 => 1
  | .v256 => 2
  | .v512 => 4

/-- KL, the number of doubleword elements (30_encoding.md R72). -/
def kl (l : VL) : Nat := 4 * vlLanes l

/-- Bytes of a full-vector operand, VL/8 (20_memory.md R41). -/
def vlBytes (l : VL) : Nat := 16 * vlLanes l

end Sys2Proof.Machine
end

