-- ==== Sys2Proof/Machine/Shuffle.lean ====
section
/-! DEFINITION. Vector values: lanes, doublewords, bytes; the shuffle functions Shuffle128 and ShuffleLanes (40_pshufd_sse.md
R100, R101); the three ways a result is merged into the destination (R102, R110, R121). -/

namespace Sys2Proof.Machine

open Sys2Proof

/-! ## Views of a vector register (10_state.md R20) -/

/-- Lane l, bits 128l+127:128l; zero above lane 3. -/
def laneOf (z : Zmm) : Nat → Lane
  | 0 => z.lane0
  | 1 => z.lane1
  | 2 => z.lane2
  | 3 => z.lane3
  | _ => 0#128

def zmmOf (f : Nat → Lane) : Zmm := { lane0 := f 0, lane1 := f 1, lane2 := f 2, lane3 := f 3 }

/-- Doubleword t of a lane, bits 32t+31:32t. -/
def laneDword (a : Lane) (t : Nat) : Dword := a.extractLsb' (32 * t) 32

/-- A lane from its four doublewords. -/
def laneOfDwords (f : Nat → Dword) : Lane := f 3 ++ f 2 ++ f 1 ++ f 0

/-- Doubleword element j of a register, bits 32j+31:32j (00_scope.md R10). -/
def dwordOf (z : Zmm) (j : Nat) : Dword := laneDword (laneOf z (j / 4)) (j % 4)

/-- Bits 128n-1:0, the bits above zero. -/
def lowLanes (n : Nat) (z : Zmm) : Zmm := zmmOf fun l => if l < n then laneOf z l else 0#128

/-- ZMMn, YMMn and XMMn as bit vectors (10_state.md R20). -/
def zmmBits (z : Zmm) : BitVec 512 := z.lane3 ++ z.lane2 ++ z.lane1 ++ z.lane0
def ymmBits (z : Zmm) : BitVec 256 := z.lane1 ++ z.lane0
def xmmBits (z : Zmm) : BitVec 128 := z.lane0

/-! ## Memory bytes as a value (20_memory.md R42: little-endian) -/

/-- The value of bytes, the first in bits 7:0. -/
def laneOfBytes : List Byte → Lane
  | [] => 0#128
  | b :: bs => (laneOfBytes bs <<< 8) ||| b.setWidth 128

/-- An operand of up to 64 bytes. -/
def zmmOfBytes (bs : List Byte) : Zmm := zmmOf fun l => laneOfBytes ((bs.drop (16 * l)).take 16)

/-- KL copies of one doubleword (42_vpshufd_evex.md R120). -/
def broadcast (l : VL) (d : Dword) : Zmm := lowLanes (vlLanes l) (zmmOf fun _ => laneOfDwords fun _ => d)

/-! ## The shuffle -/

/-- Field t of the order byte, bits 2t+1:2t (30_encoding.md R74). -/
def orderField (order : Byte) (t : Nat) : Nat := (order.extractLsb' (2 * t) 2).toNat

/-- Shuffle128 (40_pshufd_sse.md R100): result doubleword t is `(s >> (sel * 32))[31:0]`. -/
def shuffle128 (s : Lane) (order : Byte) : Lane :=
  laneOfDwords fun t => (s >>> (orderField order t * 32)).setWidth 32

/-- ShuffleLanes (40_pshufd_sse.md R101): every 128-bit lane below VL by the same order byte. -/
def shuffleLanes (l : VL) (s : Zmm) (order : Byte) : Zmm :=
  lowLanes (vlLanes l) (zmmOf fun i => shuffle128 (laneOf s i) order)

/-! ## The result in the destination -/

/-- The legacy write (40_pshufd_sse.md R102): bits 127:0, the bits above kept. -/
def legacyMerge (old : Zmm) (r : Lane) : Zmm := { old with lane0 := r }

/-- Whether the writemask lets element j be written (42_vpshufd_evex.md R121): `aaa = 0 or k[aaa][j] = 1`. -/
def maskOn (aaa : BitVec 3) (mask : Quad) (j : Nat) : Bool := aaa = 0#3 || mask.getLsbD j

/-- One lane of EvexWrite (42_vpshufd_evex.md R121); mask bit 4l+t governs doubleword t of lane l. -/
def maskedLane (aaa : BitVec 3) (mask : Quad) (z : Bool) (l : Nat) (old tmp : Lane) : Lane :=
  laneOfDwords fun t =>
    if maskOn aaa mask (4 * l + t) then laneDword tmp t else if !z then laneDword old t else 0#32

/-- EvexWrite (42_vpshufd_evex.md R121): the elements below VL under the mask, zero above. -/
def evexMerge (vl : VL) (aaa : BitVec 3) (mask : Quad) (z : Bool) (old tmp : Zmm) : Zmm :=
  lowLanes (vlLanes vl) (zmmOf fun l => maskedLane aaa mask z l (laneOf old l) (laneOf tmp l))

end Sys2Proof.Machine
end

