-- ==== Sys2Proof/Machine/Ops.lean ====
section
/-! DEFINITION. The operations every form shares: taking an exception, memory and its oracle, translation, MemRead, fetch,
registers, the checks before execution and the completion of an instruction; the launch. -/

namespace Sys2Proof.Machine

open Sys2Proof

/-! ## Taking an exception (60_exceptions.md R150, R152, R153) -/

/-- The outcome of a faulting step: exception, error code, linear address for `#PF`, unchanged state (R150, R152; 10_state.md
R32). Delivery to a handler is outside the spec (00_scope.md R5 b). -/
def raise (e : Exc) (s : State) : Outcome :=
  .fault <| match e with
    | .ud => .ud s
    | .nm => .nm s
    | .ss => .ss s
    | .gp => .gp s
    | .pf code la => .pf code la s
    | .ac => .ac s

/-- Vector number (60_exceptions.md R140). -/
def vectorNumber : Fault → Nat
  | .ud _ => 6
  | .nm _ => 7
  | .ss _ => 12
  | .gp _ => 13
  | .pf _ _ _ => 14
  | .ac _ => 17

/-- Error code, where there is one (60_exceptions.md R140, R150). -/
def errorCode : Fault → Option (BitVec 32)
  | .ud _ => none
  | .nm _ => none
  | .ss _ => some 0#32
  | .gp _ => some 0#32
  | .pf code _ _ => some code
  | .ac _ => some 0#32

/-- The state an exception leaves (60_exceptions.md R152). -/
def leftState : Fault → State
  | .ud s => s
  | .nm s => s
  | .ss s => s
  | .gp s => s
  | .pf _ _ s => s
  | .ac s => s

/-- What CR2 holds once the exception is recorded: for `#PF` the faulting linear address, which the processor places there
(60_exceptions.md R150, log 2); no other exception writes it. -/
def recordedCr2 : Fault → Quad
  | .ud s => s.cr2
  | .nm s => s.cr2
  | .ss s => s.cr2
  | .gp s => s.cr2
  | .pf _ la _ => la
  | .ac s => s.cr2

/-- The saved instruction pointer: the first byte of the faulting instruction (60_exceptions.md R150). -/
def savedPc (f : Fault) : Quad := (leftState f).pc

/-- What a part of an instruction that may fault or stop gives. -/
inductive Got (α : Type)
  | got (a : α)
  | raises (e : Exc)
  | stops (r : Refusal)

/-- Goes on with the value, or ends the instruction. -/
def withGot {α : Type} (s : State) (g : Got α) (f : α → Outcome) : Outcome :=
  match g with
  | .got a => f a
  | .raises e => raise e s
  | .stops r => .refused r

/-! ## Memory (20_memory.md R40) -/

/-- What an unlisted location reads as: DESIGN CHOICE (log 7). -/
def unlistedByte : Byte := 0#8

def memByte : Memory → Nat → Byte
  | [], _ => unlistedByte
  | (b, v) :: m, a => if b = a then v else memByte m a

def memStore : Memory → Nat → Byte → Memory
  | [], a, v => if v = unlistedByte then [] else [(a, v)]
  | (b, w) :: m, a, v =>
    if a < b then (if v = unlistedByte then (b, w) :: m else (a, v) :: (b, w) :: m)
    else if a = b then (if v = unlistedByte then m else (a, v) :: m)
    else (b, w) :: memStore m a v

/-- The canonical form of memory. -/
def Memory.wf : Memory → Bool
  | [] => true
  | (a, v) :: m => v ≠ unlistedByte && m.all (fun c => a < c.1) && Memory.wf m

/-! ## The kinds of memory (20_memory.md R47, R52, log 16) -/

def covers (first size a : Nat) : Bool := first ≤ a && a < first + size

/-- What stands at a location other than ordinary private memory, if anything. -/
def regionAt (s : State) (loc : Nat) : Option RegionKind :=
  (s.regions.find? fun r => covers r.first r.size loc).map Region.kind

/-- The memory oracle (20_memory.md R46, R52): byte `i` of an operand, at a location. -/
def oracleByte (s : State) (i loc : Nat) : Byte :=
  match regionAt s loc with
  | some .shared => Config.sharedByte s.tick i loc
  | some .device => memByte s.mem loc
  | none => memByte s.mem loc

/-! ## Segmentation (20_memory.md R49, R51, R58) -/

def segOf (s : State) : SegReg → Segment
  | .cs => s.cs
  | .ds => s.ds
  | .es => s.es
  | .fs => s.fs
  | .gs => s.gs
  | .ss => s.ss

/-- The base added to an offset: in long64 only FS and GS have one (20_memory.md R58). -/
def segBase (s : State) (seg : SegReg) : Nat :=
  match s.mode with
  | .long64 =>
    match seg with
    | .fs => s.fs.base.toNat
    | .gs => s.gs.base.toNat
    | .cs | .ds | .es | .ss => 0
  | .prot32 | .prot16 | .real | .v86 => (segOf s seg).base.toNat

/-- Width of a linear address: 64 in long64; 32 elsewhere, PRESUMED (log 12). -/
def linearBits : Mode → Nat
  | .long64 => 64
  | .prot32 | .prot16 | .real | .v86 => 32

/-- The linear address of an offset in a segment (20_memory.md R40). -/
def linearAddr (s : State) (seg : SegReg) (offset : Nat) : Quad :=
  BitVec.ofNat 64 ((segBase s seg + offset) % 2 ^ linearBits s.mode)

/-- Canonical addresses (20_memory.md R51): bits 63:47, or 63:56, all equal. -/
def canonical (w : LinearWidth) (la : Quad) : Bool :=
  match w with
  | .bits48 => la.extractLsb' 47 17 = 0#17 || la.extractLsb' 47 17 = BitVec.allOnes 17
  | .bits57 => la.extractLsb' 56 8 = 0#8 || la.extractLsb' 56 8 = BitVec.allOnes 8

/-- An offset inside a segment (20_memory.md R51, log 14). -/
def inLimit (g : Segment) (o : Nat) : Bool :=
  if g.expandDown then g.limit.toNat < o && o ≤ (if g.d then 0xFFFFFFFF else 0xFFFF)
  else o ≤ g.limit.toNat

/-- Offset of byte `i` of an operand in a segmented mode; past the top it wraps only as the machine's parameter says
(20_memory.md R57, log 13). -/
def byteOffset (s : State) (ea : Quad) (i : Nat) : Nat :=
  if s.machine.wrapsAtTop then (ea.toNat + i) % 2 ^ 32 else ea.toNat + i

/-- All bytes of the operand lie inside the segment. -/
def allInLimit (s : State) (g : Segment) (ea : Quad) (n : Nat) : Bool :=
  (List.range n).all fun i => inLimit g (byteOffset s ea i)

/-- All bytes of the operand have canonical addresses, and it does not run past the top unless it may wrap. -/
def allCanonical (s : State) (seg : SegReg) (ea : Quad) (n : Nat) : Bool :=
  ((List.range n).all fun i => canonical s.machine.linearWidth (linearAddr s seg (ea.toNat + i))) &&
    (s.machine.wrapsAtTop || decide ((linearAddr s seg ea.toNat).toNat + n ≤ 2 ^ 64))

/-- The segment-level faults of the table of 20_memory.md R51. -/
def segFault (s : State) (seg : SegReg) (ea : Quad) (n : Nat) : Option Exc :=
  match s.mode with
  | .real | .v86 => if ea.toNat + n ≤ 0x10000 then none else some .gp
  | .prot32 | .prot16 =>
    if seg = .ss then (if allInLimit s s.ss ea n then none else some .ss)
    else if (segOf s seg).usable && (segOf s seg).readable && allInLimit s (segOf s seg) ea n then none
    else some .gp
  | .long64 =>
    if allCanonical s seg ea n then none
    else some (if seg = .ss then .ss else .gp)

/-- The linear address of byte `i` of an operand. -/
def byteLinear (s : State) (seg : SegReg) (ea : Quad) (i : Nat) : Quad :=
  match s.mode with
  | .long64 => linearAddr s seg (ea.toNat + i)
  | .prot32 | .prot16 | .real | .v86 => linearAddr s seg (byteOffset s ea i)

/-! ## Paging (20_memory.md R49, R51; 60_exceptions.md R147; log 11) -/

/-- A location range's target moved to an address inside the range. -/
def shiftTarget (target first la : Nat) : Nat := (target + (la - first)) % 2 ^ 64

/-- The page walk of a data read. An address no range holds is not present. -/
def walk (s : State) (la : Quad) : Walk :=
  match s.mode, s.paging with
  | .real, _ => .mapped la.toNat
  | _, none => .mapped la.toNat
  | _, some ranges =>
    match ranges.find? fun r => covers r.first r.size la.toNat with
    | none => .denied false false false
    | some r =>
      match (if s.cpl = 3#2 then r.user else r.supervisor) with
      | .mapped t => .mapped (shiftTarget t r.first la.toNat)
      | .denied p rsvd pk => .denied p rsvd pk

/-- The data-read fault code (60_exceptions.md R147): P, W/R = 0, U/S, RSVD, I/D = 0, PK. -/
def pfCode (s : State) (present rsvd pk : Bool) : BitVec 32 :=
  0#26 ++ BitVec.ofBool pk ++ 0#1 ++ BitVec.ofBool rsvd ++ BitVec.ofBool (s.cpl = 3#2) ++ 0#1 ++ BitVec.ofBool present

/-- The location of byte `i` of an operand, where the walk gives one. -/
def byteLocation (s : State) (seg : SegReg) (ea : Quad) (i : Nat) : Option Nat :=
  match walk s (byteLinear s seg ea i) with
  | .mapped loc => some loc
  | .denied _ _ _ => none

/-- The page fault of byte `i` of an operand, where the walk denies it. -/
def bytePageFault (s : State) (seg : SegReg) (ea : Quad) (i : Nat) : Option Exc :=
  match walk s (byteLinear s seg ea i) with
  | .mapped _ => none
  | .denied p rsvd pk => some (.pf (pfCode s p rsvd pk) (byteLinear s seg ea i))

/-- The answer of the translation oracle. -/
inductive Translated
  | ok (locs : List Nat)
  | fault (e : Exc)
deriving DecidableEq, Repr

/-- `Translate(env, mode, seg, ea, n, DataRead)` (20_memory.md R49): segment faults first (R51), then one of the page
faults of the operand's bytes, the one the machine reports (60_exceptions.md R147, log 15). -/
def translateRead (s : State) (seg : SegReg) (ea : Quad) (n : Nat) : Translated :=
  match segFault s seg ea n with
  | some e => .fault e
  | none =>
    match (List.range n).filterMap (bytePageFault s seg ea) with
    | [] => .ok ((List.range n).filterMap (byteLocation s seg ea))
    | f :: fs => .fault ((f :: fs).getD (s.machine.reportedByte % (f :: fs).length) f)

/-! ## MemRead (20_memory.md R50) -/

/-- The address the legacy form's alignment test looks at (20_memory.md R43). -/
def testedAddress (s : State) (seg : SegReg) (ea : Quad) : Quad :=
  match s.machine.legacyAlign with
  | .linear => linearAddr s seg ea.toNat
  | .effective => ea

/-- The legacy form's operand is not 16-byte aligned (20_memory.md R43). -/
def misaligned (s : State) (legacy : Bool) (seg : SegReg) (ea : Quad) : Bool :=
  legacy && (testedAddress s seg ea).toNat % 16 ≠ 0

/-- `#AC(0)` is raised: checking on, AC_UNALIGNED = yes, VEX or EVEX, unaligned, and the step's free choice
(20_memory.md R45, 60_exceptions.md R148, logs 18, 19). -/
def acTaken (s : State) (legacy : Bool) (seg : SegReg) (ea : Quad) (n : Nat) : Bool :=
  s.alignCheck && s.machine.acUnaligned && !legacy && (linearAddr s seg ea.toNat).toNat % n ≠ 0 &&
    Config.acRaised s.tick

/-- The byte reads at the locations (20_memory.md R46), each answered by the oracle; a device is refused (R47). -/
def readBytes (s : State) (locs : List Nat) : Got (List ReadEvent) :=
  if locs.any fun l => regionAt s l = some .device then .stops .deviceOperand
  else .got (locs.zipIdx.map fun li => { location := li.1, byte := oracleByte s li.2 li.1 })

/-- `MemRead(seg, ea, n)` (20_memory.md R50). -/
def memRead (s : State) (legacy : Bool) (seg : SegReg) (ea : Quad) (n : Nat) : Got (List ReadEvent) :=
  match translateRead s seg ea n with
  | .fault .ss => .raises (if misaligned s legacy seg ea && !Config.ssBeforeGp s.tick then .gp else .ss)
  | .fault e => .raises (if misaligned s legacy seg ea then .gp else e)
  | .ok locs =>
    if misaligned s legacy seg ea then .raises .gp
    else if acTaken s legacy seg ea n then .raises .ac
    else readBytes s locs

/-! ## Fetch (20_memory.md R54, log 26) -/

/-- The location of byte `i` of the instruction at `pc`, where the model fetches it. -/
def fetchLocation (s : State) (i : Nat) : Option Nat :=
  let o := s.pc.toNat + i
  let la := linearAddr s .cs o
  if o < 2 ^ pcWidth s.mode ∧
      (if s.mode = .long64 then canonical s.machine.linearWidth la else decide (o ≤ s.cs.limit.toNat)) then
    match s.mode, s.paging with
    | .real, _ => some la.toNat
    | _, none => some la.toNat
    | _, some ranges =>
      match ranges.find? fun r => covers r.first r.size la.toNat with
      | none => none
      | some r => r.fetch.map fun t => shiftTarget t r.first la.toNat
  else none

/-- `Fetch(pc, i)`: from private memory only, since the program text is fixed (20_memory.md R54). -/
def fetchByte (s : State) (i : Nat) : Option Byte :=
  match fetchLocation s i with
  | none => none
  | some loc => if (regionAt s loc).isNone then some (memByte s.mem loc) else none

/-- Up to `n` bytes from byte `i` of the instruction on, as far as they can be fetched. -/
def fetchBytes (s : State) (i : Nat) : Nat → List Byte
  | 0 => []
  | n + 1 =>
    match fetchByte s i with
    | none => []
    | some b => b :: fetchBytes s (i + 1) n

/-! ## Registers -/

def State.getV (s : State) (n : BitVec 5) : Zmm := s.v[n.toNat]'n.isLt
def State.getK (s : State) (n : BitVec 3) : Quad := s.k[n.toNat]'n.isLt
def State.getX (s : State) (n : BitVec 4) : Quad := s.x[n.toNat]'n.isLt

/-- Writes all MAXVL bits of a vector register (00_scope.md R12); no bits above MAXVL exist (10_state.md R20). -/
def State.setV (s : State) (n : BitVec 5) (z : Zmm) : State :=
  { s with v := s.v.set n.toNat (lowLanes (maxLanes s.feat) z) n.isLt }

/-! ## Checks before execution, and completion -/

/-- `pc + len`, where it lies within the address space and the code segment (10_state.md R27, D17). -/
def nextPc (s : State) (len : Nat) : Option Quad :=
  if s.pc.toNat + len < 2 ^ pcWidth s.mode ∧ (s.mode = .long64 ∨ s.pc.toNat + len ≤ s.cs.limit.toNat) then
    some (BitVec.ofNat 64 (s.pc.toNat + len))
  else none

/-- The longest instruction a processor takes (30_encoding.md R97). -/
def lengthLimit : Nat := 15

/-- The order of 60_exceptions.md R151 before any operand is read: `#GP(0)` for length, `#UD`, `#NM`; then the successor
address (log 20). -/
def guarded (s : State) (len : Nat) (ud : Bool) (body : Quad → Outcome) : Outcome :=
  if lengthLimit < len then raise .gp s
  else if ud then raise .ud s
  else if s.ts then raise .nm s
  else
    match nextPc s len with
    | none => .refused .successorOutside
    | some next => body next

/-- The completion of an instruction: the destination, `pc`, and the model's own `tick` and `reads` (10_state.md R32). -/
def complete (s : State) (d : BitVec 5) (value : Zmm) (next : Quad) (events : List ReadEvent) : State :=
  { s.setV d value with pc := next, tick := s.tick + 1, reads := events ++ s.reads }

/-! ## The launch (70_reset_and_hazards.md R170, R173; log 8) -/

/-- System software has set 64-bit mode and enabled every form (R173); the translation is flat over ordinary memory
(92_eei_decisions.md, Default instantiation). -/
def launch (s : State) : State :=
  { s with
    cr0 := (s.cr0 ||| 0x1#64) &&& ~~~0xC#64
    cr4 := s.cr4 ||| 0x40200#64
    xcr0 := s.xcr0 ||| 0xE6#64
    efer := s.efer ||| 0x400#64
    rflags := s.rflags &&& ~~~0x20000#64
    cs := { s.cs with l := true, d := false }
    paging := none
    regions := []
    programEnd := none }

/-- Stores bytes where the fetch finds byte `i` of the instruction and the ones after it. -/
def placeBytes (s : State) (i : Nat) : List Byte → State
  | [] => s
  | b :: bs =>
    match fetchLocation s i with
    | none => placeBytes s (i + 1) bs
    | some loc => placeBytes { s with mem := memStore s.mem loc b } (i + 1) bs

/-- INIT (70_reset_and_hazards.md R171): reset, but for the vector registers, MXCSR and XCR0 (log 33); the machine, its
memory and the model's own fields are not the processor's to reset. -/
def warmReset (s : State) : State :=
  { State.reset with
    v := s.v, mxcsr := s.mxcsr, xcr0 := s.xcr0, machine := s.machine, paging := s.paging, regions := s.regions,
    mem := s.mem, programEnd := s.programEnd, tick := s.tick, reads := s.reads }

end Sys2Proof.Machine
end

