-- ==== Sys2Proof/Machine/Operands.lean ====
section
/-! DEFINITION. Operands: register numbers (30_encoding.md R71), the effective address and segment of a memory operand
(20_memory.md R57, R58), and reading operand 2 in each encoding class (40_pshufd_sse.md R102, 41_vpshufd_vex.md R110,
42_vpshufd_evex.md R120). -/

namespace Sys2Proof.Machine

open Sys2Proof

/-! ## Register numbers (30_encoding.md R71) -/

/-- Bits 3, X and B, that extend index, base and register source. -/
structure Ext where
  x : Bool
  b : Bool
deriving DecidableEq, Repr

def reg4 (hi : Bool) (lo : BitVec 3) : BitVec 4 := BitVec.ofBool hi ++ lo
def reg5 (hi mid : Bool) (lo : BitVec 3) : BitVec 5 := BitVec.ofBool hi ++ BitVec.ofBool mid ++ lo

/-- REX.R, .X, .B, zero without REX. -/
def rexR (p : Prefixes) : Bool := p.rex.any Rex.r
def rexX (p : Prefixes) : Bool := p.rex.any Rex.x
def rexB (p : Prefixes) : Bool := p.rex.any Rex.b

/-- The legacy form's destination: R:reg. -/
def legacyDest (p : Prefixes) (b : Body) : BitVec 5 := reg5 false (rexR p) b.reg
def vex2Dest (e : Vex2) (b : Body) : BitVec 5 := reg5 false e.r b.reg
def vex3Dest (e : Vex3) (b : Body) : BitVec 5 := reg5 false e.r b.reg
/-- R':R:reg. -/
def evexDest (e : Evex) (b : Body) : BitVec 5 := reg5 e.rHigh e.r b.reg

def legacyExt (p : Prefixes) : Ext := { x := rexX p, b := rexB p }
def vex2Ext : Ext := { x := false, b := false }
def vex3Ext (e : Vex3) : Ext := { x := e.x, b := e.b }
def evexExt (e : Evex) : Ext := { x := e.x, b := e.b }

/-- A register source of the legacy and VEX classes: B:rm. -/
def sourceReg (e : Ext) (rm : BitVec 3) : BitVec 5 := reg5 false e.b rm

/-- A register source of the EVEX class: X:B:rm. -/
def evexSourceReg (e : Evex) (rm : BitVec 3) : BitVec 5 := reg5 e.x e.b rm

/-! ## Effective address (20_memory.md R57) -/

/-- The fields 30_encoding.md R64 to R67 and R75 decode. -/
structure Addressing where
  base : Option (BitVec 4)
  index : Option (BitVec 4)
  scale : Nat
  disp : Quad
  riprel : Bool
deriving DecidableEq, Repr

/-- A displacement sign-extended; a disp8 multiplied by N (30_encoding.md R75). -/
def dispValue (n : Nat) : Disp → Quad
  | .absent => 0#64
  | .disp8 d => d.signExtend 64 * BitVec.ofNat 64 n
  | .disp32 d => d.signExtend 64

/-- 16-bit displacements (30_encoding.md R67). -/
def disp16Value : Disp16 → Quad
  | .absent => 0#64
  | .disp8 d => d.signExtend 64
  | .disp16 d => d.signExtend 64

/-- Index number X:index; full number 4 means none (30_encoding.md R65). -/
def indexReg (e : Ext) (ix : BitVec 3) : Option (BitVec 4) :=
  if reg4 e.x ix = 4#4 then none else some (reg4 e.x ix)

/-- The registers a 16-bit form sums (30_encoding.md R67): BX 3, BP 5, SI 6, DI 7. -/
def regs16 (rm : BitVec 3) : BitVec 4 × Option (BitVec 4) :=
  if rm = 0#3 then (3#4, some 6#4)
  else if rm = 1#3 then (3#4, some 7#4)
  else if rm = 2#3 then (5#4, some 6#4)
  else if rm = 3#3 then (5#4, some 7#4)
  else if rm = 4#3 then (6#4, none)
  else if rm = 5#3 then (7#4, none)
  else if rm = 6#3 then (5#4, none)
  else (3#4, none)

/-- The addressing form (30_encoding.md R65 to R67); a register source has none. -/
def addressing (m : Mode) (e : Ext) (n : Nat) : Rm → Option Addressing
  | .reg _ => none
  | .indirect rm d =>
    some { base := some (reg4 e.b rm), index := none, scale := 1, disp := dispValue n d, riprel := false }
  | .disp32 d =>
    some { base := none, index := none, scale := 1, disp := d.signExtend 64, riprel := m = .long64 }
  | .sib sc ix ba d =>
    some { base := some (reg4 e.b ba), index := indexReg e ix, scale := 2 ^ sc.toNat, disp := dispValue n d,
           riprel := false }
  | .sibNoBase sc ix d =>
    some { base := none, index := indexReg e ix, scale := 2 ^ sc.toNat, disp := d.signExtend 64, riprel := false }
  | .indirect16 rm d =>
    some { base := some (regs16 rm).1, index := (regs16 rm).2, scale := 1, disp := disp16Value d, riprel := false }
  | .disp16 d =>
    some { base := none, index := none, scale := 1, disp := d.signExtend 64, riprel := false }

/-- Bits of an address size. -/
def addrBits : AddrSize → Nat
  | .a16 => 16
  | .a32 => 32
  | .a64 => 64

/-- The effective address (20_memory.md R57): the sum modulo 2^asz. `next` is `pc + len`. -/
def effectiveAddress (s : State) (a : AddrSize) (next : Quad) (ad : Addressing) : Quad :=
  let b := if ad.riprel then next else (ad.base.map s.getX).getD 0#64
  let ix := (ad.index.map s.getX).getD 0#64
  BitVec.ofNat 64 ((b + ix * BitVec.ofNat 64 ad.scale + ad.disp).toNat % 2 ^ addrBits a)

/-- The segment without an override (20_memory.md R58): SS with base register 4 or 5, DS otherwise. -/
def defaultSeg (ad : Addressing) : SegReg :=
  if ad.base = some 4#4 ∨ ad.base = some 5#4 then .ss else .ds

/-- The segment of the operand (20_memory.md R58): in long64 only FS and GS overrides count (log 30). -/
def operandSeg (m : Mode) (p : Prefixes) (ad : Addressing) : SegReg :=
  match p.seg with
  | none => defaultSeg ad
  | some sg => if m = .long64 ∧ sg ≠ .fs ∧ sg ≠ .gs then defaultSeg ad else sg

/-! ## Reading operand 2 -/

/-- The value of operand 2 and the byte reads it took. -/
structure Source where
  value : Zmm
  events : List ReadEvent
deriving DecidableEq, Repr

def eventBytes (es : List ReadEvent) : List Byte := es.map ReadEvent.byte

/-- The memory operand's byte reads: address, segment, MemRead (20_memory.md R50, R57, R58). -/
def readOperand (s : State) (legacy : Bool) (p : Prefixes) (ad : Addressing) (next : Quad) (bytes : Nat) :
    Got (List ReadEvent) :=
  memRead s legacy (operandSeg s.mode p ad) (effectiveAddress s (addressSize s.mode p.addr67) next ad) bytes

/-- Maps the value of a part of an instruction. -/
def mapGot {α β : Type} (f : α → β) : Got α → Got β
  | .got a => .got (f a)
  | .raises e => .raises e
  | .stops r => .stops r

/-- Operand 2 of a legacy or VEX form: bits VL-1:0 of a register, or VL/8 bytes (40_pshufd_sse.md R102,
41_vpshufd_vex.md R110, R111). disp8 is not scaled (30_encoding.md R75). -/
def readSource (s : State) (legacy : Bool) (vl : VL) (p : Prefixes) (e : Ext) (rm : Rm) (next : Quad) : Got Source :=
  match rm, addressing s.mode e 1 rm with
  | .reg r, _ => .got { value := lowLanes (vlLanes vl) (s.getV (sourceReg e r)), events := [] }
  | _, none => .got { value := zeroZmm, events := [] }
  | _, some ad =>
    mapGot (fun es => { value := zmmOfBytes (eventBytes es), events := es })
      (readOperand s legacy p ad next (vlBytes vl))

/-- Bytes of an EVEX memory operand, and the factor N of its disp8 (20_memory.md R41, 30_encoding.md R75). -/
def evexBytes (vl : VL) (bcast : Bool) : Nat := if bcast then 4 else vlBytes vl

/-- An EVEX disp8 with 16-bit addresses, which is refused (30_encoding.md R67, U15). -/
def isDisp8Addr16 : Rm → Bool
  | .indirect16 _ (.disp8 _) => true
  | _ => false

/-- EvexSource(VL) (42_vpshufd_evex.md R120). -/
def evexSource (s : State) (vl : VL) (p : Prefixes) (e : Evex) (rm : Rm) (next : Quad) : Got Source :=
  match rm, addressing s.mode (evexExt e) (evexBytes vl e.bcast) rm with
  | .reg r, _ => .got { value := lowLanes (vlLanes vl) (s.getV (evexSourceReg e r)), events := [] }
  | _, none => .got { value := zeroZmm, events := [] }
  | _, some ad =>
    if isDisp8Addr16 rm then .stops .evexDisp8Addr16
    else
      mapGot
        (fun es =>
          { value :=
              if e.bcast then broadcast vl ((laneOfBytes (eventBytes es)).setWidth 32)
              else zmmOfBytes (eventBytes es),
            events := es })
        (readOperand s false p ad next (evexBytes vl e.bcast))

end Sys2Proof.Machine
end

