-- ==== Sys2Proof/Machine/Vex.lean ====
section
/-! DEFINITION. The VEX forms VPSHUFD xmm and VPSHUFD ymm (41_vpshufd_vex.md R110, R111). -/

namespace Sys2Proof.Machine

open Sys2Proof

/-- The feature flag a VEX form needs (00_scope.md R2). -/
def vexFeature (f : Features) : VL → Bool
  | .v128 => f.avx
  | .v256 => f.avx2
  | .v512 => false

/-- A prefix that may not stand before VEX or EVEX (30_encoding.md R89). -/
def badPrefix (p : Prefixes) : Bool := p.opsize66 || p.repne || p.rep || p.lock || p.rex.isSome

/-- `#UD` of the VEX forms (60_exceptions.md R142). -/
def vexUd (s : State) (vl : VL) (p : Prefixes) (vvvv : BitVec 4) : Bool :=
  isRealOrV86 s.mode || badPrefix p || !s.osxsave || !s.xcr0Avx || !vexFeature s.feat vl || vvvv ≠ 15#4

/-- What the VEX rows share: R110 and R111 with VL, register numbers and length as parameters. -/
def runVex (s : State) (vl : VL) (len : Nat) (p : Prefixes) (vvvv : BitVec 4) (d : BitVec 5) (e : Ext) (body : Body) :
    Outcome :=
  guarded s len (vexUd s vl p vvvv) fun next =>
    withGot s (readSource s false vl p e body.rm next) fun src =>
      .next (complete s d (shuffleLanes vl src.value body.order) next src.events)

/-- VPSHUFD xmm1, xmm2/m128, imm8, prefix C5 (41_vpshufd_vex.md R110). -/
def execVpshufdVex128C5 (p : Prefixes) (e : Vex2) (body : Body) (s : State) : Outcome :=
  runVex s .v128 (instrLength (.vpshufdVex128C5 p e body)) p e.vvvv (vex2Dest e body) vex2Ext body

/-- VPSHUFD xmm1, xmm2/m128, imm8, prefix C4; W is ignored (41_vpshufd_vex.md R110, 30_encoding.md R86). -/
def execVpshufdVex128C4 (p : Prefixes) (e : Vex3) (body : Body) (s : State) : Outcome :=
  runVex s .v128 (instrLength (.vpshufdVex128C4 p e body)) p e.vvvv (vex3Dest e body) (vex3Ext e) body

/-- VPSHUFD ymm1, ymm2/m256, imm8, prefix C5 (41_vpshufd_vex.md R111). -/
def execVpshufdVex256C5 (p : Prefixes) (e : Vex2) (body : Body) (s : State) : Outcome :=
  runVex s .v256 (instrLength (.vpshufdVex256C5 p e body)) p e.vvvv (vex2Dest e body) vex2Ext body

/-- VPSHUFD ymm1, ymm2/m256, imm8, prefix C4; W is ignored (41_vpshufd_vex.md R111, 30_encoding.md R86). -/
def execVpshufdVex256C4 (p : Prefixes) (e : Vex3) (body : Body) (s : State) : Outcome :=
  runVex s .v256 (instrLength (.vpshufdVex256C4 p e body)) p e.vvvv (vex3Dest e body) (vex3Ext e) body

end Sys2Proof.Machine
end

