-- ==== Sys2Proof/Machine/EvexForms.lean ====
section
/-! DEFINITION. The EVEX forms VPSHUFD xmm, ymm and zmm with writemask and broadcast (42_vpshufd_evex.md R120 to R124). -/

namespace Sys2Proof.Machine

open Sys2Proof

/-- The feature flags an EVEX form needs (00_scope.md R2). -/
def evexFeature (f : Features) : VL → Bool
  | .v128 => f.avx512f && f.avx512vl
  | .v256 => f.avx512f && f.avx512vl
  | .v512 => f.avx512f

def isRegister : Rm → Bool
  | .reg _ => true
  | _ => false

/-- The reserved-field conditions of 30_encoding.md R88 (d), (e), (f); (a) to (c) and R87 match no row and are the
decoder's. -/
def evexReserved (e : Evex) (rm : Rm) : Bool := !e.vHigh || (e.z && e.aaa = 0#3) || (e.bcast && isRegister rm)

/-- `#UD` of the EVEX forms (60_exceptions.md R143). -/
def evexUd (s : State) (vl : VL) (p : Prefixes) (e : Evex) (rm : Rm) : Bool :=
  isRealOrV86 s.mode || badPrefix p || !s.osxsave || !s.xcr0Avx || !s.xcr0Avx512 || !evexFeature s.feat vl ||
    e.vvvv ≠ 15#4 || evexReserved e rm

/-- What the EVEX rows share: R122 with VL as a parameter. -/
def runEvex (s : State) (vl : VL) (len : Nat) (p : Prefixes) (e : Evex) (body : Body) : Outcome :=
  guarded s len (evexUd s vl p e body.rm) fun next =>
    withGot s (evexSource s vl p e body.rm next) fun src =>
      .next (complete s (evexDest e body)
        (evexMerge vl e.aaa (s.getK e.aaa) e.z (s.getV (evexDest e body)) (shuffleLanes vl src.value body.order))
        next src.events)

/-- VPSHUFD xmm1 {k1}{z}, xmm2/m128/m32bcst, imm8 (42_vpshufd_evex.md R122). -/
def execVpshufdEvex128 (p : Prefixes) (e : Evex) (body : Body) (s : State) : Outcome :=
  runEvex s .v128 (instrLength (.vpshufdEvex128 p e body)) p e body

/-- VPSHUFD ymm1 {k1}{z}, ymm2/m256/m32bcst, imm8 (42_vpshufd_evex.md R123). -/
def execVpshufdEvex256 (p : Prefixes) (e : Evex) (body : Body) (s : State) : Outcome :=
  runEvex s .v256 (instrLength (.vpshufdEvex256 p e body)) p e body

/-- VPSHUFD zmm1 {k1}{z}, zmm2/m512/m32bcst, imm8 (42_vpshufd_evex.md R124). -/
def execVpshufdEvex512 (p : Prefixes) (e : Evex) (body : Body) (s : State) : Outcome :=
  runEvex s .v512 (instrLength (.vpshufdEvex512 p e body)) p e body

end Sys2Proof.Machine
end

