-- ==== Sys2Proof/Machine/Legacy.lean ====
section
/-! DEFINITION. The legacy SSE form PSHUFD (40_pshufd_sse.md R102). -/

namespace Sys2Proof.Machine

open Sys2Proof

/-- `#UD` of the legacy form (60_exceptions.md R141). -/
def legacyUd (s : State) (p : Prefixes) : Bool := p.lock || s.em || !s.osfxsr || !s.feat.sse2

/-- PSHUFD xmm1, xmm2/m128, imm8 (40_pshufd_sse.md R102). -/
def execPshufd (p : Prefixes) (body : Body) (s : State) : Outcome :=
  guarded s (instrLength (.pshufd p body)) (legacyUd s p) fun next =>
    withGot s (readSource s true .v128 p (legacyExt p) body.rm next) fun src =>
      .next (complete s (legacyDest p body)
        (legacyMerge (s.getV (legacyDest p body)) (shuffle128 src.value.lane0 body.order)) next src.events)

end Sys2Proof.Machine
end

