-- ==== Sys2Proof/Machine/Dispatch.lean ====
section
/-! DEFINITION. One arm for each row of spec/opcode_table.json. -/

namespace Sys2Proof.Machine

open Sys2Proof

def exec (i : Instr) (s : State) : Host.Outcome State Fault Refusal :=
  match i with
  | .pshufd p body => Sys2Proof.Machine.execPshufd p body s
  | .vpshufdVex128C5 p e body => Sys2Proof.Machine.execVpshufdVex128C5 p e body s
  | .vpshufdVex128C4 p e body => Sys2Proof.Machine.execVpshufdVex128C4 p e body s
  | .vpshufdVex256C5 p e body => Sys2Proof.Machine.execVpshufdVex256C5 p e body s
  | .vpshufdVex256C4 p e body => Sys2Proof.Machine.execVpshufdVex256C4 p e body s
  | .vpshufdEvex128 p e body => Sys2Proof.Machine.execVpshufdEvex128 p e body s
  | .vpshufdEvex256 p e body => Sys2Proof.Machine.execVpshufdEvex256 p e body s
  | .vpshufdEvex512 p e body => Sys2Proof.Machine.execVpshufdEvex512 p e body s

end Sys2Proof.Machine
end

