-- ==== Sys2Proof/Machine/Fetch.lean ====
section
/-! DEFINITION. What the step does with what the decoder reads, apart from running an instruction (30_encoding.md R87,
R88, R97; 92_eei_decisions.md D19, D24). -/

namespace Sys2Proof.Machine

open Sys2Proof

/-- The bytes the step gives the decoder. -/
def window (s : State) : List Byte := fetchBytes s 0 longestInstr

/-- A reserved EVEX encoding raises `#UD`, unless it is longer than 15 bytes (60_exceptions.md R151). -/
def reservedOutcome (len : Nat) (s : State) : Outcome :=
  if lengthLimit < len then raise .gp s else raise .ud s

/-- The decoder's reasons under the step's names. Bytes that end too early could not be fetched. -/
def refusalOf : DecodeRefusal → Refusal
  | .truncated => .bytesNotFetchable
  | .notThisInstruction => .notThisInstruction
  | .repeatedPrefix => .repeatedPrefix
  | .rexNotLast => .rexNotLast
  | .extensionOutsideLong64 => .extensionOutsideLong64

/-- The launch with an instruction's bytes where the next step fetches (log 8). -/
def launchWith (s : State) (bs : List Byte) : State := placeBytes (launch s) 0 bs

end Sys2Proof.Machine
end

