-- ==== Sys2Proof/Machine/Step.lean ====
section
/-! DEFINITION. One step: fetch at `pc`, decode, execute (92_eei_decisions.md D1, D23, D24). -/

namespace Sys2Proof.Machine

open Sys2Proof

def step (s : State) : Host.Outcome State Fault Refusal :=
  if s.programEnd = some s.pc then .refused .programEnded
  else
    match decode s.mode (window s) with
    | .instr i _ => exec i s
    | .reserved len => reservedOutcome len s
    | .refused r => .refused (refusalOf r)

/-- The state launched with the instruction of a table word at `pc` (logs 8, 9). -/
def State.withFetchWord (s : State) (nbits w : Nat) : State := launchWith s (tableBytes nbits w)

end Sys2Proof.Machine
end

