-- ==== Sys2Proof/Safety.lean ====
section
/-! DEFINITION. The words claims are made in: when an instruction executes normally (70_reset_and_hazards.md R173), where its
memory operand stands, what it leaves unchanged (10_state.md R32), the invariant of the state, and what a safe step is. -/

namespace Sys2Proof.Machine

open Sys2Proof

/-! ## When no `#UD` is raised (60_exceptions.md R141 to R143) -/

/-- No prefix that is illegal before VEX or EVEX (30_encoding.md R89). -/
def PrefixesAllowed (p : Prefixes) : Prop :=
  p.opsize66 = false ∧ p.repne = false ∧ p.rep = false ∧ p.lock = false ∧ p.rex = none

/-- R141. -/
def SseNoUd (s : State) (p : Prefixes) : Prop :=
  p.lock = false ∧ s.cr0.getLsbD 2 = false ∧ s.cr4.getLsbD 9 = true ∧ s.machine.feat.sse2 = true

/-- R142, with the feature flag of the form. -/
def VexNoUd (s : State) (flag : Bool) (p : Prefixes) (vvvv : BitVec 4) : Prop :=
  s.mode ≠ .real ∧ s.mode ≠ .v86 ∧ PrefixesAllowed p ∧ s.cr4.getLsbD 18 = true ∧
    s.xcr0.getLsbD 1 = true ∧ s.xcr0.getLsbD 2 = true ∧ flag = true ∧ vvvv = 15#4

/-- R143, with the feature flags of the form. -/
def EvexNoUd (s : State) (flag : Bool) (p : Prefixes) (e : Evex) (rm : Rm) : Prop :=
  VexNoUd s flag p e.vvvv ∧
    s.xcr0.getLsbD 5 = true ∧ s.xcr0.getLsbD 6 = true ∧ s.xcr0.getLsbD 7 = true ∧
    e.vHigh = true ∧ (e.z = true → e.aaa ≠ 0#3) ∧ (e.bcast = true → ∀ r, rm ≠ .reg r)

/-- The instruction raises no `#UD` in this state. -/
def NoUd (s : State) : Instr → Prop
  | .pshufd p _ => SseNoUd s p
  | .vpshufdVex128C5 p e _ => VexNoUd s s.machine.feat.avx p e.vvvv
  | .vpshufdVex128C4 p e _ => VexNoUd s s.machine.feat.avx p e.vvvv
  | .vpshufdVex256C5 p e _ => VexNoUd s s.machine.feat.avx2 p e.vvvv
  | .vpshufdVex256C4 p e _ => VexNoUd s s.machine.feat.avx2 p e.vvvv
  | .vpshufdEvex128 p e b => EvexNoUd s (s.machine.feat.avx512f && s.machine.feat.avx512vl) p e b.rm
  | .vpshufdEvex256 p e b => EvexNoUd s (s.machine.feat.avx512f && s.machine.feat.avx512vl) p e b.rm
  | .vpshufdEvex512 p e b => EvexNoUd s s.machine.feat.avx512f p e b.rm

/-! ## When an instruction gets as far as its operands -/

/-- `pc + len` lies in the address space and the code segment (10_state.md R27, D17). -/
def SuccessorInside (s : State) (len : Nat) : Prop :=
  s.pc.toNat + len < 2 ^ pcWidth s.mode ∧ (s.mode = .long64 ∨ s.pc.toNat + len ≤ s.cs.limit.toNat)

/-- The address of the next instruction. -/
def nextAddress (s : State) (len : Nat) : Quad := s.pc + BitVec.ofNat 64 len

/-- Everything that must hold for the instruction to read its operands: R97, R141 to R144, R27. -/
def Runnable (s : State) (i : Instr) : Prop :=
  instrLength i ≤ 15 ∧ NoUd s i ∧ s.cr0.getLsbD 3 = false ∧ SuccessorInside s (instrLength i)

/-- An operand of `n` bytes that the oracle answers with the locations `locs`, all of ordinary private memory
(20_memory.md R47, R49). -/
def Readable (s : State) (seg : SegReg) (ea : Quad) (n : Nat) (locs : List Nat) : Prop :=
  translateRead s seg ea n = .ok locs ∧ ∀ l ∈ locs, regionAt s l = none

/-- `#AC(0)` may be raised for the operand (20_memory.md R45, 60_exceptions.md R148). -/
def AcPossible (s : State) (seg : SegReg) (ea : Quad) (n : Nat) : Prop :=
  s.cr0.getLsbD 18 = true ∧ s.rflags.getLsbD 18 = true ∧ s.cpl = 3#2 ∧ s.machine.acUnaligned = true ∧
    (linearAddr s seg ea.toNat).toNat % n ≠ 0

/-- The memory operand of an instruction: segment, effective address and size; `none` with a register source. -/
def memOperand (s : State) (i : Instr) : Option (SegReg × Quad × Nat) :=
  let next := nextAddress s (instrLength i)
  let at' (p : Prefixes) (e : Ext) (n bytes : Nat) (rm : Rm) : Option (SegReg × Quad × Nat) :=
    (addressing s.mode e n rm).map fun ad =>
      (operandSeg s.mode p ad, effectiveAddress s (addressSize s.mode p.addr67) next ad, bytes)
  match i with
  | .pshufd p b => at' p (legacyExt p) 1 16 b.rm
  | .vpshufdVex128C5 p _ b => at' p vex2Ext 1 16 b.rm
  | .vpshufdVex128C4 p e b => at' p (vex3Ext e) 1 16 b.rm
  | .vpshufdVex256C5 p _ b => at' p vex2Ext 1 32 b.rm
  | .vpshufdVex256C4 p e b => at' p (vex3Ext e) 1 32 b.rm
  | .vpshufdEvex128 p e b => at' p (evexExt e) (if e.bcast then 4 else 16) (if e.bcast then 4 else 16) b.rm
  | .vpshufdEvex256 p e b => at' p (evexExt e) (if e.bcast then 4 else 32) (if e.bcast then 4 else 32) b.rm
  | .vpshufdEvex512 p e b => at' p (evexExt e) (if e.bcast then 4 else 64) (if e.bcast then 4 else 64) b.rm

/-- The source register number of an instruction with a register source (30_encoding.md R71). -/
def sourceNumber : Instr → Option (BitVec 5)
  | .pshufd p b => match b.rm with | .reg r => some (sourceReg (legacyExt p) r) | _ => none
  | .vpshufdVex128C5 _ _ b => match b.rm with | .reg r => some (sourceReg vex2Ext r) | _ => none
  | .vpshufdVex128C4 _ e b => match b.rm with | .reg r => some (sourceReg (vex3Ext e) r) | _ => none
  | .vpshufdVex256C5 _ _ b => match b.rm with | .reg r => some (sourceReg vex2Ext r) | _ => none
  | .vpshufdVex256C4 _ e b => match b.rm with | .reg r => some (sourceReg (vex3Ext e) r) | _ => none
  | .vpshufdEvex128 _ e b => match b.rm with | .reg r => some (evexSourceReg e r) | _ => none
  | .vpshufdEvex256 _ e b => match b.rm with | .reg r => some (evexSourceReg e r) | _ => none
  | .vpshufdEvex512 _ e b => match b.rm with | .reg r => some (evexSourceReg e r) | _ => none

/-- The destination register number of an instruction (30_encoding.md R71). -/
def destNumber : Instr → BitVec 5
  | .pshufd p b => legacyDest p b
  | .vpshufdVex128C5 _ e b => vex2Dest e b
  | .vpshufdVex128C4 _ e b => vex3Dest e b
  | .vpshufdVex256C5 _ e b => vex2Dest e b
  | .vpshufdVex256C4 _ e b => vex3Dest e b
  | .vpshufdEvex128 _ e b => evexDest e b
  | .vpshufdEvex256 _ e b => evexDest e b
  | .vpshufdEvex512 _ e b => evexDest e b

/-- The vector length of an instruction (30_encoding.md R72). -/
def lengthOf : Instr → VL
  | .pshufd _ _ => .v128
  | .vpshufdVex128C5 _ _ _ => .v128
  | .vpshufdVex128C4 _ _ _ => .v128
  | .vpshufdVex256C5 _ _ _ => .v256
  | .vpshufdVex256C4 _ _ _ => .v256
  | .vpshufdEvex128 _ _ _ => .v128
  | .vpshufdEvex256 _ _ _ => .v256
  | .vpshufdEvex512 _ _ _ => .v512

/-- ModRM, displacement and order byte of an instruction. -/
def bodyOf : Instr → Body
  | .pshufd _ b => b
  | .vpshufdVex128C5 _ _ b => b
  | .vpshufdVex128C4 _ _ b => b
  | .vpshufdVex256C5 _ _ b => b
  | .vpshufdVex256C4 _ _ b => b
  | .vpshufdEvex128 _ _ b => b
  | .vpshufdEvex256 _ _ b => b
  | .vpshufdEvex512 _ _ b => b

/-- Prefixes of an instruction. -/
def prefixesOf : Instr → Prefixes
  | .pshufd p _ => p
  | .vpshufdVex128C5 p _ _ => p
  | .vpshufdVex128C4 p _ _ => p
  | .vpshufdVex256C5 p _ _ => p
  | .vpshufdVex256C4 p _ _ => p
  | .vpshufdEvex128 p _ _ => p
  | .vpshufdEvex256 p _ _ => p
  | .vpshufdEvex512 p _ _ => p

/-- The stored vvvv field of a VEX or EVEX row (30_encoding.md R85). -/
def vvvvOf : Instr → Option (BitVec 4)
  | .pshufd _ _ => none
  | .vpshufdVex128C5 _ e _ => some e.vvvv
  | .vpshufdVex128C4 _ e _ => some e.vvvv
  | .vpshufdVex256C5 _ e _ => some e.vvvv
  | .vpshufdVex256C4 _ e _ => some e.vvvv
  | .vpshufdEvex128 _ e _ => some e.vvvv
  | .vpshufdEvex256 _ e _ => some e.vvvv
  | .vpshufdEvex512 _ e _ => some e.vvvv

/-- X and B of an instruction (30_encoding.md R71). -/
def extOf : Instr → Ext
  | .pshufd p _ => legacyExt p
  | .vpshufdVex128C5 _ _ _ => vex2Ext
  | .vpshufdVex128C4 _ e _ => vex3Ext e
  | .vpshufdVex256C5 _ _ _ => vex2Ext
  | .vpshufdVex256C4 _ e _ => vex3Ext e
  | .vpshufdEvex128 _ e _ => evexExt e
  | .vpshufdEvex256 _ e _ => evexExt e
  | .vpshufdEvex512 _ e _ => evexExt e

/-- The four VEX rows. -/
def isVex : Instr → Bool
  | .vpshufdVex128C5 _ _ _ | .vpshufdVex128C4 _ _ _ | .vpshufdVex256C5 _ _ _ | .vpshufdVex256C4 _ _ _ => true
  | .pshufd _ _ | .vpshufdEvex128 _ _ _ | .vpshufdEvex256 _ _ _ | .vpshufdEvex512 _ _ _ => false

/-- The EVEX fields of the three EVEX rows. -/
def evexOf : Instr → Option Evex
  | .vpshufdEvex128 _ e _ => some e
  | .vpshufdEvex256 _ e _ => some e
  | .vpshufdEvex512 _ e _ => some e
  | .pshufd _ _ | .vpshufdVex128C5 _ _ _ | .vpshufdVex128C4 _ _ _ | .vpshufdVex256C5 _ _ _ | .vpshufdVex256C4 _ _ _ => none

/-! ## Where a memory operand stands, as the rules say it -/

/-- The bytes of a memory operand, which are the factor N of an EVEX disp8 too (20_memory.md R41, 30_encoding.md R75). -/
def operandBytes (i : Instr) : Nat := if (evexOf i).any Evex.bcast then 4 else vlBytes (lengthOf i)

/-- N, what one disp8 counts (30_encoding.md R75): 1 byte but in the EVEX forms. -/
def disp8Factor (i : Instr) : Nat := if (evexOf i).isSome then operandBytes i else 1

/-- The displacement of a 32- or 64-bit form (30_encoding.md R66, R75). -/
def displacement (i : Instr) : Disp → Quad
  | .absent => 0#64
  | .disp8 d => d.signExtend 64 * BitVec.ofNat 64 (disp8Factor i)
  | .disp32 d => d.signExtend 64

/-- The displacement of a 16-bit form (30_encoding.md R67). -/
def displacement16 : Disp16 → Quad
  | .absent => 0#64
  | .disp8 d => d.signExtend 64
  | .disp16 d => d.signExtend 64

/-- The scaled index of a SIB form, nothing for index number 4 (30_encoding.md R65). -/
def scaledIndex (s : State) (i : Instr) (sc : BitVec 2) (ix : BitVec 3) : Quad :=
  if reg4 (extOf i).x ix = 4#4 then 0#64 else s.getX (reg4 (extOf i).x ix) <<< sc.toNat

/-- An address modulo 2^asz, zero-extended (20_memory.md R57). -/
def truncated : AddrSize → Quad → Quad
  | .a16, q => (q.setWidth 16).setWidth 64
  | .a32, q => (q.setWidth 32).setWidth 64
  | .a64, q => q

/-- The default segment with a base register (20_memory.md R58). -/
def baseSegment (base : BitVec 4) : SegReg := if base = 4#4 ∨ base = 5#4 then .ss else .ds

/-- The segment of an operand (20_memory.md R58): an override, in long64 FS or GS only, or the default. -/
def segmentRule (m : Mode) (p : Prefixes) (default : SegReg) : SegReg :=
  match m, p.seg with
  | .long64, some .fs => .fs
  | .long64, some .gs => .gs
  | .long64, _ => default
  | _, some sg => sg
  | _, none => default

/-- The registers a 16-bit form sums (30_encoding.md R67): BX 3, BP 5, SI 6, DI 7. -/
def registerSum16 (s : State) (rm : BitVec 3) : Quad :=
  if rm = 0#3 then s.getX 3#4 + s.getX 6#4
  else if rm = 1#3 then s.getX 3#4 + s.getX 7#4
  else if rm = 2#3 then s.getX 5#4 + s.getX 6#4
  else if rm = 3#3 then s.getX 5#4 + s.getX 7#4
  else if rm = 4#3 then s.getX 6#4
  else if rm = 5#3 then s.getX 7#4
  else if rm = 6#3 then s.getX 5#4
  else s.getX 3#4

/-- The default segment of a 16-bit form with registers (30_encoding.md R67): SS with BP. -/
def defaultSegment16 (rm : BitVec 3) : SegReg := if rm = 2#3 ∨ rm = 3#3 ∨ rm = 6#3 then .ss else .ds

/-! ## Frame (10_state.md R32) -/

/-- `t` differs from `s` in vector register `d` and `pc`, and in the model's own `tick` and `reads`, only. -/
def FrameExcept (s t : State) (d : BitVec 5) : Prop :=
  (∀ n, n ≠ d → t.getV n = s.getV n) ∧ (∀ a, memByte t.mem a = memByte s.mem a) ∧
    t = { s with v := t.v, pc := t.pc, tick := t.tick, reads := t.reads }

/-! ## Invariant -/

/-- KW in bits (10_state.md R23). -/
def maskBits : MaskWidth → Nat
  | .kw16 => 16
  | .kw64 => 64

/-- What holds of every state of a machine (log 29): memory in canonical form, `pc` within its width (10_state.md R27),
and no bit set that the machine does not have (R20, R21, R23). -/
structure State.Inv (s : State) : Prop where
  mem : Memory.wf s.mem = true
  pc : s.pc.toNat < 2 ^ pcWidth s.mode
  width : ∀ n, lowLanes (maxLanes s.feat) (s.getV n) = s.getV n
  high : s.machine.feat.avx512f = false → ∀ n : BitVec 5, 16 ≤ n.toNat → s.getV n = zeroZmm
  /-- A form whose VL exceeds MAXVL is never valid on that machine (00_scope.md R6). -/
  fits : s.machine.feat.avx2 = true → 2 ≤ maxLanes s.feat
  masks : ∀ n, (s.getK n).toNat < 2 ^ maskBits s.machine.kw
  noMasks : s.machine.feat.avx512f = false → ∀ n, s.getK n = 0#64

/-! ## Safe steps and runs -/

/-- A step that neither faults nor is refused. -/
def Safe (s : State) : Prop := ∃ t, step s = .next t

/-- A run of `n` steps that neither faults nor is refused. -/
def SafeRun (n : Nat) (s : State) : Prop := ∃ t, Host.Core.run Sys2Proof.core n s = .next t

end Sys2Proof.Machine
end

