-- ==== Sys2Proof/WellFormed.lean ====
section
/-! DEFINITION. Which terms of Syntax are instructions of a mode: the relations between fields that the encodings of
30_encoding.md impose and the types of Syntax leave open. Values the spec answers with `#UD` (vvvv, V', z with aaa, b
with a register, LOCK, prefixes before VEX or EVEX) are well-formed: they decode and run to that exception. -/

namespace Sys2Proof

/-- R64 to R67: which addressing forms exist at an address size, and which field values announce another form. -/
def Rm.wf (a : AddrSize) : Rm → Bool
  | .reg _ => true
  | .indirect rm d => a ≠ .a16 && rm ≠ 4#3 && !(d = .absent && rm = 5#3)
  | .disp32 _ => a ≠ .a16
  | .sib _ _ base d => a ≠ .a16 && !(d = .absent && base = 5#3)
  | .sibNoBase _ _ _ => a ≠ .a16
  | .indirect16 rm d => a = .a16 && !(d = .absent && rm = 6#3)
  | .disp16 _ => a = .a16

/-- R63: REX exists in long64 only. -/
def Prefixes.wf (m : Mode) (p : Prefixes) : Bool := p.rex.isNone || m = .long64

/-- R78: `66` present, `F2` and `F3` absent. -/
def Prefixes.wfLegacy (p : Prefixes) : Bool := p.opsize66 && !p.repne && !p.rep

/-- R91: outside long64 bits 7:6 of the byte after `C5` are 11b. -/
def Vex2.wf (m : Mode) (e : Vex2) : Bool := m = .long64 || (!e.r && e.vvvv.getLsbD 3)

/-- R91: outside long64 bits 7:6 of the byte after `C4` are 11b; stored B and vvvv bit 3 are 1 in prot32 and prot16. -/
def Vex3.wf (m : Mode) (e : Vex3) : Bool :=
  (m = .long64 || (!e.r && !e.x)) && (!isProtected m || (!e.b && e.vvvv.getLsbD 3))

/-- R91: outside long64 bits 7:6 of the byte after `62` are 11b; stored B, R' and V' are 1 in prot32 and prot16. -/
def Evex.wf (m : Mode) (e : Evex) : Bool :=
  (m = .long64 || (!e.r && !e.x)) && (!isProtected m || (!e.b && !e.rHigh && e.vHigh))

/-- An instruction of mode `m`. -/
def Instr.wf (m : Mode) : Instr → Bool
  | .pshufd p b => p.wf m && p.wfLegacy && b.rm.wf (addressSize m p.addr67)
  | .vpshufdVex128C5 p e b | .vpshufdVex256C5 p e b => p.wf m && e.wf m && b.rm.wf (addressSize m p.addr67)
  | .vpshufdVex128C4 p e b | .vpshufdVex256C4 p e b => p.wf m && e.wf m && b.rm.wf (addressSize m p.addr67)
  | .vpshufdEvex128 p e b | .vpshufdEvex256 p e b | .vpshufdEvex512 p e b =>
    p.wf m && e.wf m && b.rm.wf (addressSize m p.addr67)

end Sys2Proof
end

