-- ==== Sys2Proof/Certificates/Slice0/Obligations.lean ====
section
/-! DEFINITION. Statements about the machine, for the provers; each docstring says which rule of spec/ it formalises. -/

open Sys2Proof Sys2Proof.Machine

/-! ## Encoding -/

/-- 30_encoding.md R60 to R83: no field of an encoding is dropped, in any mode, whatever bytes follow. -/
def Obligations.DecodeOfEncodeGivesInstr : Prop :=
  ∀ (m : Mode) (i : Instr) (rest : List Byte), i.wf m = true → decode m (encode i ++ rest) = .instr i rest

/-- 30_encoding.md R60: what the decoder reads is an instruction of the mode, and takes `len` bytes. -/
def Obligations.DecodedInstrIsWellFormed : Prop :=
  ∀ (m : Mode) (bs : List Byte) (i : Instr) (rest : List Byte), decode m bs = .instr i rest →
    i.wf m = true ∧ bs.length = instrLength i + rest.length

/-- 95_test_vectors.md section 3: words written out from the encodings decode to their instructions. -/
def Obligations.WrittenOutWordsDecode : Prop :=
  decode .long64 [0x66#8, 0x45#8, 0x0F#8, 0x70#8, 0xD3#8, 0x4E#8] =
      .instr (.pshufd { noPrefixes with opsize66 := true, rex := some { w := false, r := true, x := false, b := true } }
        { reg := 2#3, rm := .reg 3#3, order := 0x4E#8 }) [] ∧
    decode .long64 [0xC5#8, 0xFD#8, 0x70#8, 0x5C#8, 0xCB#8, 0xE0#8, 0x93#8] =
      .instr (.vpshufdVex256C5 noPrefixes { r := false, vvvv := 15#4 }
        { reg := 3#3, rm := .sib 3#2 1#3 3#3 (.disp8 0xE0#8), order := 0x93#8 }) [] ∧
    decode .long64 [0xC4#8, 0xE1#8, 0xF9#8, 0x70#8, 0xC1#8, 0x1B#8] =
      .instr (.vpshufdVex128C4 noPrefixes { r := false, x := false, b := false, w := true, vvvv := 15#4 }
        { reg := 0#3, rm := .reg 1#3, order := 0x1B#8 }) [] ∧
    decode .long64 [0x62#8, 0x81#8, 0x7D#8, 0xCF#8, 0x70#8, 0xCE#8, 0xFF#8] =
      .instr (.vpshufdEvex512 noPrefixes
        { r := false, x := true, b := true, rHigh := true, vvvv := 15#4, z := true, bcast := false, vHigh := true,
          aaa := 7#3 }
        { reg := 1#3, rm := .reg 6#3, order := 0xFF#8 }) []

/-- 30_encoding.md R92: the neighbours on the opcode byte are not this instruction. -/
def Obligations.NeighbourOpcodesRefused : Prop :=
  ∀ (m : Mode) (b : Byte) (bs : List Byte),
    decode m (0x0F#8 :: 0x70#8 :: bs) = .refused .notThisInstruction ∧
    decode m (0xF3#8 :: 0x0F#8 :: 0x70#8 :: bs) = .refused .notThisInstruction ∧
    decode m (0xF2#8 :: 0x0F#8 :: 0x70#8 :: bs) = .refused .notThisInstruction ∧
    decode m (0x66#8 :: 0xF3#8 :: 0x0F#8 :: 0x70#8 :: bs) = .refused .notThisInstruction ∧
    decode m (0x66#8 :: 0xF2#8 :: 0x0F#8 :: 0x70#8 :: bs) = .refused .notThisInstruction ∧
    (b.extractLsb' 0 2 ≠ 1#2 → decode m (0xC5#8 :: b :: 0x70#8 :: bs) = .refused .notThisInstruction) ∧
    (b.extractLsb' 0 2 ≠ 1#2 → ∀ v1, decode m (0xC4#8 :: v1 :: b :: 0x70#8 :: bs) = .refused .notThisInstruction) ∧
    (b.extractLsb' 0 5 ≠ 1#5 → ∀ v2, decode m (0xC4#8 :: b :: v2 :: 0x70#8 :: bs) = .refused .notThisInstruction) ∧
    (b.extractLsb' 0 2 ≠ 1#2 → ∀ p0 p2,
      decode m (0x62#8 :: p0 :: b :: p2 :: 0x70#8 :: bs) = .refused .notThisInstruction)

/-- 30_encoding.md R87, R88 (a) to (c): an EVEX prefix with W = 1, L'L = 11b or a wrong fixed bit on this opcode raises
`#UD`. Outside long64 the prefix is one whose extension bits are not set (R91). -/
def Obligations.ReservedEvexFieldsRaiseUd : Prop :=
  ∀ (s : State) (p0 p1 p2 : Byte) (bs : List Byte), s.programEnd ≠ some s.pc →
    window s = 0x62#8 :: p0 :: p1 :: p2 :: 0x70#8 :: bs →
    (s.mode = .long64 ∨ (modOf p0 = 3#2 ∧ p0.getLsbD 5 = true ∧ p0.getLsbD 4 = true ∧ p2.getLsbD 3 = true)) →
    p0.extractLsb' 0 2 = 1#2 → p1.extractLsb' 0 2 = 1#2 →
    (p1.getLsbD 7 = true ∨ p2.extractLsb' 5 2 = 3#2 ∨ p0.extractLsb' 2 2 ≠ 0#2 ∨ p1.getLsbD 2 = false) →
    (takeBody (addressSize s.mode false) bs).isSome = true →
    step s = .fault (.ud s)

/-- 30_encoding.md R76: the address-size table. -/
def Obligations.AddressSizeTable : Prop :=
  addressSize .long64 false = .a64 ∧ addressSize .long64 true = .a32 ∧
    addressSize .prot32 false = .a32 ∧ addressSize .prot32 true = .a16 ∧
    ∀ m, m = .prot16 ∨ m = .real ∨ m = .v86 → addressSize m false = .a16 ∧ addressSize m true = .a32

/-- 10_state.md R21: which vector registers an encoding class can name. -/
def Obligations.NameableRegisters : Prop :=
  ∀ (m : Mode) (i : Instr), i.wf m = true →
    (evexOf i = none → (destNumber i).toNat < 16 ∧ ∀ n, sourceNumber i = some n → n.toNat < 16) ∧
    (m = .prot32 ∨ m = .prot16 → (destNumber i).toNat < 8 ∧ ∀ n, sourceNumber i = some n → n.toNat < 8) ∧
    (∀ p b, i = .pshufd p b → p.rex = none →
      (destNumber i).toNat < 8 ∧ ∀ n, sourceNumber i = some n → n.toNat < 8)

/-! ## Step -/

/-- 92_eei_decisions.md D1: a step runs the instruction its decoder reads; where it completes, `pc` has moved past it
(10_state.md R27). -/
def Obligations.StepRunsDecodedInstr : Prop :=
  ∀ (s : State) (i : Instr) (rest : List Byte), s.programEnd ≠ some s.pc → decode s.mode (window s) = .instr i rest →
    step s = exec i s ∧ ∀ t, step s = .next t → t.pc = s.pc + BitVec.ofNat 64 (instrLength i)

/-- 92_eei_decisions.md D1, 20_memory.md R54: in 64-bit mode with flat translation, the bytes of an instruction in memory at
`pc` run as that instruction. -/
def Obligations.EncodedBytesInMemoryRun : Prop :=
  ∀ (s : State) (i : Instr), s.programEnd ≠ some s.pc → s.mode = .long64 → s.paging = none → s.regions = [] →
    s.pc.toNat + longestInstr ≤ 2 ^ 47 → i.wf .long64 = true →
    (∀ j (h : j < (encode i).length), memByte s.mem (s.pc.toNat + j) = (encode i)[j]) →
    step s = exec i s

/-- The invariant is kept by every step: memory stays in canonical form, `pc` within its width, no bit is set that the
machine does not have (10_state.md R20, R21, R23, R27). -/
def Obligations.StepKeepsInvariant : Prop :=
  ∀ s t : State, s.Inv → step s = .next t → t.Inv

/-- The state after reset meets the invariant. -/
def Obligations.ResetMeetsInvariant : Prop := State.reset.Inv

/-- 70_reset_and_hazards.md R171: the values after reset, that no form executes there, and what INIT keeps; that INIT resets
CR0, CR4 and `pc` is the model's reading (log 33). -/
def Obligations.ResetLeavesEveryFormDisabled : Prop :=
  (∀ n, State.reset.getV n = zeroZmm) ∧ (∀ n, State.reset.getK n = 0#64) ∧ State.reset.mxcsr = 0x1F80#32 ∧
    State.reset.cr0 = 0x60000010#64 ∧ State.reset.cr4 = 0#64 ∧ State.reset.xcr0 = 1#64 ∧ State.reset.rflags = 2#64 ∧
    State.reset.efer = 0#64 ∧ State.reset.cpl = 0#2 ∧ State.reset.mode = .real ∧
    State.reset.cs.selector = 0xF000#16 ∧ State.reset.cs.base = 0xFFFF0000#64 ∧ State.reset.pc = 0xFFF0#64 ∧
    fetchLocation State.reset 0 = some 0xFFFFFFF0 ∧ (∀ n, n ≠ 2#4 → State.reset.getX n = 0#64) ∧
    (∀ i, instrLength i ≤ 15 → exec i State.reset = .fault (.ud State.reset)) ∧
    ∀ s, (warmReset s).v = s.v ∧ (warmReset s).mxcsr = s.mxcsr ∧ (warmReset s).xcr0 = s.xcr0 ∧
      (warmReset s).cr0 = State.reset.cr0 ∧ (warmReset s).cr4 = State.reset.cr4 ∧ (warmReset s).pc = State.reset.pc

/-- 92_eei_decisions.md D23, D17 and 10_state.md R27: a run ends just past the program text, which the model answers with a
refusal by its own choice (log 28); an instruction whose successor lies outside the address space or code segment is refused,
by the model's choice once `#UD` and `#NM` are excluded (log 20). -/
def Obligations.RunEndsAndSuccessorRefused : Prop :=
  (∀ s : State, s.programEnd = some s.pc → step s = .refused .programEnded) ∧
    ∀ (s : State) (i : Instr), instrLength i ≤ 15 → NoUd s i → s.cr0.getLsbD 3 = false →
      ¬ SuccessorInside s (instrLength i) → exec i s = .refused .successorOutside

/-! ## The shuffle -/

/-- 40_pshufd_sse.md R100, 30_encoding.md R74: result doubleword t is the source shifted right by 32 times field t and
truncated, that is the source doubleword the field names. -/
def Obligations.Shuffle128SelectsByField : Prop :=
  ∀ (a : Lane) (order : Byte) (t : Nat), t < 4 →
    laneDword (shuffle128 a order) t = (a >>> (order.toNat / 4 ^ t % 4 * 32)).setWidth 32 ∧
    laneDword (shuffle128 a order) t = laneDword a (order.toNat / 4 ^ t % 4)

/-- 40_pshufd_sse.md R101: the same order byte in every lane below VL, and the element form. -/
def Obligations.ShuffleLanesWorksPerLane : Prop :=
  ∀ (vl : VL) (z : Zmm) (order : Byte),
    (∀ l, l < vlLanes vl → laneOf (shuffleLanes vl z order) l = shuffle128 (laneOf z l) order) ∧
    (∀ l, vlLanes vl ≤ l → laneOf (shuffleLanes vl z order) l = 0#128) ∧
    ∀ j, j < kl vl →
      dwordOf (shuffleLanes vl z order) j = dwordOf z (4 * (j / 4) + order.toNat / 4 ^ (j % 4) % 4)

/-- 40_pshufd_sse.md R103 (a) to (d), (f). -/
def Obligations.ShuffleIdentityReverseReplicate : Prop :=
  ∀ a : Lane, shuffle128 a 0xE4#8 = a ∧ shuffle128 (shuffle128 a 0x1B#8) 0x1B#8 = a ∧
    (∀ t, t < 4 → laneDword (shuffle128 a 0x1B#8) t = laneDword a (3 - t) ∧
      laneDword (shuffle128 a 0x00#8) t = laneDword a 0 ∧ laneDword (shuffle128 a 0x55#8) t = laneDword a 1 ∧
      laneDword (shuffle128 a 0xAA#8) t = laneDword a 2 ∧ laneDword (shuffle128 a 0xFF#8) t = laneDword a 3 ∧
      laneDword (shuffle128 a 0x4E#8) t = laneDword a ((t + 2) % 4) ∧
      laneDword (shuffle128 a 0xB1#8) t = laneDword a (if t % 2 = 0 then t + 1 else t - 1) ∧
      laneDword (shuffle128 a 0x39#8) t = laneDword a ((t + 1) % 4) ∧
      laneDword (shuffle128 a 0x93#8) t = laneDword a ((t + 3) % 4)) ∧
    ((∀ t, t < 4 → laneDword a t = laneDword a 0) → ∀ order, shuffle128 a order = a)

/-- 40_pshufd_sse.md R103 (g): composition. -/
def Obligations.ShuffleComposes : Prop :=
  ∀ (a : Lane) (p q c : Byte),
    (∀ t, t < 4 → orderField c t = orderField p (orderField q t)) →
    shuffle128 (shuffle128 a p) q = shuffle128 a c

/-- 40_pshufd_sse.md R103 (e): the result is a permutation of the lane exactly when the fields are pairwise different. -/
def Obligations.ShufflePermutesIffFieldsDiffer : Prop :=
  ∀ order : Byte,
    (∀ a : Lane, ∃ f : Fin 4 → Fin 4, Function.Bijective f ∧
        ∀ t : Fin 4, laneDword (shuffle128 a order) t = laneDword a (f t)) ↔
      ∀ t u : Nat, t < 4 → u < 4 → t ≠ u → orderField order t ≠ orderField order u

/-- 20_memory.md R42: doubleword element j of a memory operand is its bytes 4j to 4j+3, least significant first. -/
def Obligations.MemoryOperandIsLittleEndian : Prop :=
  ∀ (bs : List Byte) (j : Nat), 4 * j + 3 < bs.length → j < 16 →
    dwordOf (zmmOfBytes bs) j =
      bs.getD (4 * j + 3) 0#8 ++ bs.getD (4 * j + 2) 0#8 ++ bs.getD (4 * j + 1) 0#8 ++ bs.getD (4 * j) 0#8

/-! ## Completion: result and frame -/

/-- 40_pshufd_sse.md R102, register source: bits 127:0 shuffled, the bits above kept, nothing else changed. -/
def Obligations.PshufdRegisterResult : Prop :=
  ∀ (s : State) (p : Prefixes) (b : Body) (n : BitVec 5), sourceNumber (.pshufd p b) = some n →
    Runnable s (.pshufd p b) → s.Inv →
    ∃ t, exec (.pshufd p b) s = .next t ∧
      t.getV (legacyDest p b) =
        { s.getV (legacyDest p b) with lane0 := shuffle128 (s.getV n).lane0 b.order } ∧
      t.pc = s.pc + BitVec.ofNat 64 (instrLength (.pshufd p b)) ∧ t.reads = s.reads ∧
      FrameExcept s t (legacyDest p b)

/-- 40_pshufd_sse.md R102, 20_memory.md R42, R43: an aligned 16-byte operand of ordinary memory. -/
def Obligations.PshufdMemoryResult : Prop :=
  ∀ (s : State) (p : Prefixes) (b : Body) (seg : SegReg) (ea : Quad) (n : Nat) (locs : List Nat),
    memOperand s (.pshufd p b) = some (seg, ea, n) → Runnable s (.pshufd p b) → s.Inv → Readable s seg ea n locs →
    (testedAddress s seg ea).toNat % 16 = 0 →
    ∃ t, exec (.pshufd p b) s = .next t ∧
      t.getV (legacyDest p b) =
        { s.getV (legacyDest p b) with
          lane0 := shuffle128 (laneOfBytes (locs.map (memByte s.mem))) b.order } ∧
      t.pc = s.pc + BitVec.ofNat 64 (instrLength (.pshufd p b)) ∧ FrameExcept s t (legacyDest p b)

/-- 41_vpshufd_vex.md R110, R111, register source: bits VL-1:0 shuffled per lane, the bits above zeroed. -/
def Obligations.VexRegisterResult : Prop :=
  ∀ (s : State) (i : Instr) (n : BitVec 5), isVex i = true → sourceNumber i = some n → Runnable s i → s.Inv →
    ∃ t, exec i s = .next t ∧
      t.getV (destNumber i) = shuffleLanes (lengthOf i) (s.getV n) (bodyOf i).order ∧
      t.pc = s.pc + BitVec.ofNat 64 (instrLength i) ∧ t.reads = s.reads ∧ FrameExcept s t (destNumber i)

/-- 41_vpshufd_vex.md R110, R111, 20_memory.md R44: an operand of ordinary memory at any address. -/
def Obligations.VexMemoryResult : Prop :=
  ∀ (s : State) (i : Instr) (seg : SegReg) (ea : Quad) (n : Nat) (locs : List Nat), isVex i = true →
    memOperand s i = some (seg, ea, n) → Runnable s i → s.Inv → Readable s seg ea n locs → ¬ AcPossible s seg ea n →
    ∃ t, exec i s = .next t ∧
      t.getV (destNumber i) =
        shuffleLanes (lengthOf i) (zmmOfBytes (locs.map (memByte s.mem))) (bodyOf i).order ∧
      t.pc = s.pc + BitVec.ofNat 64 (instrLength i) ∧ FrameExcept s t (destNumber i)

/-- 42_vpshufd_evex.md R121, R122 to R124, register source: each doubleword under its mask bit, zero above VL. -/
def Obligations.EvexRegisterResult : Prop :=
  ∀ (s : State) (i : Instr) (e : Evex) (n : BitVec 5), evexOf i = some e → sourceNumber i = some n → Runnable s i →
    s.Inv →
    ∃ t, exec i s = .next t ∧
      (∀ j, j < 16 → dwordOf (t.getV (destNumber i)) j =
        if j < kl (lengthOf i) then
          if e.aaa = 0#3 ∨ (s.getK e.aaa).getLsbD j = true then
            dwordOf (shuffleLanes (lengthOf i) (s.getV n) (bodyOf i).order) j
          else if e.z = true then 0#32 else dwordOf (s.getV (destNumber i)) j
        else 0#32) ∧
      t.pc = s.pc + BitVec.ofNat 64 (instrLength i) ∧ t.reads = s.reads ∧ FrameExcept s t (destNumber i)

/-- 42_vpshufd_evex.md R120, R121, 20_memory.md R44, R56: a full-vector operand of ordinary memory. -/
def Obligations.EvexFullMemoryResult : Prop :=
  ∀ (s : State) (i : Instr) (e : Evex) (seg : SegReg) (ea : Quad) (n : Nat) (locs : List Nat), evexOf i = some e →
    e.bcast = false → isDisp8Addr16 (bodyOf i).rm = false → memOperand s i = some (seg, ea, n) → Runnable s i → s.Inv →
    Readable s seg ea n locs → ¬ AcPossible s seg ea n →
    ∃ t, exec i s = .next t ∧
      (∀ j, j < 16 → dwordOf (t.getV (destNumber i)) j =
        if j < kl (lengthOf i) then
          if e.aaa = 0#3 ∨ (s.getK e.aaa).getLsbD j = true then
            dwordOf (shuffleLanes (lengthOf i) (zmmOfBytes (locs.map (memByte s.mem))) (bodyOf i).order) j
          else if e.z = true then 0#32 else dwordOf (s.getV (destNumber i)) j
        else 0#32) ∧
      t.pc = s.pc + BitVec.ofNat 64 (instrLength i) ∧ FrameExcept s t (destNumber i)

/-- 42_vpshufd_evex.md R120, R121, 40_pshufd_sse.md R103 (f): the four bytes of a broadcast operand in every doubleword the
mask lets through, whatever the order byte. -/
def Obligations.EvexBroadcastResult : Prop :=
  ∀ (s : State) (i : Instr) (e : Evex) (seg : SegReg) (ea : Quad) (n : Nat) (locs : List Nat), evexOf i = some e →
    e.bcast = true → isDisp8Addr16 (bodyOf i).rm = false → memOperand s i = some (seg, ea, n) → Runnable s i → s.Inv →
    Readable s seg ea n locs → ¬ AcPossible s seg ea n →
    n = 4 ∧ ∃ t, exec i s = .next t ∧
      (∀ j, j < 16 → dwordOf (t.getV (destNumber i)) j =
        if j < kl (lengthOf i) then
          if e.aaa = 0#3 ∨ (s.getK e.aaa).getLsbD j = true then
            dwordOf (zmmOfBytes (locs.map (memByte s.mem))) 0
          else if e.z = true then 0#32 else dwordOf (s.getV (destNumber i)) j
        else 0#32) ∧
      t.pc = s.pc + BitVec.ofNat 64 (instrLength i) ∧ FrameExcept s t (destNumber i)

/-- 10_state.md R32: whatever form completes, only the destination and `pc` change. -/
def Obligations.OnlyDestinationAndPcChange : Prop :=
  ∀ (s t : State) (i : Instr), exec i s = .next t →
    FrameExcept s t (destNumber i) ∧ t.pc = s.pc + BitVec.ofNat 64 (instrLength i) ∧ t.k = s.k ∧ t.x = s.x ∧
      t.rflags = s.rflags ∧ t.mxcsr = s.mxcsr ∧ t.mem = s.mem ∧ t.cr0 = s.cr0 ∧ t.cr2 = s.cr2 ∧ t.cr4 = s.cr4 ∧
      t.xcr0 = s.xcr0 ∧ t.st = s.st ∧ t.cs = s.cs ∧ t.ss = s.ss

/-- 20_memory.md R41, R46, R52: a memory operand is read once, as many bytes as the form's size says, each answered by the
memory oracle; a register source reads none. -/
def Obligations.OperandReadOnceWhole : Prop :=
  ∀ (s t : State) (i : Instr), exec i s = .next t →
    (∀ n, sourceNumber i = some n → t.reads = s.reads) ∧
    ∀ seg ea n, memOperand s i = some (seg, ea, n) →
      n = (if (evexOf i).any Evex.bcast then 4 else vlBytes (lengthOf i)) ∧
      ∃ locs es, translateRead s seg ea n = .ok locs ∧ locs.length = n ∧ es.length = n ∧ t.reads = es ++ s.reads ∧
        ∀ j (h : j < es.length) (h' : j < locs.length),
          es[j].location = locs[j] ∧ es[j].byte = oracleByte s j locs[j]

/-! ## Masks, prefixes, equivalences -/

/-- 42_vpshufd_evex.md R122 (a), (b), R124 (b): an empty mask. Merging keeps bits VL-1:0, zeroing clears them; the bits above
VL are zeroed either way; merging with VL = 512 leaves the whole register. -/
def Obligations.EmptyMaskResult : Prop :=
  ∀ (s t : State) (i : Instr) (e : Evex), evexOf i = some e → e.aaa ≠ 0#3 →
    (∀ j, j < kl (lengthOf i) → (s.getK e.aaa).getLsbD j = false) → s.Inv → exec i s = .next t →
    (e.z = false → t.getV (destNumber i) = lowLanes (vlLanes (lengthOf i)) (s.getV (destNumber i))) ∧
    (e.z = true → t.getV (destNumber i) = zeroZmm) ∧
    (e.z = false → lengthOf i = .v512 → t.getV (destNumber i) = s.getV (destNumber i))

/-- 10_state.md R23: bits KL and above of the opmask register, and the other opmask registers, have no effect. -/
def Obligations.UnreadMaskBitsHaveNoEffect : Prop :=
  ∀ (s t : State) (i : Instr) (e : Evex) (k' : Vector Quad 8), evexOf i = some e → exec i s = .next t →
    (e.aaa ≠ 0#3 → ∀ j, j < kl (lengthOf i) →
      (({ s with k := k' } : State).getK e.aaa).getLsbD j = (s.getK e.aaa).getLsbD j) →
    exec i { s with k := k' } = .next { t with k := k' }

/-- 20_memory.md R56: no fault suppression. What is read and which exception is raised do not depend on any mask. -/
def Obligations.NoFaultSuppression : Prop :=
  ∀ (s : State) (i : Instr) (k' : Vector Quad 8),
    (∀ t, exec i s = .next t → ∃ t', exec i { s with k := k' } = .next t' ∧ t'.reads = t.reads) ∧
    ∀ x, exec i s = raise x s → exec i { s with k := k' } = raise x { s with k := k' }

/-- 42_vpshufd_evex.md R122 (c): without a writemask an EVEX form writes what the VEX form of the same operands writes, register
or full-vector memory. -/
def Obligations.EvexWithoutMaskEqualsVex : Prop :=
  ∀ (s t u : State) (i j : Instr) (e : Evex), evexOf i = some e → e.aaa = 0#3 → isVex j = true →
    lengthOf i = lengthOf j → (bodyOf i).order = (bodyOf j).order → destNumber i = destNumber j →
    ((∃ n, sourceNumber i = some n ∧ sourceNumber j = some n) ∨
      (e.bcast = false ∧ ∃ o, memOperand s i = some o ∧ memOperand s j = some o)) →
    exec i s = .next t → exec j s = .next u →
    t.getV (destNumber i) = u.getV (destNumber i)

/-- 30_encoding.md R69, R86: the two VEX prefixes and both values of W give the same result, but for the length, from a
register and from any operand whose address does not count from the next instruction. -/
def Obligations.VexPrefixesEquivalent : Prop :=
  ∀ (s t u : State) (p : Prefixes) (e : Vex2) (w : Bool) (b : Body), (s.mode = .long64 → ∀ d, b.rm ≠ .disp32 d) →
    let e3 : Vex3 := { r := e.r, x := false, b := false, w := w, vvvv := e.vvvv }
    (exec (.vpshufdVex128C5 p e b) s = .next t → exec (.vpshufdVex128C4 p e3 b) s = .next u →
      u = { t with pc := t.pc + 1#64 }) ∧
    (exec (.vpshufdVex256C5 p e b) s = .next t → exec (.vpshufdVex256C4 p e3 b) s = .next u →
      u = { t with pc := t.pc + 1#64 })

/-- 40_pshufd_sse.md R102, 41_vpshufd_vex.md R110 (c): bits of a register source above VL are not read. -/
def Obligations.SourceBitsAboveVlUnread : Prop :=
  ∀ (s t : State) (i : Instr) (n : BitVec 5) (z : Zmm), sourceNumber i = some n → n ≠ destNumber i →
    exec i s = .next t →
    lowLanes (vlLanes (lengthOf i)) (lowLanes (maxLanes s.feat) z) = lowLanes (vlLanes (lengthOf i)) (s.getV n) →
    ∃ u, exec i (s.setV n z) = .next u ∧ u.getV (destNumber i) = t.getV (destNumber i)

/-- 10_state.md R24, R25: MXCSR and the x87/MMX registers are neither read nor written. -/
def Obligations.MxcsrAndX87HaveNoEffect : Prop :=
  ∀ (s : State) (i : Instr) (m : BitVec 32) (r : Vector (BitVec 80) 8) (sw tw : BitVec 16),
    (∀ t, exec i s = .next t →
      t.mxcsr = s.mxcsr ∧ t.st = s.st ∧ t.fsw = s.fsw ∧ t.ftw = s.ftw ∧
      exec i { s with mxcsr := m, st := r, fsw := sw, ftw := tw } =
        .next { t with mxcsr := m, st := r, fsw := sw, ftw := tw }) ∧
    ∀ x, exec i s = raise x s →
      exec i { s with mxcsr := m, st := r, fsw := sw, ftw := tw } =
        raise x { s with mxcsr := m, st := r, fsw := sw, ftw := tw }

/-- 60_exceptions.md R156: no form is privileged. CPL enters through the page walk and alignment checking only: where these
two answer the same, an instruction does the same at every privilege level. -/
def Obligations.PrivilegeHasNoEffect : Prop :=
  ∀ (s t : State) (i : Instr) (c : BitVec 2),
    ((∃ n, sourceNumber i = some n) ∨
      ((∀ la, walk { s with cpl := c } la = walk s la) ∧
        ({ s with cpl := c } : State).alignCheck = s.alignCheck)) →
    exec i s = .next t → exec i { s with cpl := c } = .next { t with cpl := c }

/-- 10_state.md R28: the flags register is unchanged whether the instruction completes or faults, and of its bits only VM
and AC have an effect. -/
def Obligations.FlagsUntouched : Prop :=
  ∀ (s : State) (i : Instr),
    (∀ t, exec i s = .next t → t.rflags = s.rflags ∧
      ∀ r : Quad, r.getLsbD 17 = s.rflags.getLsbD 17 → r.getLsbD 18 = s.rflags.getLsbD 18 →
        exec i { s with rflags := r } = .next { t with rflags := r }) ∧
    ∀ f, exec i s = .fault f → (leftState f).rflags = s.rflags

/-! ## Exceptions -/

/-- 60_exceptions.md R141: the `#UD` conditions of the legacy form. -/
def Obligations.LegacyUdConditions : Prop :=
  ∀ (s : State) (p : Prefixes) (b : Body), instrLength (.pshufd p b) ≤ 15 →
    (exec (.pshufd p b) s = .fault (.ud s) ↔
      p.lock = true ∨ s.cr0.getLsbD 2 = true ∨ s.cr4.getLsbD 9 = false ∨ s.machine.feat.sse2 = false)

/-- 60_exceptions.md R142: the `#UD` conditions of the VEX forms. -/
def Obligations.VexUdConditions : Prop :=
  ∀ (s : State) (i : Instr), isVex i = true → instrLength i ≤ 15 →
    (exec i s = .fault (.ud s) ↔
      s.mode = .real ∨ s.mode = .v86 ∨
      (prefixesOf i).opsize66 = true ∨ (prefixesOf i).repne = true ∨ (prefixesOf i).rep = true ∨
      (prefixesOf i).lock = true ∨ (prefixesOf i).rex ≠ none ∨
      s.cr4.getLsbD 18 = false ∨ s.xcr0.getLsbD 1 = false ∨ s.xcr0.getLsbD 2 = false ∨
      (lengthOf i = .v128 ∧ s.machine.feat.avx = false) ∨ (lengthOf i = .v256 ∧ s.machine.feat.avx2 = false) ∨
      vvvvOf i ≠ some 15#4)

/-- 60_exceptions.md R143: the `#UD` conditions of the EVEX forms that match a table row. -/
def Obligations.EvexUdConditions : Prop :=
  ∀ (s : State) (i : Instr) (e : Evex), evexOf i = some e → instrLength i ≤ 15 →
    (exec i s = .fault (.ud s) ↔
      s.mode = .real ∨ s.mode = .v86 ∨
      (prefixesOf i).opsize66 = true ∨ (prefixesOf i).repne = true ∨ (prefixesOf i).rep = true ∨
      (prefixesOf i).lock = true ∨ (prefixesOf i).rex ≠ none ∨
      s.cr4.getLsbD 18 = false ∨ s.xcr0.getLsbD 1 = false ∨ s.xcr0.getLsbD 2 = false ∨
      s.xcr0.getLsbD 5 = false ∨ s.xcr0.getLsbD 6 = false ∨ s.xcr0.getLsbD 7 = false ∨
      s.machine.feat.avx512f = false ∨ (lengthOf i ≠ .v512 ∧ s.machine.feat.avx512vl = false) ∨
      e.vvvv ≠ 15#4 ∨ e.vHigh = false ∨ (e.z = true ∧ e.aaa = 0#3) ∨
      (e.bcast = true ∧ ∃ r, (bodyOf i).rm = .reg r))

/-- 30_encoding.md R85: a stored vvvv other than 1111b raises `#UD`, whatever the operands and the mode. -/
def Obligations.VvvvOtherThanOnesRaisesUd : Prop :=
  ∀ (s : State) (i : Instr) (v : BitVec 4), vvvvOf i = some v → v ≠ 15#4 → instrLength i ≤ 15 →
    exec i s = .fault (.ud s)

/-- 60_exceptions.md R144: `#NM` under CR0.TS once no `#UD` condition holds, before any operand is read, with no error code. -/
def Obligations.NmUnderTaskSwitched : Prop :=
  ∀ (s : State) (i : Instr), instrLength i ≤ 15 → NoUd s i → s.cr0.getLsbD 3 = true →
    exec i s = .fault (.nm s) ∧ errorCode (.nm s) = none

/-- 60_exceptions.md R151 step 1, R146 (e): an over-long instruction raises `#GP(0)` before anything else (log 23). -/
def Obligations.OverlongRaisesGp : Prop :=
  (∀ (s : State) (i : Instr), 15 < instrLength i → exec i s = .fault (.gp s)) ∧
    ∀ (s : State) (len : Nat), s.programEnd ≠ some s.pc → decode s.mode (window s) = .reserved len → 15 < len →
      step s = .fault (.gp s)

/-- 60_exceptions.md R152, 10_state.md R32: every exception is precise. All of the state is as before the step. -/
def Obligations.FaultsArePrecise : Prop :=
  ∀ (s : State) (f : Fault), step s = .fault f → leftState f = s

/-- 60_exceptions.md R140, R150: each exception with its vector, its error code, the linear address CR2 records, and the
faulting instruction's address as the saved instruction pointer. CR2 stands in the record, beside the unchanged state (log 2). -/
def Obligations.ExceptionRecord : Prop :=
  ∀ (s : State) (f : Fault), step s = .fault f →
    savedPc f = s.pc ∧
      ((f = .ud s ∧ vectorNumber f = 6 ∧ errorCode f = none ∧ recordedCr2 f = s.cr2) ∨
        (f = .nm s ∧ vectorNumber f = 7 ∧ errorCode f = none ∧ recordedCr2 f = s.cr2) ∨
        (f = .ss s ∧ vectorNumber f = 12 ∧ errorCode f = some 0#32 ∧ recordedCr2 f = s.cr2) ∨
        (f = .gp s ∧ vectorNumber f = 13 ∧ errorCode f = some 0#32 ∧ recordedCr2 f = s.cr2) ∨
        (∃ code la, f = .pf code la s ∧ vectorNumber f = 14 ∧ errorCode f = some code ∧ recordedCr2 f = la) ∨
        (f = .ac s ∧ vectorNumber f = 17 ∧ errorCode f = some 0#32 ∧ recordedCr2 f = s.cr2))

/-- 60_exceptions.md R140: with a register source only `#UD`, `#NM` and the length `#GP(0)` are possible. -/
def Obligations.RegisterSourceFaults : Prop :=
  ∀ (s : State) (i : Instr) (n : BitVec 5) (f : Fault), sourceNumber i = some n → exec i s = .fault f →
    f = .ud s ∨ f = .nm s ∨ (f = .gp s ∧ 15 < instrLength i)

/-- 20_memory.md R43: a misaligned operand of the legacy form raises `#GP(0)`, also before a page fault (90_conflicts.md
C10), unless the operand is illegal in SS (R50). -/
def Obligations.LegacyMisalignedRaisesGp : Prop :=
  ∀ (s : State) (p : Prefixes) (b : Body) (seg : SegReg) (ea : Quad) (n : Nat),
    memOperand s (.pshufd p b) = some (seg, ea, n) → Runnable s (.pshufd p b) →
    (testedAddress s seg ea).toNat % 16 ≠ 0 → translateRead s seg ea n ≠ .fault .ss →
    exec (.pshufd p b) s = .fault (.gp s)

/-- 20_memory.md R50, 93_implementation_defined.md U14: a misaligned legacy operand that is illegal in SS raises either
exception, whichever the free choice (log 17). -/
def Obligations.MisalignedAndIllegalInSsRaisesEither : Prop :=
  ∀ (s : State) (p : Prefixes) (b : Body) (seg : SegReg) (ea : Quad) (n : Nat),
    memOperand s (.pshufd p b) = some (seg, ea, n) → Runnable s (.pshufd p b) →
    (testedAddress s seg ea).toNat % 16 ≠ 0 → translateRead s seg ea n = .fault .ss →
    exec (.pshufd p b) s = .fault (.ss s) ∨ exec (.pshufd p b) s = .fault (.gp s)

/-- 20_memory.md R50, 60_exceptions.md R145 to R147: the translation's fault is the instruction's, in every form, where the
legacy form's operand is aligned. -/
def Obligations.TranslationFaultIsRaised : Prop :=
  ∀ (s : State) (i : Instr) (seg : SegReg) (ea : Quad) (n : Nat) (x : Exc),
    memOperand s i = some (seg, ea, n) → Runnable s i →
    (vvvvOf i = none → (testedAddress s seg ea).toNat % 16 = 0) →
    (evexOf i ≠ none → isDisp8Addr16 (bodyOf i).rm = false) → translateRead s seg ea n = .fault x →
    (x = .ss ∧ exec i s = .fault (.ss s)) ∨ (x = .gp ∧ exec i s = .fault (.gp s)) ∨
      ∃ code la, x = .pf code la ∧ exec i s = .fault (.pf code la s)

/-- 20_memory.md R51: a non-canonical byte of an operand in long64 is `#SS(0)` through SS and `#GP(0)` otherwise. -/
def Obligations.NonCanonicalOperandFaults : Prop :=
  ∀ (s : State) (seg : SegReg) (ea : Quad) (n j : Nat), s.mode = .long64 → j < n →
    canonical s.machine.linearWidth (linearAddr s seg (ea.toNat + j)) = false →
    translateRead s seg ea n = .fault (if seg = .ss then .ss else .gp)

/-- 20_memory.md R51: in prot32 and prot16 a byte beyond the limit of an ordinary segment is `#SS(0)` through SS and
`#GP(0)` otherwise; so are a null and an unreadable segment `#GP(0)`. -/
def Obligations.SegmentLimitFaults : Prop :=
  ∀ (s : State) (seg : SegReg) (ea : Quad) (n : Nat), s.mode = .prot32 ∨ s.mode = .prot16 →
    (∀ j, j < n → (segOf s seg).expandDown = false → s.machine.wrapsAtTop = false →
      (segOf s seg).limit.toNat < ea.toNat + j →
      translateRead s seg ea n = .fault (if seg = .ss then .ss else .gp)) ∧
    (seg ≠ .ss → (segOf s seg).usable = false ∨ (segOf s seg).readable = false →
      translateRead s seg ea n = .fault .gp)

/-- 20_memory.md R51, 60_exceptions.md R146 (c): in real and v86 any byte of the operand beyond offset FFFFH is `#GP(0)`. -/
def Obligations.SixteenBitOffsetLimit : Prop :=
  ∀ (s : State) (seg : SegReg) (ea : Quad) (n : Nat), s.mode = .real ∨ s.mode = .v86 → 0x10000 < ea.toNat + n →
    translateRead s seg ea n = .fault .gp

/-- 60_exceptions.md R147: where no segment fault holds and the walk denies some byte of the operand, the answer is the page
fault of one such byte, with a data-read code. -/
def Obligations.PageFaultRecord : Prop :=
  ∀ (s : State) (seg : SegReg) (ea : Quad) (n j : Nat) (p r k : Bool), segFault s seg ea n = none → j < n →
    walk s (byteLinear s seg ea j) = .denied p r k →
    ∃ j' p' r' k' code, j' < n ∧ walk s (byteLinear s seg ea j') = .denied p' r' k' ∧
      translateRead s seg ea n = .fault (.pf code (byteLinear s seg ea j')) ∧
      code.getLsbD 0 = p' ∧ code.getLsbD 1 = false ∧ code.getLsbD 2 = decide (s.cpl = 3#2) ∧ code.getLsbD 3 = r' ∧
      code.getLsbD 4 = false ∧ code.getLsbD 5 = k' ∧ ∀ b, 6 ≤ b → code.getLsbD b = false

/-- 60_exceptions.md R148, 20_memory.md R45: no `#AC(0)` from the legacy form nor where its conditions do not hold; where they
do, the step raises it or proceeds to the form's own result, both admitted (log 18). -/
def Obligations.AlignmentCheckConditions : Prop :=
  (∀ (s : State) (i : Instr),
    (vvvvOf i = none ∨ ∀ seg ea n, memOperand s i = some (seg, ea, n) → ¬ AcPossible s seg ea n) →
    ∀ u, exec i s ≠ .fault (.ac u)) ∧
  ∀ (s : State) (i : Instr) (seg : SegReg) (ea : Quad) (n : Nat) (locs : List Nat), vvvvOf i ≠ none →
    (evexOf i ≠ none → isDisp8Addr16 (bodyOf i).rm = false) → memOperand s i = some (seg, ea, n) → Runnable s i →
    s.Inv → Readable s seg ea n locs → AcPossible s seg ea n →
    exec i s = .fault (.ac s) ∨
    ∃ t, exec i s = .next t ∧ t.pc = s.pc + BitVec.ofNat 64 (instrLength i) ∧ FrameExcept s t (destNumber i) ∧
      (evexOf i = none → t.getV (destNumber i) =
        shuffleLanes (lengthOf i) (zmmOfBytes (locs.map (memByte s.mem))) (bodyOf i).order) ∧
      ∀ e, evexOf i = some e → ∀ j, j < 16 → dwordOf (t.getV (destNumber i)) j =
        if j < kl (lengthOf i) then
          if e.aaa = 0#3 ∨ (s.getK e.aaa).getLsbD j = true then
            if e.bcast = true then dwordOf (zmmOfBytes (locs.map (memByte s.mem))) 0
            else dwordOf (shuffleLanes (lengthOf i) (zmmOfBytes (locs.map (memByte s.mem))) (bodyOf i).order) j
          else if e.z = true then 0#32 else dwordOf (s.getV (destNumber i)) j
        else 0#32

/-- 20_memory.md R47, 30_encoding.md R67: the two stops of a memory operand. A device is refused once it is translated and
aligned; so is an EVEX disp8 with 16-bit addresses. -/
def Obligations.OperandRefusals : Prop :=
  (∀ (s : State) (i : Instr) (seg : SegReg) (ea : Quad) (n : Nat) (locs : List Nat),
    memOperand s i = some (seg, ea, n) → Runnable s i →
    (vvvvOf i = none → (testedAddress s seg ea).toNat % 16 = 0) →
    (evexOf i ≠ none → isDisp8Addr16 (bodyOf i).rm = false) →
    translateRead s seg ea n = .ok locs → (∃ l ∈ locs, regionAt s l = some .device) → ¬ AcPossible s seg ea n →
    exec i s = .refused .deviceOperand) ∧
  ∀ (s : State) (i : Instr) (e : Evex), evexOf i = some e → isDisp8Addr16 (bodyOf i).rm = true → Runnable s i →
    exec i s = .refused .evexDisp8Addr16

/-! ## Addresses -/

/-- 20_memory.md R57, R58, 30_encoding.md R66: `mod = 00b, rm = 101b` counts from the next instruction in long64, where a
32-bit address size truncates the sum, and is absolute elsewhere; its default segment is DS. -/
def Obligations.RipRelativeAddress : Prop :=
  ∀ (s : State) (i : Instr) (d : BitVec 32), (bodyOf i).rm = .disp32 d →
    memOperand s i = some (segmentRule s.mode (prefixesOf i) .ds,
      truncated (addressSize s.mode (prefixesOf i).addr67)
        ((if s.mode = .long64 then s.pc + BitVec.ofNat 64 (instrLength i) else 0#64) + d.signExtend 64),
      operandBytes i)

/-- 20_memory.md R57, R58, 30_encoding.md R65, R66, R71: SIB, in every mode and address size: the base register or none,
the scaled index or none, and the displacement or none; without a base the default segment is DS. -/
def Obligations.ScaledIndexAddress : Prop :=
  ∀ (s : State) (i : Instr) (sc : BitVec 2) (ix : BitVec 3),
    (∀ (ba : BitVec 3) (d : Disp), (bodyOf i).rm = .sib sc ix ba d →
      memOperand s i = some (segmentRule s.mode (prefixesOf i) (baseSegment (reg4 (extOf i).b ba)),
        truncated (addressSize s.mode (prefixesOf i).addr67)
          (s.getX (reg4 (extOf i).b ba) + scaledIndex s i sc ix + displacement i d),
        operandBytes i)) ∧
    ∀ d : BitVec 32, (bodyOf i).rm = .sibNoBase sc ix d →
      memOperand s i = some (segmentRule s.mode (prefixesOf i) .ds,
        truncated (addressSize s.mode (prefixesOf i).addr67) (scaledIndex s i sc ix + d.signExtend 64),
        operandBytes i)

/-- 20_memory.md R57, R58, 30_encoding.md R66, R71, R75: a base register without SIB, in every mode and address size, with no
displacement, a disp32, or a disp8 that counts N bytes: N = 1 in the legacy and VEX forms, in the EVEX forms VL/8 or, with
broadcast, 4. -/
def Obligations.Disp8Scaling : Prop :=
  ∀ (s : State) (i : Instr) (rm : BitVec 3) (d : Disp), (bodyOf i).rm = .indirect rm d →
    memOperand s i = some (segmentRule s.mode (prefixesOf i) (baseSegment (reg4 (extOf i).b rm)),
      truncated (addressSize s.mode (prefixesOf i).addr67)
        (s.getX (reg4 (extOf i).b rm) +
          match d with
          | .absent => 0#64
          | .disp32 d => d.signExtend 64
          | .disp8 d =>
            d.signExtend 64 *
              BitVec.ofNat 64
                (match evexOf i with
                | none => 1
                | some e => if e.bcast then 4 else vlBytes (lengthOf i))),
      operandBytes i)

/-- 30_encoding.md R67, 20_memory.md R57, R58: the 16-bit forms: the registers summed, the displacement, the sum modulo 2^16
and the default segment; of the EVEX forms with a disp8 the spec gives none (D4). -/
def Obligations.SixteenBitAddress : Prop :=
  ∀ (s : State) (i : Instr), addressSize s.mode (prefixesOf i).addr67 = .a16 →
    (evexOf i ≠ none → isDisp8Addr16 (bodyOf i).rm = false) →
    (∀ (rm : BitVec 3) (d : Disp16), (bodyOf i).rm = .indirect16 rm d →
      memOperand s i = some (segmentRule s.mode (prefixesOf i) (defaultSegment16 rm),
        ((registerSum16 s rm + displacement16 d).setWidth 16).setWidth 64, operandBytes i)) ∧
    ∀ d : BitVec 16, (bodyOf i).rm = .disp16 d →
      memOperand s i = some (segmentRule s.mode (prefixesOf i) .ds, d.setWidth 64, operandBytes i)

/-- 20_memory.md R58: the default segment and the overrides. -/
def Obligations.OperandSegmentRule : Prop :=
  ∀ (m : Mode) (p : Prefixes) (ad : Addressing),
    (p.seg = none → (operandSeg m p ad = .ss ↔ ad.base = some 4#4 ∨ ad.base = some 5#4) ∧
      (operandSeg m p ad = .ss ∨ operandSeg m p ad = .ds)) ∧
    (∀ sg, p.seg = some sg → m ≠ .long64 → operandSeg m p ad = sg) ∧
    (∀ sg, p.seg = some sg → m = .long64 → sg = .fs ∨ sg = .gs → operandSeg m p ad = sg) ∧
    (∀ sg, p.seg = some sg → m = .long64 → sg ≠ .fs → sg ≠ .gs →
      operandSeg m p ad = operandSeg m { p with seg := none } ad)
end

