-- ==== Sys2Proof/Laws/Address.lean ====
section
/-! SUPPORT. The address and segment of a memory operand: the model's operations against the words of Safety.lean, which follow
20_memory.md R57, R58 and 30_encoding.md R65 to R67. -/

namespace Sys2Proof.Machine

open Sys2Proof

/-- Every form's operand in one shape. -/
theorem memOperand_eq (s : State) (i : Instr) :
    memOperand s i = (addressing s.mode (extOf i) (disp8Factor i) (bodyOf i).rm).map fun ad =>
      (operandSeg s.mode (prefixesOf i) ad,
        effectiveAddress s (addressSize s.mode (prefixesOf i).addr67) (nextAddress s (instrLength i)) ad,
        operandBytes i) := by
  cases i <;> rfl

theorem operandSeg_eq (m : Mode) (p : Prefixes) (ad : Addressing) :
    operandSeg m p ad = segmentRule m p (defaultSeg ad) := by
  obtain ⟨sg, _, _, _, _, _, _⟩ := p
  cases m <;> cases sg with
  | none => rfl
  | some sg => cases sg <;> rfl

theorem defaultSeg_base (b : BitVec 4) (ad : Addressing) (h : ad.base = some b) : defaultSeg ad = baseSegment b := by
  simp [defaultSeg, baseSegment, h]

theorem defaultSeg_none (ad : Addressing) (h : ad.base = none) : defaultSeg ad = .ds := by
  simp [defaultSeg, h]

theorem effectiveAddress_eq (s : State) (a : AddrSize) (next : Quad) (ad : Addressing) :
    effectiveAddress s a next ad =
      truncated a ((if ad.riprel then next else (ad.base.map s.getX).getD 0#64) +
        (ad.index.map s.getX).getD 0#64 * BitVec.ofNat 64 ad.scale + ad.disp) := by
  cases a <;> unfold effectiveAddress truncated <;> apply BitVec.eq_of_toNat_eq <;> simp [addrBits]

/-- The scale is a shift (30_encoding.md R65). -/
theorem mul_scale (x : Quad) (sc : BitVec 2) : x * BitVec.ofNat 64 (2 ^ sc.toNat) = x <<< sc.toNat := by
  apply BitVec.eq_of_toNat_eq
  rw [BitVec.toNat_mul, BitVec.toNat_shiftLeft, Nat.shiftLeft_eq, BitVec.toNat_ofNat, Nat.mul_mod_mod]

/-- The scaled index of a SIB form. -/
theorem indexReg_scaled (s : State) (i : Instr) (sc : BitVec 2) (ix : BitVec 3) :
    ((indexReg (extOf i) ix).map s.getX).getD 0#64 * BitVec.ofNat 64 (2 ^ sc.toNat) = scaledIndex s i sc ix := by
  rw [mul_scale]
  unfold indexReg scaledIndex
  split <;> simp

theorem dispValue_eq (i : Instr) (d : Disp) : dispValue (disp8Factor i) d = displacement i d := by
  cases d <;> rfl

theorem disp16Value_eq (d : Disp16) : disp16Value d = displacement16 d := by
  cases d <;> rfl

/-- The registers a 16-bit form sums and its default segment, by the table of 30_encoding.md R67. -/
theorem regs16_eq (s : State) (rm : BitVec 3) :
    s.getX (regs16 rm).1 + ((regs16 rm).2.map s.getX).getD 0#64 = registerSum16 s rm ∧
      baseSegment (regs16 rm).1 = defaultSegment16 rm := by
  refine ⟨?_, ?_⟩
  · unfold regs16 registerSum16
    repeat' split
    all_goals first | contradiction | simp
  · revert rm
    decide

end Sys2Proof.Machine
end

