-- ==== Sys2Proof/Laws/Decode.lean ====
section
/-! SUPPORT. Reading back what the encoder writes, part by part: prefixes, ModRM with SIB and displacement, the class bytes;
and the length of what the encoder writes. -/

namespace Sys2Proof

/-! ## Bytes and their fields -/

@[simp] theorem modOf_byteOfFields : ∀ (hi : BitVec 2) (mid lo : BitVec 3), modOf (byteOfFields hi mid lo) = hi := by decide
@[simp] theorem regOf_byteOfFields : ∀ (hi : BitVec 2) (mid lo : BitVec 3), regOf (byteOfFields hi mid lo) = mid := by decide
@[simp] theorem rmOf_byteOfFields : ∀ (hi : BitVec 2) (mid lo : BitVec 3), rmOf (byteOfFields hi mid lo) = lo := by decide

theorem rexOfByte_byteOfRex (r : Rex) : rexOfByte (byteOfRex r) = r := by
  obtain ⟨w, r, x, b⟩ := r
  revert w r x b
  decide

theorem isRex_byteOfRex (r : Rex) : isRex (byteOfRex r) = true := by
  obtain ⟨w, r, x, b⟩ := r
  revert w r x b
  decide

theorem take16_bytes16 (d : BitVec 16) (rest : List Byte) : take16 (bytes16 d ++ rest) = some (d, rest) := by
  simp only [bytes16, List.cons_append, List.nil_append, take16, Option.some.injEq, Prod.mk.injEq, and_true]
  refine BitVec.eq_of_getLsbD_eq fun i hi => ?_
  simp only [BitVec.getLsbD_append, BitVec.getLsbD_extractLsb']
  split
  · simp [*]
  · have h1 : i - 8 < 8 := by omega
    have h2 : 8 + (i - 8) = i := by omega
    simp [h1, h2]

theorem take32_bytes32 (d : BitVec 32) (rest : List Byte) : take32 (bytes32 d ++ rest) = some (d, rest) := by
  simp only [bytes32, List.cons_append, List.nil_append, take32, Option.some.injEq, Prod.mk.injEq, and_true]
  refine BitVec.eq_of_getLsbD_eq fun i hi => ?_
  simp only [BitVec.getLsbD_append, BitVec.getLsbD_extractLsb']
  split
  · simp [*]
  · split
    · have h2 : 8 + (i - 8) = i := by omega
      simp [*]
    · split
      · have h2 : 16 + (i - 8 - 8) = i := by omega
        simp [*]
      · have h1 : i - 8 - 8 - 8 < 8 := by omega
        have h2 : 24 + (i - 8 - 8 - 8) = i := by omega
        simp [h1, h2]

/-! ## Displacement, ModRM, body -/

theorem takeDisp_bytesOfDisp (d : Disp) (rest : List Byte) :
    takeDisp (modOfDisp d) (bytesOfDisp d ++ rest) = some (d, rest) := by
  cases d with
  | absent => rfl
  | disp8 d => rfl
  | disp32 d => simp [takeDisp, modOfDisp, bytesOfDisp, take32_bytes32]

theorem takeDisp16_bytesOfDisp16 (d : Disp16) (rest : List Byte) :
    takeDisp16 (modOfDisp16 d) (bytesOfDisp16 d ++ rest) = some (d, rest) := by
  cases d with
  | absent => rfl
  | disp8 d => rfl
  | disp16 d => simp [takeDisp16, modOfDisp16, bytesOfDisp16, take16_bytes16]

theorem modOfDisp_ne_three (d : Disp) : modOfDisp d ≠ 3#2 := by cases d <;> simp [modOfDisp]
theorem modOfDisp16_ne_three (d : Disp16) : modOfDisp16 d ≠ 3#2 := by cases d <;> simp [modOfDisp16]
theorem modOfDisp_zero (d : Disp) : modOfDisp d = 0#2 ↔ d = .absent := by cases d <;> simp [modOfDisp]
theorem modOfDisp16_zero (d : Disp16) : modOfDisp16 d = 0#2 ↔ d = .absent := by cases d <;> simp [modOfDisp16]

/-- A well-formed body is read back (30_encoding.md R64 to R67, R73). -/
theorem takeBody_encodeBody (a : AddrSize) (b : Body) (rest : List Byte) (h : b.rm.wf a = true) :
    takeBody a (encodeBody b ++ rest) = some (b, rest) := by
  obtain ⟨reg, rm, order⟩ := b
  cases rm with
  | reg rm => simp [encodeBody, encodeRm, takeBody, takeRm, take8]
  | indirect rm d =>
    simp only [Rm.wf, Bool.and_eq_true, Bool.not_eq_true', decide_eq_true_eq, ne_eq, Bool.and_eq_false_imp,
      decide_eq_false_iff_not] at h
    obtain ⟨⟨ha, h4⟩, h5⟩ := h
    have hn : ¬ (d = .absent ∧ rm = 5#3) := fun c => h5 c.1 c.2
    simp [encodeBody, encodeRm, takeBody, takeRm, takeRm32, take8, modOfDisp_ne_three, ha, h4, modOfDisp_zero,
      takeDisp_bytesOfDisp, hn]
  | disp32 d =>
    simp only [Rm.wf, decide_eq_true_eq, ne_eq] at h
    simp [encodeBody, encodeRm, takeBody, takeRm, takeRm32, take8, h, take32_bytes32]
  | sib sc ix ba d =>
    simp only [Rm.wf, Bool.and_eq_true, Bool.not_eq_true', decide_eq_true_eq, ne_eq, Bool.and_eq_false_imp,
      decide_eq_false_iff_not] at h
    obtain ⟨ha, h5⟩ := h
    have hn : ¬ (d = .absent ∧ ba = 5#3) := fun c => h5 c.1 c.2
    simp [encodeBody, encodeRm, takeBody, takeRm, takeRm32, take8, modOfDisp_ne_three, ha, modOfDisp_zero,
      takeDisp_bytesOfDisp, hn]
  | sibNoBase sc ix d =>
    simp only [Rm.wf, decide_eq_true_eq, ne_eq] at h
    simp [encodeBody, encodeRm, takeBody, takeRm, takeRm32, take8, h, take32_bytes32]
  | indirect16 rm d =>
    simp only [Rm.wf, Bool.and_eq_true, Bool.not_eq_true', decide_eq_true_eq, Bool.and_eq_false_imp,
      decide_eq_false_iff_not] at h
    obtain ⟨ha, h6⟩ := h
    have hn : ¬ (d = .absent ∧ rm = 6#3) := fun c => h6 c.1 c.2
    simp [encodeBody, encodeRm, takeBody, takeRm, takeRm16, take8, modOfDisp16_ne_three, ha, modOfDisp16_zero,
      takeDisp16_bytesOfDisp16, hn]
  | disp16 d =>
    simp only [Rm.wf, decide_eq_true_eq] at h
    simp [encodeBody, encodeRm, takeBody, takeRm, takeRm16, take8, h, take16_bytes16]

theorem finishInstr_encodeBody (a : AddrSize) (b : Body) (rest : List Byte) (mk : Body → Instr) (h : b.rm.wf a = true) :
    finishInstr a (encodeBody b ++ rest) mk = .instr (mk b) rest := by
  simp [finishInstr, takeBody_encodeBody a b rest h]

/-! ## Prefixes -/

/-- The first byte of an encoding class: no prefix, no REX. -/
def ClassByte (b : Byte) : Prop := isLegacyPrefix b = false ∧ isRex b = false

theorem scan_flag (p : Prefixes) (given : Bool) (b : Byte) (p' : Prefixes) (bs : List Byte)
    (hp : given = true → isLegacyPrefix b = true ∧ addPrefix p b = some p') :
    scanPrefixes p (encodeFlag given b ++ bs) = scanPrefixes (if given then p' else p) bs := by
  cases given with
  | false => rfl
  | true =>
    obtain ⟨h1, h2⟩ := hp rfl
    simp [encodeFlag, scanPrefixes, h1, h2]

/-- The prefixes the encoder writes are scanned back, up to REX (30_encoding.md R61). -/
theorem scan_encodePrefixes (p : Prefixes) (b : Byte) (bs : List Byte) (hb : ClassByte b) :
    scanPrefixes noPrefixes (encodePrefixes p ++ b :: bs) =
      some ({ p with rex := none }, (p.rex.map byteOfRex).toList ++ b :: bs) := by
  obtain ⟨seg, a67, o66, lk, rne, rp, rex⟩ := p
  have hend : ∀ q, scanPrefixes q ((rex.map byteOfRex).toList ++ b :: bs) =
      some (q, (rex.map byteOfRex).toList ++ b :: bs) := by
    intro q
    cases rex with
    | none => simp [scanPrefixes, hb.1]
    | some r =>
      have : isLegacyPrefix (byteOfRex r) = false := by
        obtain ⟨w, r, x, b⟩ := r
        revert w r x b
        decide
      simp [scanPrefixes, this]
  have hseg : ∀ bs', scanPrefixes noPrefixes ((seg.map byteOfSeg).toList ++ bs') =
      scanPrefixes { noPrefixes with seg := seg } bs' := by
    intro bs'
    cases seg with
    | none => rfl
    | some sg => cases sg <;> rfl
  simp only [encodePrefixes, List.append_assoc]
  rw [hseg,
    scan_flag _ a67 0x67#8 { noPrefixes with seg := seg, addr67 := true } _ fun _ => ⟨rfl, rfl⟩,
    scan_flag _ o66 0x66#8 { noPrefixes with seg := seg, addr67 := a67, opsize66 := true } _
      fun _ => ⟨rfl, by cases a67 <;> rfl⟩,
    scan_flag _ lk 0xF0#8 { noPrefixes with seg := seg, addr67 := a67, opsize66 := o66, lock := true } _
      fun _ => ⟨rfl, by cases a67 <;> cases o66 <;> rfl⟩,
    scan_flag _ rne 0xF2#8 { noPrefixes with seg := seg, addr67 := a67, opsize66 := o66, lock := lk, repne := true } _
      fun _ => ⟨rfl, by cases a67 <;> cases o66 <;> cases lk <;> rfl⟩,
    scan_flag _ rp 0xF3#8
      { noPrefixes with seg := seg, addr67 := a67, opsize66 := o66, lock := lk, repne := rne, rep := true } _
      fun _ => ⟨rfl, by cases a67 <;> cases o66 <;> cases lk <;> cases rne <;> rfl⟩,
    hend]
  cases a67 <;> cases o66 <;> cases lk <;> cases rne <;> cases rp <;> rfl

/-! ## Length -/

theorem length_encodeFlag (given : Bool) (b : Byte) : (encodeFlag given b).length = given.toNat := by
  cases given <;> rfl

theorem length_encodePrefixes (p : Prefixes) : (encodePrefixes p).length = prefixesLength p := by
  obtain ⟨seg, a67, o66, lk, rne, rp, rex⟩ := p
  simp only [encodePrefixes, List.length_append, length_encodeFlag, prefixesLength]
  cases seg <;> cases rex <;> rfl

theorem length_bytesOfDisp (d : Disp) : (bytesOfDisp d).length = dispLength d := by cases d <;> rfl
theorem length_bytesOfDisp16 (d : Disp16) : (bytesOfDisp16 d).length = disp16Length d := by cases d <;> rfl

theorem length_encodeBody (b : Body) : (encodeBody b).length = rmLength b.rm + 1 := by
  obtain ⟨reg, rm, order⟩ := b
  cases rm <;> simp [encodeBody, encodeRm, rmLength, length_bytesOfDisp, length_bytesOfDisp16, bytes32, bytes16] <;> omega

/-! ## What the decoder reads: its length and its well-formedness -/

theorem take8_length {bs rest : List Byte} {d : BitVec 8} (h : take8 bs = some (d, rest)) :
    bs.length = 1 + rest.length := by
  match bs, h with
  | _ :: _, rfl => simp; omega

theorem take16_length {bs rest : List Byte} {d : BitVec 16} (h : take16 bs = some (d, rest)) :
    bs.length = 2 + rest.length := by
  match bs, h with
  | _ :: _ :: _, rfl => simp; omega

theorem take32_length {bs rest : List Byte} {d : BitVec 32} (h : take32 bs = some (d, rest)) :
    bs.length = 4 + rest.length := by
  match bs, h with
  | _ :: _ :: _ :: _ :: _, rfl => simp; omega

theorem takeDisp_length {md : BitVec 2} {bs rest : List Byte} {d : Disp} (h : takeDisp md bs = some (d, rest)) :
    bs.length = dispLength d + rest.length ∧ (d = .absent → md = 0#2) := by
  unfold takeDisp at h
  split at h
  · cases h; simp [dispLength, *]
  · split at h <;> simp only [Option.map_eq_some_iff, Prod.mk.injEq, Prod.exists] at h <;>
      obtain ⟨_, _, ht, rfl, rfl⟩ := h
    · exact ⟨take8_length ht, nofun⟩
    · exact ⟨take32_length ht, nofun⟩

theorem takeDisp16_length {md : BitVec 2} {bs rest : List Byte} {d : Disp16} (h : takeDisp16 md bs = some (d, rest)) :
    bs.length = disp16Length d + rest.length ∧ (d = .absent → md = 0#2) := by
  unfold takeDisp16 at h
  split at h
  · cases h; simp [disp16Length, *]
  · split at h <;> simp only [Option.map_eq_some_iff, Prod.mk.injEq, Prod.exists] at h <;>
      obtain ⟨_, _, ht, rfl, rfl⟩ := h
    · exact ⟨take8_length ht, nofun⟩
    · exact ⟨take16_length ht, nofun⟩

/-- What the reading of operand 2 gives is a form of the address size, and its length is what was taken. -/
theorem takeRm_spec {a : AddrSize} {md : BitVec 2} {rm : BitVec 3} {bs rest : List Byte} {r : Rm}
    (h : takeRm a md rm bs = some (r, rest)) : r.wf a = true ∧ bs.length + 1 = rmLength r + rest.length := by
  unfold takeRm at h
  split at h
  · cases h; exact ⟨rfl, by simp only [rmLength]; omega⟩
  · split at h
    · rename_i hm ha
      subst ha
      unfold takeRm16 at h
      split at h <;> simp only [Option.map_eq_some_iff, Prod.mk.injEq, Prod.exists] at h <;>
        obtain ⟨d, _, ht, rfl, rfl⟩ := h
      · have := take16_length ht
        refine ⟨rfl, ?_⟩; simp only [rmLength]; omega
      · obtain ⟨hl, hz⟩ := takeDisp16_length ht
        refine ⟨?_, by simp only [rmLength]; omega⟩
        have hn : ¬ (d = .absent ∧ rm = 6#3) := fun c => ‹¬ (md = 0#2 ∧ rm = 6#3)› ⟨hz c.1, c.2⟩
        simpa [Rm.wf] using not_and_or.1 hn
    · rename_i hm ha
      unfold takeRm32 at h
      split at h
      · split at h
        · cases h
        · rename_i sib bs'
          split at h <;> simp only [Option.map_eq_some_iff, Prod.mk.injEq, Prod.exists] at h <;>
            obtain ⟨d, _, ht, rfl, rfl⟩ := h
          · have := take32_length ht
            refine ⟨by simp [Rm.wf, ha], ?_⟩; simp only [rmLength, List.length_cons]; omega
          · obtain ⟨hl, hz⟩ := takeDisp_length ht
            refine ⟨?_, by simp only [rmLength, List.length_cons]; omega⟩
            have hn : ¬ (d = .absent ∧ rmOf sib = 5#3) := fun c => ‹¬ (md = 0#2 ∧ rmOf sib = 5#3)› ⟨hz c.1, c.2⟩
            simpa [Rm.wf, ha] using not_and_or.1 hn
      · split at h <;> simp only [Option.map_eq_some_iff, Prod.mk.injEq, Prod.exists] at h <;>
          obtain ⟨d, _, ht, rfl, rfl⟩ := h
        · have := take32_length ht
          refine ⟨by simp [Rm.wf, ha], ?_⟩; simp only [rmLength]; omega
        · obtain ⟨hl, hz⟩ := takeDisp_length ht
          refine ⟨?_, by simp only [rmLength]; omega⟩
          have hn : ¬ (d = .absent ∧ rm = 5#3) := fun c => ‹¬ (md = 0#2 ∧ rm = 5#3)› ⟨hz c.1, c.2⟩
          simpa [Rm.wf, ha, ‹¬ rm = 4#3›] using not_and_or.1 hn

/-- The body read is one of the address size, and as long as what was taken (30_encoding.md R60). -/
theorem takeBody_spec {a : AddrSize} {bs rest : List Byte} {b : Body} (h : takeBody a bs = some (b, rest)) :
    b.rm.wf a = true ∧ bs.length = rmLength b.rm + 1 + rest.length := by
  unfold takeBody at h
  split at h
  · cases h
  · split at h
    · cases h
    · rename_i rm bs' hr
      simp only [Option.map_eq_some_iff, Prod.mk.injEq, Prod.exists] at h
      obtain ⟨i, _, ht, rfl, rfl⟩ := h
      obtain ⟨hw, hl⟩ := takeRm_spec hr
      have := take8_length ht
      exact ⟨hw, by simp only [List.length_cons]; omega⟩

theorem rmLength_le (r : Rm) : rmLength r ≤ 6 := by
  cases r with
  | indirect _ d => cases d <;> simp [rmLength, dispLength]
  | sib _ _ _ d => cases d <;> simp [rmLength, dispLength]
  | indirect16 _ d => cases d <;> simp [rmLength, disp16Length]
  | _ => simp [rmLength]

theorem addPrefix_length {p q : Prefixes} {b : Byte} (h : addPrefix p b = some q) :
    prefixesLength q = prefixesLength p + 1 ∧ q.rex = p.rex := by
  obtain ⟨seg, a67, o66, lk, rne, rp, rex⟩ := p
  unfold addPrefix at h
  split at h
  · cases seg <;> cases h
    exact ⟨by simp [prefixesLength]; omega, rfl⟩
  · split at h
    · cases a67 <;> cases h
      exact ⟨by simp [prefixesLength]; omega, rfl⟩
    · split at h
      · cases o66 <;> cases h
        exact ⟨by simp [prefixesLength]; omega, rfl⟩
      · split at h
        · cases lk <;> cases h
          exact ⟨by simp [prefixesLength]; omega, rfl⟩
        · split at h
          · cases rne <;> cases h
            exact ⟨by simp [prefixesLength]; omega, rfl⟩
          · cases rp <;> cases h
            exact ⟨by simp [prefixesLength]; omega, rfl⟩

theorem scanPrefixes_spec {bs rest : List Byte} {p q : Prefixes} (h : scanPrefixes p bs = some (q, rest)) :
    q.rex = p.rex ∧ prefixesLength q + rest.length = prefixesLength p + bs.length := by
  induction bs generalizing p with
  | nil => cases h; simp
  | cons b bs ih =>
    unfold scanPrefixes at h
    split at h
    · split at h
      · cases h
      · rename_i p' hp
        obtain ⟨h1, h2⟩ := ih h
        obtain ⟨h3, h4⟩ := addPrefix_length hp
        exact ⟨h1.trans h4, by simp only [List.length_cons]; omega⟩
    · cases h; simp

theorem finishInstr_spec {a : AddrSize} {bs rest : List Byte} {mk : Body → Instr} {i : Instr}
    (h : finishInstr a bs mk = .instr i rest) :
    ∃ b, i = mk b ∧ b.rm.wf a = true ∧ bs.length = rmLength b.rm + 1 + rest.length := by
  unfold finishInstr at h
  split at h
  · cases h
  · rename_i b r hb
    cases h
    exact ⟨b, rfl, takeBody_spec hb⟩

/-! ## What the class bytes of the encoder hold -/

theorem vex2_bits : ∀ (r l : Bool) (vv : BitVec 4),
    let v1 : Byte := BitVec.ofBool (!r) ++ vv ++ BitVec.ofBool l ++ 1#2
    v1.extractLsb' 0 2 = 1#2 ∧ bit v1 7 = !r ∧ v1.extractLsb' 3 4 = vv ∧ bit v1 2 = l ∧
      ((!r && vv.getLsbD 3) = true → modOf v1 = 3#2) := by decide

theorem vex3_first_bits : ∀ (r x b : Bool),
    let v1 : Byte := BitVec.ofBool (!r) ++ BitVec.ofBool (!x) ++ BitVec.ofBool (!b) ++ 1#5
    v1.extractLsb' 0 5 = 1#5 ∧ bit v1 7 = !r ∧ bit v1 6 = !x ∧ bit v1 5 = !b ∧
      ((!r && !x) = true → modOf v1 = 3#2) := by decide

theorem vex3_second_bits : ∀ (w l : Bool) (vv : BitVec 4),
    let v2 : Byte := BitVec.ofBool w ++ vv ++ BitVec.ofBool l ++ 1#2
    v2.extractLsb' 0 2 = 1#2 ∧ bit v2 7 = w ∧ v2.extractLsb' 3 4 = vv ∧ bit v2 2 = l ∧ bit v2 6 = vv.getLsbD 3 := by
  decide

theorem evex_first_bits : ∀ (r x b rh : Bool),
    let p0 : Byte := BitVec.ofBool (!r) ++ BitVec.ofBool (!x) ++ BitVec.ofBool (!b) ++ BitVec.ofBool (!rh) ++ 1#4
    p0.extractLsb' 0 2 = 1#2 ∧ p0.extractLsb' 2 2 = 0#2 ∧ bit p0 7 = !r ∧ bit p0 6 = !x ∧ bit p0 5 = !b ∧
      bit p0 4 = !rh ∧ ((!r && !x) = true → modOf p0 = 3#2) := by decide

theorem evex_second_bits : ∀ vv : BitVec 4,
    let p1 : Byte := 0#1 ++ vv ++ 1#1 ++ 1#2
    p1.extractLsb' 0 2 = 1#2 ∧ bit p1 7 = false ∧ bit p1 2 = true ∧ p1.extractLsb' 3 4 = vv := by decide

theorem evex_third_bits : ∀ (z bc vh : Bool) (ll : BitVec 2) (aaa : BitVec 3),
    let p2 : Byte := BitVec.ofBool z ++ ll ++ BitVec.ofBool bc ++ BitVec.ofBool vh ++ aaa
    p2.extractLsb' 5 2 = ll ∧ bit p2 7 = z ∧ bit p2 4 = bc ∧ bit p2 3 = vh ∧ p2.extractLsb' 0 3 = aaa := by decide

/-- The decoder reaches the encoding class behind the prefixes the encoder writes. -/
theorem decode_encodePrefixes (m : Mode) (p : Prefixes) (c : Byte) (bs : List Byte) (hc : ClassByte c)
    (hp : p.wf m = true) : ∃ n, decode m (encodePrefixes p ++ c :: bs) = decodeClass m p n (c :: bs) := by
  unfold decode
  rw [scan_encodePrefixes p c bs hc]
  obtain ⟨seg, a67, o66, lk, rne, rp, rex⟩ := p
  cases rex with
  | none =>
    simp only [Option.map_none, Option.toList_none, List.nil_append, decodeRex, hc.2, and_false, if_false, Bool.false_eq_true]
    exact ⟨_, rfl⟩
  | some r =>
    have hm : m = .long64 := by simpa [Prefixes.wf] using hp
    simp only [Option.map_some, Option.toList_some, List.cons_append, List.nil_append, decodeRex, isRex_byteOfRex r, hm,
      startsWithPrefix, hc.1, hc.2, rexOfByte_byteOfRex, Bool.or_self, Bool.false_eq_true, if_false, and_self, if_true]
    exact ⟨_, rfl⟩

theorem decodeVex2_encode (m : Mode) (p : Prefixes) (n : Nat) (e : Vex2) (l : Bool) (b : Body) (rest : List Byte)
    (he : e.wf m = true) (hb : b.rm.wf (addressSize m p.addr67) = true) :
    decodeClass m p n (encodeVex2 e l ++ 0x70#8 :: (encodeBody b ++ rest)) =
      .instr (if l then .vpshufdVex256C5 p e b else .vpshufdVex128C5 p e b) rest := by
  obtain ⟨h1, h2, h3, h4, h5⟩ := vex2_bits e.r l e.vvvv
  have hmod : ¬ (m ≠ .long64 ∧ modOf (BitVec.ofBool (!e.r) ++ e.vvvv ++ BitVec.ofBool l ++ 1#2 : Byte) ≠ 3#2) := by
    intro ⟨ha, hb⟩
    exact hb (h5 (by simpa [Vex2.wf, ha] using he))
  simp only [encodeVex2, List.cons_append, List.nil_append, decodeClass, decodeVex2, h1, h2, h3, h4, hmod, ne_eq,
    not_true_eq_false, or_self, if_false, Bool.not_not, BitVec.reduceEq, if_true]
  rw [finishInstr_encodeBody _ _ _ _ hb]
  cases l <;> rfl

theorem decodeVex3_encode (m : Mode) (p : Prefixes) (n : Nat) (e : Vex3) (l : Bool) (b : Body) (rest : List Byte)
    (he : e.wf m = true) (hb : b.rm.wf (addressSize m p.addr67) = true) :
    decodeClass m p n (encodeVex3 e l ++ 0x70#8 :: (encodeBody b ++ rest)) =
      .instr (if l then .vpshufdVex256C4 p e b else .vpshufdVex128C4 p e b) rest := by
  obtain ⟨h1, h2, h3, h4, h5⟩ := vex3_first_bits e.r e.x e.b
  obtain ⟨g1, g2, g3, g4, g5⟩ := vex3_second_bits e.w l e.vvvv
  have he' : (m = .long64 ∨ (!e.r && !e.x) = true) ∧ (isProtected m = false ∨ (!e.b && e.vvvv.getLsbD 3) = true) := by
    simpa [Vex3.wf] using he
  have hmod : ¬ (m ≠ .long64 ∧
      modOf (BitVec.ofBool (!e.r) ++ BitVec.ofBool (!e.x) ++ BitVec.ofBool (!e.b) ++ 1#5 : Byte) ≠ 3#2) := by
    intro ⟨ha, hb⟩
    exact hb (h5 (by simpa [ha] using he'.1))
  have hpr : ¬ (isProtected m = true ∧ (!(!e.b && e.vvvv.getLsbD 3)) = true) := by
    rintro ⟨ha, hb⟩
    rcases he'.2 with h | h <;> simp_all
  simp only [encodeVex3, List.cons_append, List.nil_append, decodeClass, decodeVex3, h1, h2, h3, h4, hmod, g1, g2, g3, g4,
    g5, hpr, ne_eq, not_true_eq_false, or_self, if_false, Bool.not_not, BitVec.reduceEq, if_true]
  rw [finishInstr_encodeBody _ _ _ _ hb]
  cases l <;> rfl

theorem decodeEvex_encode (m : Mode) (p : Prefixes) (n : Nat) (e : Evex) (ll : BitVec 2) (b : Body) (rest : List Byte)
    (hll : ll ≠ 3#2) (he : e.wf m = true) (hb : b.rm.wf (addressSize m p.addr67) = true) :
    decodeClass m p n (encodeEvex e ll ++ 0x70#8 :: (encodeBody b ++ rest)) = .instr (evexRow ll p e b) rest := by
  obtain ⟨h1, h2, h3, h4, h5, h6, h7⟩ := evex_first_bits e.r e.x e.b e.rHigh
  obtain ⟨g1, g2, g3, g4⟩ := evex_second_bits e.vvvv
  obtain ⟨k1, k2, k3, k4, k5⟩ := evex_third_bits e.z e.bcast e.vHigh ll e.aaa
  have he' : (m = .long64 ∨ (!e.r && !e.x) = true) ∧
      (isProtected m = false ∨ (!e.b && !e.rHigh && e.vHigh) = true) := by simpa [Evex.wf] using he
  have hmod : ¬ (m ≠ .long64 ∧ modOf (BitVec.ofBool (!e.r) ++ BitVec.ofBool (!e.x) ++ BitVec.ofBool (!e.b) ++
      BitVec.ofBool (!e.rHigh) ++ 1#4 : Byte) ≠ 3#2) := by
    intro ⟨ha, hb⟩
    exact hb (h7 (by simpa [ha] using he'.1))
  have hpr : ¬ (isProtected m = true ∧ (!(!e.b && !e.rHigh && e.vHigh)) = true) := by
    rintro ⟨ha, hb⟩
    rcases he'.2 with h | h <;> simp_all
  simp only [encodeEvex, List.cons_append, List.nil_append, decodeClass, decodeEvex, h1, h2, h3, h4, h5, h6, hmod, g1, g2,
    g3, g4, k1, k2, k3, k4, k5, hpr, hll, ne_eq, not_true_eq_false, or_self, if_false, Bool.not_not, BitVec.reduceEq,
    if_true, Bool.false_eq_true, Bool.not_true]
  exact finishInstr_encodeBody _ _ _ _ hb

end Sys2Proof
end

