-- ==== Sys2Proof/Laws/State.lean ====
section
/-! SUPPORT. One lemma for each field of State under each update of it: setV, complete, placeBytes and launch change only what
they name; what the fields' accessors read after setV and complete. -/

namespace Sys2Proof.Machine

open Sys2Proof

section SetV

variable (s : State) (n : BitVec 5) (z : Zmm)

@[simp] theorem setV_v : (s.setV n z).v = s.v.set n.toNat (lowLanes (maxLanes s.feat) z) n.isLt := rfl
@[simp] theorem setV_k : (s.setV n z).k = s.k := rfl
@[simp] theorem setV_x : (s.setV n z).x = s.x := rfl
@[simp] theorem setV_pc : (s.setV n z).pc = s.pc := rfl
@[simp] theorem setV_rflags : (s.setV n z).rflags = s.rflags := rfl
@[simp] theorem setV_mxcsr : (s.setV n z).mxcsr = s.mxcsr := rfl
@[simp] theorem setV_st : (s.setV n z).st = s.st := rfl
@[simp] theorem setV_fsw : (s.setV n z).fsw = s.fsw := rfl
@[simp] theorem setV_ftw : (s.setV n z).ftw = s.ftw := rfl
@[simp] theorem setV_cs : (s.setV n z).cs = s.cs := rfl
@[simp] theorem setV_ds : (s.setV n z).ds = s.ds := rfl
@[simp] theorem setV_es : (s.setV n z).es = s.es := rfl
@[simp] theorem setV_fs : (s.setV n z).fs = s.fs := rfl
@[simp] theorem setV_gs : (s.setV n z).gs = s.gs := rfl
@[simp] theorem setV_ss : (s.setV n z).ss = s.ss := rfl
@[simp] theorem setV_cr0 : (s.setV n z).cr0 = s.cr0 := rfl
@[simp] theorem setV_cr2 : (s.setV n z).cr2 = s.cr2 := rfl
@[simp] theorem setV_cr4 : (s.setV n z).cr4 = s.cr4 := rfl
@[simp] theorem setV_xcr0 : (s.setV n z).xcr0 = s.xcr0 := rfl
@[simp] theorem setV_efer : (s.setV n z).efer = s.efer := rfl
@[simp] theorem setV_cpl : (s.setV n z).cpl = s.cpl := rfl
@[simp] theorem setV_machine : (s.setV n z).machine = s.machine := rfl
@[simp] theorem setV_paging : (s.setV n z).paging = s.paging := rfl
@[simp] theorem setV_regions : (s.setV n z).regions = s.regions := rfl
@[simp] theorem setV_mem : (s.setV n z).mem = s.mem := rfl
@[simp] theorem setV_programEnd : (s.setV n z).programEnd = s.programEnd := rfl
@[simp] theorem setV_tick : (s.setV n z).tick = s.tick := rfl
@[simp] theorem setV_reads : (s.setV n z).reads = s.reads := rfl

end SetV

section Complete

variable (s : State) (d : BitVec 5) (z : Zmm) (next : Quad) (es : List ReadEvent)

@[simp] theorem complete_v : (complete s d z next es).v = (s.setV d z).v := rfl
@[simp] theorem complete_k : (complete s d z next es).k = s.k := rfl
@[simp] theorem complete_x : (complete s d z next es).x = s.x := rfl
@[simp] theorem complete_pc : (complete s d z next es).pc = next := rfl
@[simp] theorem complete_rflags : (complete s d z next es).rflags = s.rflags := rfl
@[simp] theorem complete_mxcsr : (complete s d z next es).mxcsr = s.mxcsr := rfl
@[simp] theorem complete_st : (complete s d z next es).st = s.st := rfl
@[simp] theorem complete_fsw : (complete s d z next es).fsw = s.fsw := rfl
@[simp] theorem complete_ftw : (complete s d z next es).ftw = s.ftw := rfl
@[simp] theorem complete_cs : (complete s d z next es).cs = s.cs := rfl
@[simp] theorem complete_ds : (complete s d z next es).ds = s.ds := rfl
@[simp] theorem complete_es : (complete s d z next es).es = s.es := rfl
@[simp] theorem complete_fs : (complete s d z next es).fs = s.fs := rfl
@[simp] theorem complete_gs : (complete s d z next es).gs = s.gs := rfl
@[simp] theorem complete_ss : (complete s d z next es).ss = s.ss := rfl
@[simp] theorem complete_cr0 : (complete s d z next es).cr0 = s.cr0 := rfl
@[simp] theorem complete_cr2 : (complete s d z next es).cr2 = s.cr2 := rfl
@[simp] theorem complete_cr4 : (complete s d z next es).cr4 = s.cr4 := rfl
@[simp] theorem complete_xcr0 : (complete s d z next es).xcr0 = s.xcr0 := rfl
@[simp] theorem complete_efer : (complete s d z next es).efer = s.efer := rfl
@[simp] theorem complete_cpl : (complete s d z next es).cpl = s.cpl := rfl
@[simp] theorem complete_machine : (complete s d z next es).machine = s.machine := rfl
@[simp] theorem complete_paging : (complete s d z next es).paging = s.paging := rfl
@[simp] theorem complete_regions : (complete s d z next es).regions = s.regions := rfl
@[simp] theorem complete_mem : (complete s d z next es).mem = s.mem := rfl
@[simp] theorem complete_programEnd : (complete s d z next es).programEnd = s.programEnd := rfl
@[simp] theorem complete_tick : (complete s d z next es).tick = s.tick + 1 := rfl
@[simp] theorem complete_reads : (complete s d z next es).reads = es ++ s.reads := rfl

end Complete

section Launch

variable (s : State)

@[simp] theorem launch_v : (launch s).v = s.v := rfl
@[simp] theorem launch_k : (launch s).k = s.k := rfl
@[simp] theorem launch_x : (launch s).x = s.x := rfl
@[simp] theorem launch_pc : (launch s).pc = s.pc := rfl
@[simp] theorem launch_rflags : (launch s).rflags = s.rflags &&& ~~~0x20000#64 := rfl
@[simp] theorem launch_mxcsr : (launch s).mxcsr = s.mxcsr := rfl
@[simp] theorem launch_st : (launch s).st = s.st := rfl
@[simp] theorem launch_fsw : (launch s).fsw = s.fsw := rfl
@[simp] theorem launch_ftw : (launch s).ftw = s.ftw := rfl
@[simp] theorem launch_cs : (launch s).cs = { s.cs with l := true, d := false } := rfl
@[simp] theorem launch_ds : (launch s).ds = s.ds := rfl
@[simp] theorem launch_es : (launch s).es = s.es := rfl
@[simp] theorem launch_fs : (launch s).fs = s.fs := rfl
@[simp] theorem launch_gs : (launch s).gs = s.gs := rfl
@[simp] theorem launch_ss : (launch s).ss = s.ss := rfl
@[simp] theorem launch_cr0 : (launch s).cr0 = (s.cr0 ||| 0x1#64) &&& ~~~0xC#64 := rfl
@[simp] theorem launch_cr2 : (launch s).cr2 = s.cr2 := rfl
@[simp] theorem launch_cr4 : (launch s).cr4 = s.cr4 ||| 0x40200#64 := rfl
@[simp] theorem launch_xcr0 : (launch s).xcr0 = s.xcr0 ||| 0xE6#64 := rfl
@[simp] theorem launch_efer : (launch s).efer = s.efer ||| 0x400#64 := rfl
@[simp] theorem launch_cpl : (launch s).cpl = s.cpl := rfl
@[simp] theorem launch_machine : (launch s).machine = s.machine := rfl
@[simp] theorem launch_paging : (launch s).paging = none := rfl
@[simp] theorem launch_regions : (launch s).regions = [] := rfl
@[simp] theorem launch_mem : (launch s).mem = s.mem := rfl
@[simp] theorem launch_programEnd : (launch s).programEnd = none := rfl
@[simp] theorem launch_tick : (launch s).tick = s.tick := rfl
@[simp] theorem launch_reads : (launch s).reads = s.reads := rfl

end Launch

/-! ## Accessors -/

section Accessors

variable (s : State) (n m : BitVec 5) (z : Zmm) (next : Quad) (es : List ReadEvent)

@[simp] theorem setV_feat : (s.setV n z).feat = s.feat := rfl
@[simp] theorem setV_mode : (s.setV n z).mode = s.mode := rfl
@[simp] theorem complete_feat : (complete s n z next es).feat = s.feat := rfl
@[simp] theorem complete_mode : (complete s n z next es).mode = s.mode := rfl
@[simp] theorem setV_getK (a : BitVec 3) : (s.setV n z).getK a = s.getK a := rfl
@[simp] theorem setV_getX (a : BitVec 4) : (s.setV n z).getX a = s.getX a := rfl
@[simp] theorem complete_getK (a : BitVec 3) : (complete s n z next es).getK a = s.getK a := rfl
@[simp] theorem complete_getX (a : BitVec 4) : (complete s n z next es).getX a = s.getX a := rfl

@[simp] theorem getV_setV_same : (s.setV n z).getV n = lowLanes (maxLanes s.feat) z := by
  simp [State.getV]

theorem getV_setV_ne (h : m ≠ n) : (s.setV n z).getV m = s.getV m := by
  have hn : ¬ n.toNat = m.toNat := fun e => h (BitVec.eq_of_toNat_eq e.symm)
  simp [State.getV, hn]

@[simp] theorem getV_complete_same : (complete s n z next es).getV n = lowLanes (maxLanes s.feat) z :=
  getV_setV_same s n z

theorem getV_complete_ne (h : m ≠ n) : (complete s n z next es).getV m = s.getV m :=
  getV_setV_ne s n m z h

end Accessors

end Sys2Proof.Machine
end

