-- ==== Sys2Proof/Laws/Memory.lean ====
section
/-! SUPPORT. Memory: read after write, and the canonical form, which every memory operation keeps. -/

namespace Sys2Proof.Machine

open Sys2Proof

@[simp] theorem memByte_nil (a : Nat) : memByte [] a = unlistedByte := rfl

theorem memByte_cons (b : Nat) (v : Byte) (m : Memory) (a : Nat) :
    memByte ((b, v) :: m) a = if b = a then v else memByte m a := rfl

/-- All locations of a memory lie above `b`. -/
def Above (b : Nat) (m : Memory) : Prop := ∀ c ∈ m, b < c.1

theorem wf_cons (a : Nat) (v : Byte) (m : Memory) :
    Memory.wf ((a, v) :: m) = true ↔ v ≠ unlistedByte ∧ Above a m ∧ Memory.wf m = true := by
  simp [Memory.wf, Above, and_assoc]

theorem memByte_of_above {b a : Nat} {m : Memory} (h : Above b m) (hab : a ≤ b) : memByte m a = unlistedByte := by
  induction m with
  | nil => rfl
  | cons c m ih =>
    obtain ⟨c, v⟩ := c
    have hc : b < c := h (c, v) (by simp)
    rw [memByte_cons, if_neg (by omega)]
    exact ih fun d hd => h d (by simp [hd])

theorem above_cons (b c : Nat) (w : Byte) (m : Memory) : Above b ((c, w) :: m) ↔ b < c ∧ Above b m := by
  simp [Above]

theorem above_memStore {b a : Nat} {m : Memory} (v : Byte) (h : Above b m) (hab : b < a) : Above b (memStore m a v) := by
  induction m with
  | nil => unfold memStore; split <;> simp [Above, hab]
  | cons c m ih =>
    obtain ⟨c, w⟩ := c
    obtain ⟨hc, hm⟩ := (above_cons b c w m).1 h
    unfold memStore
    split
    · split
      · exact h
      · exact (above_cons _ _ _ _).2 ⟨hab, h⟩
    · split
      · split
        · exact hm
        · exact (above_cons _ _ _ _).2 ⟨hab, hm⟩
      · exact (above_cons _ _ _ _).2 ⟨hc, ih hm⟩

/-- Storing keeps the canonical form. -/
theorem memStore_wf {m : Memory} (a : Nat) (v : Byte) (h : Memory.wf m = true) : Memory.wf (memStore m a v) = true := by
  induction m with
  | nil =>
    unfold memStore
    split
    · rfl
    · simp_all [Memory.wf]
  | cons c m ih =>
    obtain ⟨c, w⟩ := c
    obtain ⟨hw, hab, hm⟩ := (wf_cons c w m).1 h
    unfold memStore
    split
    · split
      · exact h
      · refine (wf_cons _ _ _).2 ⟨‹_›, fun d hd => ?_, h⟩
        rcases List.mem_cons.1 hd with rfl | hd
        · assumption
        · have := hab d hd
          omega
    · split
      · split
        · exact hm
        · exact (wf_cons _ _ _).2 ⟨‹_›, fun d hd => by have := hab d hd; omega, hm⟩
      · exact (wf_cons _ _ _).2 ⟨hw, above_memStore v hab (by omega), ih hm⟩

/-- A byte stored is read back, and every other byte is as before. -/
theorem memByte_memStore {m : Memory} (a b : Nat) (v : Byte) (h : Memory.wf m = true) :
    memByte (memStore m a v) b = if b = a then v else memByte m b := by
  induction m with
  | nil =>
    unfold memStore
    split
    · subst_vars
      simp
    · rw [memByte_cons]
      split
      · rw [if_pos (by omega)]
      · rw [if_neg (by omega)]
  | cons c m ih =>
    obtain ⟨c, w⟩ := c
    obtain ⟨_, hab, hm⟩ := (wf_cons c w m).1 h
    have hi := ih hm
    unfold memStore
    split
    · split
      · split
        · subst_vars
          rw [memByte_cons, if_neg (by omega)]
          exact memByte_of_above hab (by omega)
        · rfl
      · rw [memByte_cons]
        split
        · rw [if_pos (by omega)]
        · rw [if_neg (by omega)]
    · split
      · split
        · simp only [memByte_cons]
          split
          · subst_vars
            exact memByte_of_above hab (by omega)
          · rw [if_neg (by omega)]
        · simp only [memByte_cons]
          split
          · subst_vars; simp
          · rw [if_neg (by omega), if_neg (by omega)]
      · simp only [memByte_cons, hi]
        split
        · rw [if_neg (by omega)]
        · rfl

/-- Placing bytes keeps the canonical form. -/
theorem placeBytes_wf (bs : List Byte) : ∀ (s : State) (i : Nat), Memory.wf s.mem = true →
    Memory.wf (placeBytes s i bs).mem = true := by
  induction bs with
  | nil => exact fun s i h => h
  | cons b bs ih =>
    intro s i h
    unfold placeBytes
    split
    · exact ih _ _ h
    · exact ih _ _ (memStore_wf _ _ h)

theorem reset_mem_wf : Memory.wf State.reset.mem = true := rfl

end Sys2Proof.Machine
end

