-- ==== Sys2Proof/Laws/Vector.lean ====
section
/-! SUPPORT. Lanes, doublewords and bytes of vector values; what the shuffle and the merges do to each doubleword. -/

namespace Sys2Proof.Machine

open Sys2Proof

/-! ## Lanes -/

theorem zmm_ext {a b : Zmm} (h : ∀ l, l < 4 → laneOf a l = laneOf b l) : a = b := by
  obtain ⟨a0, a1, a2, a3⟩ := a
  obtain ⟨b0, b1, b2, b3⟩ := b
  have h0 := h 0 (by omega)
  have h1 := h 1 (by omega)
  have h2 := h 2 (by omega)
  have h3 := h 3 (by omega)
  simp only [laneOf] at h0 h1 h2 h3
  subst_vars
  rfl

@[simp] theorem laneOf_zero (z : Zmm) : laneOf z 0 = z.lane0 := rfl

theorem laneOf_ge (z : Zmm) {l : Nat} (h : 4 ≤ l) : laneOf z l = 0#128 := by
  match l, h with
  | n + 4, _ => rfl

theorem laneOf_zmmOf (f : Nat → Lane) {l : Nat} (h : l < 4) : laneOf (zmmOf f) l = f l := by
  match l, h with
  | 0, _ => rfl
  | 1, _ => rfl
  | 2, _ => rfl
  | 3, _ => rfl

@[simp] theorem zmmOf_laneOf (z : Zmm) : zmmOf (laneOf z) = z := rfl

theorem laneOf_zmmOf_if (f : Nat → Lane) (l : Nat) : laneOf (zmmOf f) l = if l < 4 then f l else 0#128 := by
  split
  · exact laneOf_zmmOf f ‹_›
  · exact laneOf_ge _ (by omega)

theorem laneOf_lowLanes (n : Nat) (z : Zmm) (l : Nat) :
    laneOf (lowLanes n z) l = if l < n then laneOf z l else 0#128 := by
  unfold lowLanes
  rw [laneOf_zmmOf_if]
  split
  · rfl
  · split
    · exact (laneOf_ge _ (by omega)).symm
    · rfl

theorem lowLanes_lowLanes (m n : Nat) (z : Zmm) : lowLanes m (lowLanes n z) = lowLanes (min m n) z := by
  refine zmm_ext fun l _ => ?_
  simp only [laneOf_lowLanes, Nat.lt_min]
  by_cases hm : l < m <;> by_cases hn : l < n <;> simp [hm, hn]

@[simp] theorem lowLanes_idem (n : Nat) (z : Zmm) : lowLanes n (lowLanes n z) = lowLanes n z := by
  rw [lowLanes_lowLanes, Nat.min_self]

theorem lowLanes_of_ge {n : Nat} (h : 4 ≤ n) (z : Zmm) : lowLanes n z = z := by
  refine zmm_ext fun l hl => ?_
  rw [laneOf_lowLanes, if_pos (by omega)]

/-- A value with nothing above `n` lanes has nothing above more. -/
theorem lowLanes_mono {m n : Nat} (h : n ≤ m) (z : Zmm) : lowLanes m (lowLanes n z) = lowLanes n z := by
  rw [lowLanes_lowLanes, Nat.min_eq_right h]

@[simp] theorem lowLanes_zero (n : Nat) : lowLanes n zeroZmm = zeroZmm := by
  refine zmm_ext fun l hl => ?_
  rw [laneOf_lowLanes]
  split
  · rfl
  · match l, hl with
    | 0, _ => rfl
    | 1, _ => rfl
    | 2, _ => rfl
    | 3, _ => rfl

/-! ## Doublewords -/

/-- The low doubleword of a concatenation. -/
theorem dword_append_low {w : Nat} (a : BitVec w) (b : Dword) : (a ++ b).extractLsb' 0 32 = b := by
  rw [BitVec.extractLsb'_append_eq_of_add_le (by omega)]
  exact BitVec.extractLsb'_eq_self

/-- A higher doubleword of a concatenation. -/
theorem dword_append_high {w : Nat} (a : BitVec w) (b : Dword) (n : Nat) :
    (a ++ b).extractLsb' (n + 32) 32 = a.extractLsb' n 32 := by
  rw [BitVec.extractLsb'_append_eq_of_le (by omega), Nat.add_sub_cancel]

theorem laneDword_laneOfDwords (f : Nat → Dword) {t : Nat} (h : t < 4) : laneDword (laneOfDwords f) t = f t := by
  match t, h with
  | 0, _ => exact dword_append_low _ _
  | 1, _ => exact (dword_append_high _ _ 0).trans (dword_append_low _ _)
  | 2, _ => exact (dword_append_high _ _ 32).trans ((dword_append_high _ _ 0).trans (dword_append_low _ _))
  | 3, _ =>
    exact (dword_append_high _ _ 64).trans ((dword_append_high _ _ 32).trans
      ((dword_append_high _ _ 0).trans BitVec.extractLsb'_eq_self))

theorem lane_ext {a b : Lane} (h : ∀ t, t < 4 → laneDword a t = laneDword b t) : a = b := by
  refine BitVec.eq_of_getLsbD_eq fun i hi => ?_
  have h4 := congrArg (fun d : Dword => d.getLsbD (i % 32)) (h (i / 32) (by omega))
  have h32 : i % 32 < 32 := by omega
  simpa only [laneDword, BitVec.getLsbD_extractLsb', h32, decide_true, Bool.true_and, Nat.div_add_mod] using h4

@[simp] theorem laneOfDwords_laneDword (a : Lane) : laneOfDwords (laneDword a) = a :=
  lane_ext fun _ h => laneDword_laneOfDwords _ h

theorem orderField_lt (order : Byte) (t : Nat) : orderField order t < 4 := by
  unfold orderField
  exact BitVec.isLt _

/-- The shift and truncation of Shuffle128 select one doubleword (40_pshufd_sse.md R100). -/
theorem shift_selects (s : Lane) (n : Nat) : (s >>> (n * 32)).setWidth 32 = laneDword s n := by
  ext i hi
  simp [laneDword, Nat.mul_comm]

/-- Result doubleword t of Shuffle128 is source doubleword `order[2t+1:2t]` (40_pshufd_sse.md R100). -/
theorem laneDword_shuffle128 (s : Lane) (order : Byte) {t : Nat} (h : t < 4) :
    laneDword (shuffle128 s order) t = laneDword s (orderField order t) := by
  unfold shuffle128
  rw [laneDword_laneOfDwords _ h, shift_selects]

theorem vlLanes_le (vl : VL) : vlLanes vl ≤ 4 := by cases vl <;> decide

theorem vlLanes_pos (vl : VL) : 0 < vlLanes vl := by cases vl <;> decide

theorem laneOf_shuffleLanes (vl : VL) (s : Zmm) (order : Byte) (l : Nat) :
    laneOf (shuffleLanes vl s order) l = if l < vlLanes vl then shuffle128 (laneOf s l) order else 0#128 := by
  unfold shuffleLanes
  rw [laneOf_lowLanes]
  split
  · have : l < 4 := by have := vlLanes_le vl; omega
    rw [laneOf_zmmOf _ this]
  · rfl

theorem shuffleLanes_lowLanes (vl : VL) (s : Zmm) (order : Byte) :
    shuffleLanes vl (lowLanes (vlLanes vl) s) order = shuffleLanes vl s order := by
  refine zmm_ext fun l _ => ?_
  simp only [laneOf_shuffleLanes, laneOf_lowLanes]
  split <;> rfl

/-- Nothing of the result lies above VL. -/
theorem lowLanes_shuffleLanes (vl : VL) (s : Zmm) (order : Byte) :
    lowLanes (vlLanes vl) (shuffleLanes vl s order) = shuffleLanes vl s order := by
  unfold shuffleLanes
  exact lowLanes_idem _ _

theorem laneOf_evexMerge (vl : VL) (aaa : BitVec 3) (mask : Quad) (z : Bool) (old tmp : Zmm) (l : Nat) :
    laneOf (evexMerge vl aaa mask z old tmp) l =
      if l < vlLanes vl then maskedLane aaa mask z l (laneOf old l) (laneOf tmp l) else 0#128 := by
  unfold evexMerge
  rw [laneOf_lowLanes]
  split
  · have : l < 4 := by have := vlLanes_le vl; omega
    rw [laneOf_zmmOf _ this]
  · rfl

theorem laneDword_maskedLane (aaa : BitVec 3) (mask : Quad) (z : Bool) (l : Nat) (old tmp : Lane) {t : Nat} (h : t < 4) :
    laneDword (maskedLane aaa mask z l old tmp) t =
      if maskOn aaa mask (4 * l + t) then laneDword tmp t else if !z then laneDword old t else 0#32 := by
  unfold maskedLane
  rw [laneDword_laneOfDwords _ h]

@[simp] theorem laneDword_zero (t : Nat) : laneDword 0#128 t = 0#32 := by simp [laneDword]

theorem lowLanes_evexMerge (vl : VL) (aaa : BitVec 3) (mask : Quad) (z : Bool) (old tmp : Zmm) :
    lowLanes (vlLanes vl) (evexMerge vl aaa mask z old tmp) = evexMerge vl aaa mask z old tmp := by
  unfold evexMerge
  exact lowLanes_idem _ _

theorem laneOf_broadcast (vl : VL) (d : Dword) (l : Nat) :
    laneOf (broadcast vl d) l = if l < vlLanes vl then laneOfDwords (fun _ => d) else 0#128 := by
  unfold broadcast
  rw [laneOf_lowLanes]
  split
  · have : l < 4 := by have := vlLanes_le vl; omega
    rw [laneOf_zmmOf _ this]
  · rfl

/-! ## Bytes -/

theorem laneOfBytes_cons (b : Byte) (bs : List Byte) :
    laneOfBytes (b :: bs) = (laneOfBytes bs <<< 8) ||| b.setWidth 128 := rfl

/-- Byte i of the value is byte i of the operand (20_memory.md R42). -/
theorem laneOfBytes_byte (bs : List Byte) : ∀ i, i < 16 →
    (laneOfBytes bs).extractLsb' (8 * i) 8 = bs.getD i 0#8 := by
  induction bs with
  | nil => intro i _; simp [laneOfBytes]
  | cons b bs ih =>
    intro i hi
    rw [laneOfBytes_cons]
    cases i with
    | zero =>
      ext j hj
      simp only [Nat.mul_zero, BitVec.getElem_extractLsb', Nat.zero_add, BitVec.getLsbD_or, BitVec.getLsbD_shiftLeft,
        BitVec.getLsbD_setWidth, List.getD_cons_zero]
      have h1 : j < 128 := by omega
      simp [hj, h1, BitVec.getLsbD_eq_getElem]
    | succ i =>
      have hi' := ih i (by omega)
      rw [List.getD_cons_succ, ← hi']
      ext j hj
      simp only [BitVec.getElem_extractLsb', BitVec.getLsbD_or, BitVec.getLsbD_shiftLeft, BitVec.getLsbD_setWidth]
      have h1 : 8 * (i + 1) + j < 128 := by omega
      have h2 : ¬ 8 * (i + 1) + j < 8 := by omega
      have h3 : 8 * (i + 1) + j - 8 = 8 * i + j := by omega
      simp only [h1, h2, h3, decide_true, decide_false, Bool.true_and, Bool.not_false, BitVec.getLsbD_of_ge b _ (by omega : 8 ≤ 8 * (i + 1) + j),
        Bool.or_false]

end Sys2Proof.Machine
end

