-- ==== Sys2Proof/Laws/Ops.lean ====
section
/-! SUPPORT. What each shared operation can do, said once: the checks before execution, the translation, MemRead, reading
operand 2. -/

namespace Sys2Proof.Machine

open Sys2Proof

/-! ## Exceptions -/

/-- Every exception leaves the state as it was (60_exceptions.md R150, R152). -/
theorem raise_fault (e : Exc) (s : State) : ∃ f, raise e s = .fault f ∧ leftState f = s := by
  cases e <;> exact ⟨_, rfl, rfl⟩

theorem raise_ne_next (e : Exc) (s t : State) : raise e s ≠ .next t := by
  cases e <;> intro h <;> cases h

theorem raise_ne_refused (e : Exc) (s : State) (r : Refusal) : raise e s ≠ .refused r := by
  cases e <;> intro h <;> cases h

theorem raise_injective {a b : Exc} {s : State} (h : raise a s = raise b s) : a = b := by
  cases a <;> cases b <;> simp_all [raise]

/-! ## Checks before execution -/

theorem nextPc_eq (s : State) (len : Nat) :
    nextPc s len = some (nextAddress s len) ∧ SuccessorInside s len ∨ nextPc s len = none ∧ ¬ SuccessorInside s len := by
  unfold nextPc SuccessorInside nextAddress
  split
  · refine .inl ⟨?_, ‹_›⟩
    congr 1
    rw [BitVec.ofNat_add, BitVec.ofNat_toNat, BitVec.setWidth_eq]
  · exact .inr ⟨rfl, ‹_›⟩

theorem nextPc_of_inside {s : State} {len : Nat} (h : SuccessorInside s len) : nextPc s len = some (nextAddress s len) := by
  rcases nextPc_eq s len with ⟨e, _⟩ | ⟨_, n⟩
  · exact e
  · exact absurd h n

theorem nextPc_of_outside {s : State} {len : Nat} (h : ¬ SuccessorInside s len) : nextPc s len = none := by
  rcases nextPc_eq s len with ⟨_, n⟩ | ⟨e, _⟩
  · exact absurd n h
  · exact e

/-- The successor address, where it is inside, is the sum without wrapping. -/
theorem nextAddress_toNat {s : State} {len : Nat} (h : SuccessorInside s len) :
    (nextAddress s len).toNat = s.pc.toNat + len := by
  have hw : pcWidth s.mode ≤ 64 := by cases s.mode <;> decide
  have hp : 2 ^ pcWidth s.mode ≤ 2 ^ 64 := Nat.pow_le_pow_right (by omega) hw
  have := h.1
  unfold nextAddress
  rw [BitVec.toNat_add, BitVec.toNat_ofNat, Nat.add_mod_mod, Nat.mod_eq_of_lt (by omega)]

/-- The five ways the checks before execution end (60_exceptions.md R151). -/
theorem guarded_cases (s : State) (len : Nat) (ud : Bool) (body : Quad → Outcome) :
    (15 < len ∧ guarded s len ud body = raise .gp s) ∨
    (len ≤ 15 ∧ ud = true ∧ guarded s len ud body = raise .ud s) ∨
    (len ≤ 15 ∧ ud = false ∧ s.ts = true ∧ guarded s len ud body = raise .nm s) ∨
    (len ≤ 15 ∧ ud = false ∧ s.ts = false ∧ ¬ SuccessorInside s len ∧ guarded s len ud body = .refused .successorOutside) ∨
    (len ≤ 15 ∧ ud = false ∧ s.ts = false ∧ SuccessorInside s len ∧ guarded s len ud body = body (nextAddress s len)) := by
  unfold guarded lengthLimit
  by_cases hl : 15 < len
  · exact .inl ⟨hl, if_pos hl⟩
  · rw [if_neg hl]
    have hl' : len ≤ 15 := by omega
    cases ud
    · cases ht : s.ts
      · by_cases hs : SuccessorInside s len
        · exact .inr (.inr (.inr (.inr ⟨hl', rfl, rfl, hs, by simp [nextPc_of_inside hs]⟩)))
        · exact .inr (.inr (.inr (.inl ⟨hl', rfl, rfl, hs, by simp [nextPc_of_outside hs]⟩)))
      · exact .inr (.inr (.inl ⟨hl', rfl, rfl, by simp⟩))
    · exact .inr (.inl ⟨hl', rfl, by simp⟩)

theorem guarded_run {s : State} {len : Nat} {ud : Bool} (body : Quad → Outcome) (hl : len ≤ 15) (hu : ud = false)
    (ht : s.ts = false) (hs : SuccessorInside s len) : guarded s len ud body = body (nextAddress s len) := by
  rcases guarded_cases s len ud body with h | h | h | h | h
  · omega
  · simp_all
  · simp_all
  · exact absurd hs h.2.2.2.1
  · exact h.2.2.2.2

/-! ## Translation -/

/-- Every byte of an operand has a location or a page fault, never both. -/
theorem byte_located_or_faults (s : State) (seg : SegReg) (ea : Quad) (i : Nat) :
    (∃ l, byteLocation s seg ea i = some l ∧ bytePageFault s seg ea i = none) ∨
    (∃ e, byteLocation s seg ea i = none ∧ bytePageFault s seg ea i = some e) := by
  unfold byteLocation bytePageFault
  cases walk s (byteLinear s seg ea i) with
  | mapped l => exact .inl ⟨l, rfl, rfl⟩
  | denied p r k => exact .inr ⟨_, rfl, rfl⟩

theorem filterMap_length_of_none {α β γ : Type} (f : α → Option β) (g : α → Option γ)
    (h : ∀ a, (f a = none) → (g a).isSome) (as : List α) (hn : as.filterMap f = []) :
    (as.filterMap g).length = as.length := by
  induction as with
  | nil => rfl
  | cons a as ih =>
    have hf : f a = none := by
      cases hfa : f a with
      | none => rfl
      | some b => simp [hfa] at hn
    obtain ⟨c, hc⟩ := Option.isSome_iff_exists.1 (h a hf)
    rw [List.filterMap_cons, hf] at hn
    simp [hc, ih hn]

/-- An accepted operand of n bytes has n locations (20_memory.md R49). -/
theorem translateRead_ok_length {s : State} {seg : SegReg} {ea : Quad} {n : Nat} {locs : List Nat}
    (h : translateRead s seg ea n = .ok locs) : locs.length = n := by
  unfold translateRead at h
  cases hs : segFault s seg ea n with
  | some e => simp [hs] at h
  | none =>
    simp only [hs] at h
    split at h
    · rename_i hp
      cases h
      rw [filterMap_length_of_none _ _ _ _ hp, List.length_range]
      intro i hi
      rcases byte_located_or_faults s seg ea i with ⟨l, hl, _⟩ | ⟨e, _, he⟩
      · simp [hl]
      · rw [hi] at he
        cases he
    · cases h

/-! ## MemRead -/

/-- An operand of private memory is read byte by byte as memory holds it (20_memory.md R46, R52). -/
theorem readBytes_private {s : State} {locs : List Nat} (h : ∀ l ∈ locs, regionAt s l = none) :
    ∃ es, readBytes s locs = .got es ∧ es.map ReadEvent.byte = locs.map (memByte s.mem) ∧
      es.map ReadEvent.location = locs := by
  have hd : (locs.any fun l => regionAt s l = some .device) = false := by
    simp only [List.any_eq_false, decide_eq_true_eq]
    intro l hl
    rw [h l hl]
    exact fun hh => by cases hh
  refine ⟨_, by simp only [readBytes, hd]; rfl, ?_, ?_⟩
  · rw [List.map_map]
    have : ∀ p ∈ locs.zipIdx, (ReadEvent.byte ∘ fun li : Nat × Nat =>
        ({ location := li.1, byte := oracleByte s li.2 li.1 } : ReadEvent)) p = (memByte s.mem ∘ Prod.fst) p := by
      intro p hp
      have hm : p.1 ∈ locs := List.fst_mem_of_mem_zipIdx hp
      simp [oracleByte, h _ hm]
    rw [List.map_congr_left this, ← List.map_map]
    congr 1
    exact List.zipIdx_map_fst 0 locs
  · rw [List.map_map]
    exact List.zipIdx_map_fst 0 locs

/-- What MemRead can answer (20_memory.md R50). -/
theorem memRead_cases (s : State) (legacy : Bool) (seg : SegReg) (ea : Quad) (n : Nat) :
    (∃ locs es, translateRead s seg ea n = .ok locs ∧ misaligned s legacy seg ea = false ∧
      acTaken s legacy seg ea n = false ∧ readBytes s locs = .got es ∧ memRead s legacy seg ea n = .got es) ∨
    (∃ locs, translateRead s seg ea n = .ok locs ∧ misaligned s legacy seg ea = false ∧
      acTaken s legacy seg ea n = false ∧ (∃ l ∈ locs, regionAt s l = some .device) ∧
      memRead s legacy seg ea n = .stops .deviceOperand) ∨
    (misaligned s legacy seg ea = true ∧ memRead s legacy seg ea n = .raises .gp) ∨
    (∃ locs, translateRead s seg ea n = .ok locs ∧ acTaken s legacy seg ea n = true ∧ memRead s legacy seg ea n = .raises .ac) ∨
    (∃ e, translateRead s seg ea n = .fault e ∧ (e = .ss ∨ misaligned s legacy seg ea = false) ∧
      memRead s legacy seg ea n = .raises e) := by
  cases ht : translateRead s seg ea n with
  | fault e =>
    cases hm : misaligned s legacy seg ea
    · refine .inr (.inr (.inr (.inr ⟨e, rfl, .inr rfl, ?_⟩)))
      cases e <;> simp [memRead, ht, hm]
    · by_cases he : e = .ss
      · subst he
        cases hc : Config.ssBeforeGp s.tick
        · exact .inr (.inr (.inl ⟨rfl, by simp [memRead, ht, hm, hc]⟩))
        · exact .inr (.inr (.inr (.inr ⟨_, rfl, .inl rfl, by simp [memRead, ht, hc]⟩)))
      · refine .inr (.inr (.inl ⟨rfl, ?_⟩))
        cases e <;> simp_all [memRead]
  | ok locs =>
    cases hm : misaligned s legacy seg ea
    · cases ha : acTaken s legacy seg ea n
      · by_cases hd : (locs.any fun l => regionAt s l = some .device) = true
        · refine .inr (.inl ⟨locs, rfl, rfl, rfl, ?_, by simp [memRead, ht, hm, ha, readBytes, hd]⟩)
          simpa using hd
        · refine .inl ⟨locs, _, rfl, rfl, rfl, by simp only [readBytes, hd]; rfl, ?_⟩
          simp only [memRead, ht, hm, ha, readBytes, hd]
          rfl
      · exact .inr (.inr (.inr (.inl ⟨locs, rfl, rfl, by simp [memRead, ht, hm, ha]⟩)))
    · exact .inr (.inr (.inl ⟨rfl, by simp [memRead, ht, hm]⟩))

/-- A readable operand is read (20_memory.md R50, R52). -/
theorem memRead_readable {s : State} {legacy : Bool} {seg : SegReg} {ea : Quad} {n : Nat} {locs : List Nat}
    (hr : Readable s seg ea n locs) (hm : misaligned s legacy seg ea = false) (ha : acTaken s legacy seg ea n = false) :
    ∃ es, memRead s legacy seg ea n = .got es ∧ es.map ReadEvent.byte = locs.map (memByte s.mem) ∧
      es.map ReadEvent.location = locs := by
  obtain ⟨es, h1, h2, h3⟩ := readBytes_private hr.2
  exact ⟨es, by simp [memRead, hr.1, hm, ha, h1], h2, h3⟩

/-- MemRead never raises `#UD` or `#NM`. -/
theorem translateRead_fault_kind {s : State} {seg : SegReg} {ea : Quad} {n : Nat} {e : Exc}
    (h : translateRead s seg ea n = .fault e) :
    e = .ss ∨ e = .gp ∨ ∃ p rsvd pk la, e = .pf (pfCode s p rsvd pk) la := by
  unfold translateRead at h
  cases hs : segFault s seg ea n with
  | some e' =>
    simp only [hs] at h
    cases h
    unfold segFault at hs
    split at hs <;> split at hs <;> (try split at hs) <;> simp_all
  | none =>
    simp only [hs] at h
    split at h
    · cases h
    · rename_i f fs hp
      cases h
      have hmem : ∀ x ∈ f :: fs, ∃ p rsvd pk la, x = Exc.pf (pfCode s p rsvd pk) la := by
        intro x hx
        rw [← hp] at hx
        obtain ⟨i, _, hi⟩ := List.mem_filterMap.1 hx
        unfold bytePageFault at hi
        split at hi
        · cases hi
        · cases hi
          exact ⟨_, _, _, _, rfl⟩
      refine .inr (.inr (hmem _ ?_))
      rw [List.getD_eq_getElem?_getD]
      cases hg : (f :: fs)[s.machine.reportedByte % (f :: fs).length]? with
      | none => simp
      | some y => exact List.mem_of_getElem? hg

end Sys2Proof.Machine
end

