-- ==== Sys2Proof/Laws/Exec.lean ====
section
/-! SUPPORT. Every instruction in one shape: the checks, operand 2, the value, the completion (exec_eq); its inversion
(exec_cases, exec_next) and what a step can do (step_cases). Later proofs cite these instead of unfolding a meaning. -/

namespace Sys2Proof.Machine

open Sys2Proof

/-- The `#UD` test of an instruction. -/
def udOf (s : State) : Instr → Bool
  | .pshufd p _ => legacyUd s p
  | .vpshufdVex128C5 p e _ => vexUd s .v128 p e.vvvv
  | .vpshufdVex128C4 p e _ => vexUd s .v128 p e.vvvv
  | .vpshufdVex256C5 p e _ => vexUd s .v256 p e.vvvv
  | .vpshufdVex256C4 p e _ => vexUd s .v256 p e.vvvv
  | .vpshufdEvex128 p e b => evexUd s .v128 p e b.rm
  | .vpshufdEvex256 p e b => evexUd s .v256 p e b.rm
  | .vpshufdEvex512 p e b => evexUd s .v512 p e b.rm

/-- Operand 2 of an instruction. -/
def sourceOf (s : State) (next : Quad) : Instr → Got Source
  | .pshufd p b => readSource s true .v128 p (legacyExt p) b.rm next
  | .vpshufdVex128C5 p _ b => readSource s false .v128 p vex2Ext b.rm next
  | .vpshufdVex128C4 p e b => readSource s false .v128 p (vex3Ext e) b.rm next
  | .vpshufdVex256C5 p _ b => readSource s false .v256 p vex2Ext b.rm next
  | .vpshufdVex256C4 p e b => readSource s false .v256 p (vex3Ext e) b.rm next
  | .vpshufdEvex128 p e b => evexSource s .v128 p e b.rm next
  | .vpshufdEvex256 p e b => evexSource s .v256 p e b.rm next
  | .vpshufdEvex512 p e b => evexSource s .v512 p e b.rm next

/-- The value an instruction writes, from operand 2. -/
def valueOf (s : State) (src : Zmm) : Instr → Zmm
  | .pshufd p b => legacyMerge (s.getV (legacyDest p b)) (shuffle128 src.lane0 b.order)
  | .vpshufdVex128C5 _ _ b => shuffleLanes .v128 src b.order
  | .vpshufdVex128C4 _ _ b => shuffleLanes .v128 src b.order
  | .vpshufdVex256C5 _ _ b => shuffleLanes .v256 src b.order
  | .vpshufdVex256C4 _ _ b => shuffleLanes .v256 src b.order
  | .vpshufdEvex128 _ e b =>
    evexMerge .v128 e.aaa (s.getK e.aaa) e.z (s.getV (evexDest e b)) (shuffleLanes .v128 src b.order)
  | .vpshufdEvex256 _ e b =>
    evexMerge .v256 e.aaa (s.getK e.aaa) e.z (s.getV (evexDest e b)) (shuffleLanes .v256 src b.order)
  | .vpshufdEvex512 _ e b =>
    evexMerge .v512 e.aaa (s.getK e.aaa) e.z (s.getV (evexDest e b)) (shuffleLanes .v512 src b.order)

/-- The one shape of all meanings. -/
theorem exec_eq (i : Instr) (s : State) :
    exec i s = guarded s (instrLength i) (udOf s i) fun next =>
      withGot s (sourceOf s next i) fun src =>
        .next (complete s (destNumber i) (valueOf s src.value i) next src.events) := by
  cases i <;> rfl

/-- All the ways an instruction ends. -/
theorem exec_cases (i : Instr) (s : State) :
    (15 < instrLength i ∧ exec i s = raise .gp s) ∨
    (instrLength i ≤ 15 ∧ udOf s i = true ∧ exec i s = raise .ud s) ∨
    (instrLength i ≤ 15 ∧ udOf s i = false ∧ s.ts = true ∧ exec i s = raise .nm s) ∨
    (instrLength i ≤ 15 ∧ udOf s i = false ∧ s.ts = false ∧ ¬ SuccessorInside s (instrLength i) ∧
      exec i s = .refused .successorOutside) ∨
    (instrLength i ≤ 15 ∧ udOf s i = false ∧ s.ts = false ∧ SuccessorInside s (instrLength i) ∧
      ((∃ src, sourceOf s (nextAddress s (instrLength i)) i = .got src ∧
          exec i s = .next (complete s (destNumber i) (valueOf s src.value i) (nextAddress s (instrLength i)) src.events)) ∨
        (∃ e, sourceOf s (nextAddress s (instrLength i)) i = .raises e ∧ exec i s = raise e s) ∨
        (∃ r, sourceOf s (nextAddress s (instrLength i)) i = .stops r ∧ exec i s = .refused r))) := by
  rw [exec_eq]
  rcases guarded_cases s (instrLength i) (udOf s i) _ with h | h | h | h | ⟨h1, h2, h3, h4, h5⟩
  · exact .inl h
  · exact .inr (.inl h)
  · exact .inr (.inr (.inl h))
  · exact .inr (.inr (.inr (.inl h)))
  · refine .inr (.inr (.inr (.inr ⟨h1, h2, h3, h4, ?_⟩)))
    rw [h5]
    cases hg : sourceOf s (nextAddress s (instrLength i)) i with
    | got src => exact .inl ⟨src, rfl, rfl⟩
    | raises e => exact .inr (.inl ⟨e, rfl, rfl⟩)
    | stops r => exact .inr (.inr ⟨r, rfl, rfl⟩)

/-- What holds when an instruction completes. -/
theorem exec_next {i : Instr} {s t : State} (h : exec i s = .next t) :
    instrLength i ≤ 15 ∧ udOf s i = false ∧ s.ts = false ∧ SuccessorInside s (instrLength i) ∧
      ∃ src, sourceOf s (nextAddress s (instrLength i)) i = .got src ∧
        t = complete s (destNumber i) (valueOf s src.value i) (nextAddress s (instrLength i)) src.events := by
  rcases exec_cases i s with h' | h' | h' | h' | ⟨h1, h2, h3, h4, h5⟩
  · exact absurd (h'.2 ▸ h) (raise_ne_next _ _ _)
  · exact absurd (h'.2.2 ▸ h) (raise_ne_next _ _ _)
  · exact absurd (h'.2.2.2 ▸ h) (raise_ne_next _ _ _)
  · rw [h'.2.2.2.2] at h
    cases h
  · refine ⟨h1, h2, h3, h4, ?_⟩
    rcases h5 with ⟨src, hs, he⟩ | ⟨e, _, he⟩ | ⟨r, _, he⟩
    · rw [he] at h
      cases h
      exact ⟨src, hs, rfl⟩
    · exact absurd (he ▸ h) (raise_ne_next _ _ _)
    · rw [he] at h
      cases h

/-- When nothing stands in the way, the outcome is operand 2's. -/
theorem exec_run {i : Instr} {s : State} (hl : instrLength i ≤ 15) (hu : udOf s i = false) (ht : s.ts = false)
    (hs : SuccessorInside s (instrLength i)) :
    exec i s = withGot s (sourceOf s (nextAddress s (instrLength i)) i) fun src =>
      .next (complete s (destNumber i) (valueOf s src.value i) (nextAddress s (instrLength i)) src.events) := by
  rw [exec_eq]
  exact guarded_run _ hl hu ht hs

/-! ## The `#UD` tests and the conditions of 60_exceptions.md R141 to R143 -/

theorem badPrefix_iff (p : Prefixes) : badPrefix p = false ↔ PrefixesAllowed p := by
  simp [badPrefix, PrefixesAllowed, and_assoc]

theorem legacyUd_iff (s : State) (p : Prefixes) : legacyUd s p = false ↔ SseNoUd s p := by
  simp [legacyUd, SseNoUd, State.em, State.osfxsr, State.feat, and_assoc]

theorem vexUd_iff (s : State) (vl : VL) (p : Prefixes) (vvvv : BitVec 4) :
    vexUd s vl p vvvv = false ↔ VexNoUd s (vexFeature s.feat vl) p vvvv := by
  unfold vexUd VexNoUd
  simp only [Bool.or_eq_false_iff, badPrefix_iff, isRealOrV86, State.osxsave, State.xcr0Avx]
  simp [and_assoc]

theorem evexUd_iff (s : State) (vl : VL) (p : Prefixes) (e : Evex) (rm : Rm) :
    evexUd s vl p e rm = false ↔ EvexNoUd s (evexFeature s.feat vl) p e rm := by
  have hreg : isRegister rm = false ↔ ∀ r, rm ≠ .reg r := by cases rm <;> simp [isRegister]
  unfold evexUd EvexNoUd VexNoUd evexReserved
  simp only [Bool.or_eq_false_iff, badPrefix_iff, isRealOrV86, State.osxsave, State.xcr0Avx, State.xcr0Avx512,
    Bool.not_eq_false', Bool.and_eq_true, Bool.and_eq_false_imp, decide_eq_false_iff_not, hreg, not_not, ne_eq]
  tauto

theorem udOf_iff (s : State) (i : Instr) : udOf s i = false ↔ NoUd s i := by
  cases i with
  | pshufd p b => exact legacyUd_iff s p
  | vpshufdVex128C5 p e b => exact vexUd_iff s .v128 p e.vvvv
  | vpshufdVex128C4 p e b => exact vexUd_iff s .v128 p e.vvvv
  | vpshufdVex256C5 p e b => exact vexUd_iff s .v256 p e.vvvv
  | vpshufdVex256C4 p e b => exact vexUd_iff s .v256 p e.vvvv
  | vpshufdEvex128 p e b => exact evexUd_iff s .v128 p e b.rm
  | vpshufdEvex256 p e b => exact evexUd_iff s .v256 p e b.rm
  | vpshufdEvex512 p e b => exact evexUd_iff s .v512 p e b.rm

theorem exec_runnable {i : Instr} {s : State} (h : Runnable s i) :
    exec i s = withGot s (sourceOf s (nextAddress s (instrLength i)) i) fun src =>
      .next (complete s (destNumber i) (valueOf s src.value i) (nextAddress s (instrLength i)) src.events) :=
  exec_run h.1 ((udOf_iff s i).2 h.2.1) h.2.2.1 h.2.2.2

/-! ## Operand 2 -/

/-- A register source: the low VL bits of the register, no memory access. -/
theorem sourceOf_register {i : Instr} {n : BitVec 5} (h : sourceNumber i = some n) (s : State) (next : Quad) :
    sourceOf s next i = .got { value := lowLanes (vlLanes (lengthOf i)) (s.getV n), events := [] } := by
  have key (b : Body) (f : BitVec 3 → BitVec 5)
      (hb : (match b.rm with | .reg r => some (f r) | _ => none) = some n) : ∃ r, b.rm = .reg r ∧ f r = n := by
    cases hr : b.rm <;> simp_all
  cases i <;> obtain ⟨r, hr, hn⟩ := key _ _ h <;> subst hn <;> simp [sourceOf, readSource, evexSource, hr, lengthOf]

/-- A memory operand: MemRead of the operand's bytes, and the value they make. -/
theorem readSource_memory {s : State} {legacy : Bool} {vl : VL} {p : Prefixes} {e : Ext} {rm : Rm} {next : Quad}
    {ad : Addressing} (h : addressing s.mode e 1 rm = some ad) :
    readSource s legacy vl p e rm next =
      mapGot (fun es => { value := zmmOfBytes (eventBytes es), events := es })
        (readOperand s legacy p ad next (vlBytes vl)) := by
  cases rm <;> simp_all [readSource, addressing]

theorem evexSource_memory {s : State} {vl : VL} {p : Prefixes} {e : Evex} {rm : Rm} {next : Quad} {ad : Addressing}
    (h : addressing s.mode (evexExt e) (evexBytes vl e.bcast) rm = some ad) :
    evexSource s vl p e rm next =
      if isDisp8Addr16 rm then .stops .evexDisp8Addr16
      else
        mapGot
          (fun es =>
            { value :=
                if e.bcast then broadcast vl ((laneOfBytes (eventBytes es)).setWidth 32)
                else zmmOfBytes (eventBytes es),
              events := es })
          (readOperand s false p ad next (evexBytes vl e.bcast)) := by
  cases rm <;> simp_all [evexSource, addressing]

/-- The value of operand 2 from the bytes of a memory operand (42_vpshufd_evex.md R120). -/
def operandValue (i : Instr) (bs : List Byte) : Zmm :=
  if (evexOf i).any Evex.bcast then broadcast (lengthOf i) ((laneOfBytes bs).setWidth 32) else zmmOfBytes bs

/-- Operand 2 in memory: the refusal of an EVEX disp8 with 16-bit addresses, else MemRead. -/
theorem sourceOf_memory {i : Instr} {s : State} {seg : SegReg} {ea : Quad} {n : Nat}
    (h : memOperand s i = some (seg, ea, n)) :
    sourceOf s (nextAddress s (instrLength i)) i =
      if (evexOf i).isSome && isDisp8Addr16 (bodyOf i).rm then .stops .evexDisp8Addr16
      else mapGot (fun es => { value := operandValue i (eventBytes es), events := es })
        (memRead s (vvvvOf i).isNone seg ea n) := by
  cases i with
  | pshufd p b =>
    obtain ⟨ad, had, he⟩ := Option.map_eq_some_iff.1 h
    cases he
    exact readSource_memory had
  | vpshufdVex128C5 p e b =>
    obtain ⟨ad, had, he⟩ := Option.map_eq_some_iff.1 h
    cases he
    exact readSource_memory had
  | vpshufdVex128C4 p e b =>
    obtain ⟨ad, had, he⟩ := Option.map_eq_some_iff.1 h
    cases he
    exact readSource_memory had
  | vpshufdVex256C5 p e b =>
    obtain ⟨ad, had, he⟩ := Option.map_eq_some_iff.1 h
    cases he
    exact readSource_memory had
  | vpshufdVex256C4 p e b =>
    obtain ⟨ad, had, he⟩ := Option.map_eq_some_iff.1 h
    cases he
    exact readSource_memory had
  | vpshufdEvex128 p e b =>
    obtain ⟨ad, had, he⟩ := Option.map_eq_some_iff.1 h
    cases he
    exact evexSource_memory had
  | vpshufdEvex256 p e b =>
    obtain ⟨ad, had, he⟩ := Option.map_eq_some_iff.1 h
    cases he
    exact evexSource_memory had
  | vpshufdEvex512 p e b =>
    obtain ⟨ad, had, he⟩ := Option.map_eq_some_iff.1 h
    cases he
    exact evexSource_memory had

/-- Operand 2 is a register or in memory (30_encoding.md R64). -/
theorem register_or_memory (i : Instr) (s : State) :
    (∃ n, sourceNumber i = some n ∧ memOperand s i = none) ∨
      (sourceNumber i = none ∧ ∃ seg ea n, memOperand s i = some (seg, ea, n) ∧
        n = if (evexOf i).any Evex.bcast then 4 else vlBytes (lengthOf i)) := by
  cases i <;> rename_i b <;> cases hb : b.rm <;>
    simp [sourceNumber, memOperand, hb, addressing, evexOf, lengthOf, vlBytes, vlLanes] <;> rfl

/-- Nothing but MemRead's byte reads, `#UD`, `#NM` and `#GP(0)` for length end an instruction. -/
theorem memRead_no_ud {s : State} {legacy : Bool} {seg : SegReg} {ea : Quad} {n : Nat} {e : Exc}
    (h : memRead s legacy seg ea n = .raises e) : e ≠ .ud ∧ e ≠ .nm := by
  rcases memRead_cases s legacy seg ea n with ⟨_, _, _, _, _, _, hm⟩ | ⟨_, _, _, _, _, hm⟩ | ⟨_, hm⟩ | ⟨_, _, _, hm⟩ |
      ⟨e', ht, _, hm⟩ <;> rw [hm] at h <;> cases h
  · simp
  · simp
  · rcases translateRead_fault_kind ht with rfl | rfl | ⟨_, _, _, _, rfl⟩ <;> simp

/-! ## The step -/

/-- What a step can do. -/
theorem step_cases (s : State) :
    (s.programEnd = some s.pc ∧ step s = .refused .programEnded) ∨
    (s.programEnd ≠ some s.pc ∧ ∃ i rest, decode s.mode (window s) = .instr i rest ∧ step s = exec i s) ∨
    (s.programEnd ≠ some s.pc ∧ ∃ len, decode s.mode (window s) = .reserved len ∧ step s = reservedOutcome len s) ∨
    (s.programEnd ≠ some s.pc ∧ ∃ r, decode s.mode (window s) = .refused r ∧ step s = .refused (refusalOf r)) := by
  unfold step
  by_cases h : s.programEnd = some s.pc
  · exact .inl ⟨h, if_pos h⟩
  · rw [if_neg h]
    cases hd : decode s.mode (window s) with
    | instr i rest => exact .inr (.inl ⟨h, i, rest, rfl, rfl⟩)
    | reserved len => exact .inr (.inr (.inl ⟨h, len, rfl, rfl⟩))
    | refused r => exact .inr (.inr (.inr ⟨h, r, rfl, rfl⟩))

/-- A step that gives a next state ran an instruction. -/
theorem step_next {s t : State} (h : step s = .next t) :
    ∃ i rest, decode s.mode (window s) = .instr i rest ∧ exec i s = .next t := by
  rcases step_cases s with ⟨_, he⟩ | ⟨_, i, rest, hd, he⟩ | ⟨_, len, _, he⟩ | ⟨_, r, _, he⟩
  · rw [he] at h; cases h
  · exact ⟨i, rest, hd, he ▸ h⟩
  · rw [he] at h
    unfold reservedOutcome at h
    split at h <;> exact absurd h (raise_ne_next _ _ _)
  · rw [he] at h; cases h

end Sys2Proof.Machine
end

