-- ==== Sys2Proof/Laws/PerInstr.lean ====
section
/-! SUPPORT. Statements about every instruction as syntax, one lemma for each constructor of Instr. -/

namespace Sys2Proof.Laws.EncodeLength

open Sys2Proof

/-- The encoder writes as many bytes as `len` says (30_encoding.md R60). -/
def Statement (i : Instr) : Prop := (encode i).length = instrLength i

theorem pshufd (p : Prefixes) (b : Body) : Statement (.pshufd p b) := by
  simp only [Statement, encode, instrLength, List.length_append, length_encodePrefixes, length_encodeBody, List.length_cons,
    List.length_nil]
  omega

theorem vpshufdVex128C5 (p : Prefixes) (e : Vex2) (b : Body) : Statement (.vpshufdVex128C5 p e b) := by
  simp only [Statement, encode, encodeVex2, instrLength, List.length_append, length_encodePrefixes, length_encodeBody,
    List.length_cons, List.length_nil]
  omega

theorem vpshufdVex128C4 (p : Prefixes) (e : Vex3) (b : Body) : Statement (.vpshufdVex128C4 p e b) := by
  simp only [Statement, encode, encodeVex3, instrLength, List.length_append, length_encodePrefixes, length_encodeBody,
    List.length_cons, List.length_nil]
  omega

theorem vpshufdVex256C5 (p : Prefixes) (e : Vex2) (b : Body) : Statement (.vpshufdVex256C5 p e b) := by
  simp only [Statement, encode, encodeVex2, instrLength, List.length_append, length_encodePrefixes, length_encodeBody,
    List.length_cons, List.length_nil]
  omega

theorem vpshufdVex256C4 (p : Prefixes) (e : Vex3) (b : Body) : Statement (.vpshufdVex256C4 p e b) := by
  simp only [Statement, encode, encodeVex3, instrLength, List.length_append, length_encodePrefixes, length_encodeBody,
    List.length_cons, List.length_nil]
  omega

theorem vpshufdEvex128 (p : Prefixes) (e : Evex) (b : Body) : Statement (.vpshufdEvex128 p e b) := by
  simp only [Statement, encode, encodeEvex, instrLength, List.length_append, length_encodePrefixes, length_encodeBody,
    List.length_cons, List.length_nil]
  omega

theorem vpshufdEvex256 (p : Prefixes) (e : Evex) (b : Body) : Statement (.vpshufdEvex256 p e b) := by
  simp only [Statement, encode, encodeEvex, instrLength, List.length_append, length_encodePrefixes, length_encodeBody,
    List.length_cons, List.length_nil]
  omega

theorem vpshufdEvex512 (p : Prefixes) (e : Evex) (b : Body) : Statement (.vpshufdEvex512 p e b) := by
  simp only [Statement, encode, encodeEvex, instrLength, List.length_append, length_encodePrefixes, length_encodeBody,
    List.length_cons, List.length_nil]
  omega

end Sys2Proof.Laws.EncodeLength
end

