-- ==== Sys2Proof/Laws/Result.lean ====
section
/-! SUPPORT. What an instruction writes, by encoding class; when its memory operand is read as memory holds it; how it
faults; and when two states give an instruction the same operand and outcome. -/

namespace Sys2Proof.Machine

open Sys2Proof

/-! ## The value written -/

theorem valueOf_vex {i : Instr} (h : isVex i = true) (s : State) (src : Zmm) :
    valueOf s src i = shuffleLanes (lengthOf i) src (bodyOf i).order := by
  cases i <;> first | (cases h; done) | rfl

theorem valueOf_evex {i : Instr} {e : Evex} (h : evexOf i = some e) (s : State) (src : Zmm) :
    valueOf s src i = evexMerge (lengthOf i) e.aaa (s.getK e.aaa) e.z (s.getV (destNumber i))
      (shuffleLanes (lengthOf i) src (bodyOf i).order) := by
  cases i <;> first | (cases h; done) | (cases h; rfl)

theorem evexOf_vex {i : Instr} (h : isVex i = true) : evexOf i = none := by
  cases i <;> first | (cases h; done) | rfl

theorem vvvvOf_vex {i : Instr} (h : isVex i = true) : vvvvOf i ≠ none := by
  cases i <;> first | (cases h; done) | simp [vvvvOf]

theorem vvvvOf_evex {i : Instr} {e : Evex} (h : evexOf i = some e) : vvvvOf i ≠ none := by
  cases i <;> first | (cases h; done) | simp [vvvvOf]

/-- An instruction whose feature flags are present has a vector length the machine has (00_scope.md R6). -/
theorem vlLanes_le_maxLanes {s : State} (hi : s.Inv) {i : Instr} (hn : NoUd s i) :
    vlLanes (lengthOf i) ≤ maxLanes s.feat := by
  have h1 : 1 ≤ maxLanes s.feat := by unfold maxLanes; split <;> (try split) <;> omega
  have h4 : s.machine.feat.avx512f = true → maxLanes s.feat = 4 := by intro h; simp [maxLanes, State.feat, h]
  cases i with
  | pshufd p b => exact h1
  | vpshufdVex128C5 p e b => exact h1
  | vpshufdVex128C4 p e b => exact h1
  | vpshufdVex256C5 p e b => exact hi.fits hn.2.2.2.2.2.2.1
  | vpshufdVex256C4 p e b => exact hi.fits hn.2.2.2.2.2.2.1
  | vpshufdEvex128 p e b => exact h1
  | vpshufdEvex256 p e b =>
    have := hn.1.2.2.2.2.2.2.1
    simp only [Bool.and_eq_true] at this
    rw [h4 this.1]
    exact vlLanes_le _
  | vpshufdEvex512 p e b =>
    rw [h4 hn.1.2.2.2.2.2.2.1]
    exact vlLanes_le _

theorem lowLanes_shuffleLanes_of_le {vl : VL} {k : Nat} (h : vlLanes vl ≤ k) (z : Zmm) (order : Byte) :
    lowLanes k (shuffleLanes vl z order) = shuffleLanes vl z order := by
  rw [← lowLanes_shuffleLanes vl, lowLanes_mono h]

theorem lowLanes_evexMerge_of_le {vl : VL} {k : Nat} (h : vlLanes vl ≤ k) (aaa : BitVec 3) (mask : Quad) (z : Bool)
    (old tmp : Zmm) : lowLanes k (evexMerge vl aaa mask z old tmp) = evexMerge vl aaa mask z old tmp := by
  rw [← lowLanes_evexMerge vl, lowLanes_mono h]

/-- EvexWrite by doubleword (42_vpshufd_evex.md R121). -/
theorem dwordOf_evexMerge (vl : VL) (aaa : BitVec 3) (mask : Quad) (z : Bool) (old tmp : Zmm) (j : Nat) :
    dwordOf (evexMerge vl aaa mask z old tmp) j =
      if j < kl vl then
        if aaa = 0#3 ∨ mask.getLsbD j = true then dwordOf tmp j else if z = true then 0#32 else dwordOf old j
      else 0#32 := by
  unfold dwordOf
  rw [laneOf_evexMerge]
  have hk : j / 4 < vlLanes vl ↔ j < kl vl := by unfold kl; omega
  simp only [hk]
  split
  · rw [laneDword_maskedLane _ _ _ _ _ _ (by omega)]
    have : 4 * (j / 4) + j % 4 = j := by omega
    rw [this]
    simp only [maskOn, Bool.or_eq_true, decide_eq_true_eq]
    split
    · rfl
    · cases z <;> simp
  · simp

/-- The completion changes its destination, `pc` and the model's own fields only (10_state.md R32). -/
theorem frame_complete (s : State) (d : BitVec 5) (z : Zmm) (next : Quad) (es : List ReadEvent) :
    FrameExcept s (complete s d z next es) d :=
  ⟨fun _ hn => getV_complete_ne _ _ _ _ _ _ hn, fun _ => rfl, rfl⟩

/-! ## A memory operand that is read -/

/-- `#AC(0)` is taken only from a VEX or EVEX operand under its conditions (60_exceptions.md R148). -/
theorem acTaken_spec {s : State} {i : Instr} {seg : SegReg} {ea : Quad} {n : Nat}
    (h : acTaken s (vvvvOf i).isNone seg ea n = true) : AcPossible s seg ea n ∧ vvvvOf i ≠ none := by
  simp only [acTaken, State.alignCheck, State.am, State.acFlag, Bool.and_eq_true, decide_eq_true_eq,
    Bool.not_eq_true', Option.isNone_eq_false_iff] at h
  obtain ⟨⟨⟨⟨h1, h2⟩, h3⟩, h4⟩, _⟩ := h
  refine ⟨⟨h1.1.1, h1.1.2, h1.2, h2, h4⟩, fun hn => ?_⟩
  simp [hn] at h3

/-- Aligned where the form needs it, without `#AC(0)`: the operand's bytes as memory holds them. -/
theorem memRead_private {s : State} {i : Instr} {seg : SegReg} {ea : Quad} {n : Nat} {locs : List Nat}
    (hr : Readable s seg ea n locs) (ha : vvvvOf i = none → (testedAddress s seg ea).toNat % 16 = 0)
    (hac : vvvvOf i ≠ none → ¬ AcPossible s seg ea n) :
    ∃ es, memRead s (vvvvOf i).isNone seg ea n = .got es ∧ eventBytes es = locs.map (memByte s.mem) := by
  have h1 : misaligned s (vvvvOf i).isNone seg ea = false := by
    cases hv : vvvvOf i with
    | none => simp [misaligned, ha hv]
    | some v => simp [misaligned]
  have h2 : acTaken s (vvvvOf i).isNone seg ea n = false := by
    cases hv : acTaken s (vvvvOf i).isNone seg ea n with
    | false => rfl
    | true => exact absurd (acTaken_spec hv).1 (hac (acTaken_spec hv).2)
  obtain ⟨es, a, b, _⟩ := memRead_readable hr h1 h2
  exact ⟨es, a, b⟩

/-! ## Faults -/

/-- Every fault of an instruction is one exception taken in the state before it. -/
theorem exec_fault {i : Instr} {s : State} {f : Fault} (h : exec i s = .fault f) : ∃ e, exec i s = raise e s := by
  rcases exec_cases i s with h' | h' | h' | h' | ⟨_, _, _, _, h5⟩
  · exact ⟨_, h'.2⟩
  · exact ⟨_, h'.2.2⟩
  · exact ⟨_, h'.2.2.2⟩
  · rw [h'.2.2.2.2] at h
    cases h
  · rcases h5 with ⟨src, _, he⟩ | ⟨e, _, he⟩ | ⟨r, _, he⟩
    · rw [he] at h
      cases h
    · exact ⟨_, he⟩
    · rw [he] at h
      cases h

/-- Every fault of a step is one exception taken in the state before it. -/
theorem step_fault {s : State} {f : Fault} (h : step s = .fault f) : ∃ e, step s = raise e s := by
  rcases step_cases s with ⟨_, he⟩ | ⟨_, i, rest, _, he⟩ | ⟨_, len, _, he⟩ | ⟨_, r, _, he⟩
  · rw [he] at h
    cases h
  · rw [he] at h ⊢
    exact exec_fault h
  · rw [he]
    unfold reservedOutcome
    split <;> exact ⟨_, rfl⟩
  · rw [he] at h
    cases h

/-! ## Two states that give an instruction the same -/

/-- A read that completes depends on the translation, the alignment tests and the memory only. -/
theorem memRead_congr {s s' : State} {legacy : Bool} {seg : SegReg} {ea : Quad} {n : Nat} {es : List ReadEvent}
    (h1 : segFault s' seg ea n = segFault s seg ea n) (h2 : ∀ j, byteLinear s' seg ea j = byteLinear s seg ea j)
    (h3 : ∀ la, walk s' la = walk s la) (h4 : misaligned s' legacy seg ea = misaligned s legacy seg ea)
    (h5 : acTaken s' legacy seg ea n = acTaken s legacy seg ea n)
    (h6 : ∀ locs, readBytes s' locs = readBytes s locs) (h : memRead s legacy seg ea n = .got es) :
    memRead s' legacy seg ea n = .got es := by
  rcases memRead_cases s legacy seg ea n with ⟨locs, es', ht, hm, ha, hrb, hmr⟩ | ⟨_, _, _, _, _, hm⟩ | ⟨_, hm⟩ |
      ⟨_, _, _, hm⟩ | ⟨e', _, _, hm⟩
  · rw [h] at hmr
    cases hmr
    have htr : translateRead s' seg ea n = .ok locs := by
      unfold translateRead at ht ⊢
      rw [h1]
      cases hsf : segFault s seg ea n with
      | some e =>
        rw [hsf] at ht
        cases ht
      | none =>
        rw [hsf] at ht
        simp only at ht ⊢
        have hb : byteLocation s' seg ea = byteLocation s seg ea := by
          funext j
          unfold byteLocation
          rw [h2, h3]
        have hnil : (List.range n).filterMap (bytePageFault s' seg ea) = [] := by
          split at ht
          · rename_i hp
            rw [List.filterMap_eq_nil_iff] at hp ⊢
            intro j hj
            have := hp j hj
            unfold bytePageFault at this ⊢
            rw [h2, h3]
            split at this
            · rfl
            · cases this
          · cases ht
        split at ht
        · rw [hnil, hb]
          exact ht
        · cases ht
    simp only [memRead, htr, h4, h5, h6, hm, ha, hrb, Bool.false_eq_true, if_false]
  · rw [h] at hm
    cases hm
  · rw [h] at hm
    cases hm
  · rw [h] at hm
    cases hm
  · rw [h] at hm
    cases hm

/-- Operand 2 is the same where the registers, the address and the read are. -/
theorem sourceOf_congr {s s' : State} {i : Instr} {src : Source} (hv : ∀ n, s'.getV n = s.getV n)
    (hm : memOperand s' i = memOperand s i) (hpc : s'.pc = s.pc)
    (hmr : ∀ seg ea n es, memRead s (vvvvOf i).isNone seg ea n = .got es →
      memRead s' (vvvvOf i).isNone seg ea n = .got es)
    (h : sourceOf s (nextAddress s (instrLength i)) i = .got src) :
    sourceOf s' (nextAddress s (instrLength i)) i = .got src := by
  rcases register_or_memory i s with ⟨n, hn, _⟩ | ⟨_, seg, ea, n, hmo, _⟩
  · rw [sourceOf_register hn] at h ⊢
    rw [hv]
    exact h
  · have hna : nextAddress s' (instrLength i) = nextAddress s (instrLength i) := by
      unfold nextAddress
      rw [hpc]
    rw [← hna, sourceOf_memory (hm.trans hmo)]
    rw [sourceOf_memory hmo] at h
    split at h
    · cases h
    · rename_i hd
      rw [if_neg hd]
      cases hr : memRead s (vvvvOf i).isNone seg ea n with
      | got es =>
        rw [hr] at h
        rw [hmr _ _ _ _ hr]
        exact h
      | raises e =>
        rw [hr] at h
        cases h
      | stops e =>
        rw [hr] at h
        cases h

/-- Two instructions of one vector length and operand read the same value. -/
theorem sourceOf_same_operand {s : State} {i j : Instr} {a b : Source} (hl : lengthOf i = lengthOf j)
    (hv : (vvvvOf i).isNone = (vvvvOf j).isNone) (hb : (evexOf i).any Evex.bcast = (evexOf j).any Evex.bcast)
    (ho : (∃ n, sourceNumber i = some n ∧ sourceNumber j = some n) ∨
      ∃ o, memOperand s i = some o ∧ memOperand s j = some o)
    (h1 : sourceOf s (nextAddress s (instrLength i)) i = .got a)
    (h2 : sourceOf s (nextAddress s (instrLength j)) j = .got b) : a = b := by
  rcases ho with ⟨n, hi, hj⟩ | ⟨⟨seg, ea, n⟩, hi, hj⟩
  · rw [sourceOf_register hi, hl] at h1
    rw [sourceOf_register hj] at h2
    cases h1
    cases h2
    rfl
  · rw [sourceOf_memory hi] at h1
    rw [sourceOf_memory hj] at h2
    have hval : operandValue i = operandValue j := by
      unfold operandValue
      rw [hb, hl]
    split at h1
    · cases h1
    split at h2
    · cases h2
    rw [hv, hval, h2] at h1
    cases h1
    rfl

/-- An instruction that completes in one state completes in another that gives it the same checks and operand 2. -/
theorem exec_congr {s s' t : State} {i : Instr} {src : Source} (hu : udOf s' i = udOf s i) (ht : s'.ts = s.ts)
    (hn : ∀ len, SuccessorInside s' len ↔ SuccessorInside s len) (hpc : s'.pc = s.pc)
    (hsrc : sourceOf s (nextAddress s (instrLength i)) i = .got src →
      sourceOf s' (nextAddress s (instrLength i)) i = .got src)
    (h : exec i s = .next t) (hs : sourceOf s (nextAddress s (instrLength i)) i = .got src) :
    exec i s' = .next (complete s' (destNumber i) (valueOf s' src.value i) (nextAddress s (instrLength i)) src.events) := by
  obtain ⟨h1, h2, h3, h4, _, _, _⟩ := exec_next h
  have hna : nextAddress s' (instrLength i) = nextAddress s (instrLength i) := by
    unfold nextAddress
    rw [hpc]
  rw [exec_run h1 (hu.trans h2) (ht.trans h3) ((hn _).2 h4), hna, hsrc hs]
  rfl

end Sys2Proof.Machine
end

