-- ==== Sys2Proof/Tests/Slice0.lean ====
section
/-! SUPPORT. Tests. Expected values are those of 95_test_vectors.md, which derives them by hand from the rules, and are named
by its vector numbers; the witnesses show that the hypotheses of the statements in Certificates are met together. -/

namespace Sys2Proof.Tests

open Sys2Proof Sys2Proof.Machine

/-! ## Terms -/

def vex2 : Vex2 := { r := false, vvvv := 15#4 }
def vex3 : Vex3 := { r := false, x := false, b := false, w := false, vvvv := 15#4 }
def evex : Evex :=
  { r := false, x := false, b := false, rHigh := false, vvvv := 15#4, z := false, bcast := false, vHigh := true,
    aaa := 0#3 }
def p66 : Prefixes := { noPrefixes with opsize66 := true }
def rexOf (r x b : Bool) : Rex := { w := false, r := r, x := x, b := b }

def body (reg : BitVec 3) (rm : Rm) (order : Byte) : Body := { reg := reg, rm := rm, order := order }
/-- Destination 0, source register 1, order 1BH. -/
def regBody : Body := body 0#3 (.reg 1#3) 0x1B#8
/-- Destination 0, source at [RAX], order 1BH. -/
def memBody : Body := body 0#3 (.indirect 0#3 .absent) 0x1B#8

/-! ## States -/

def z4 (a b c d : Lane) : Zmm := { lane0 := a, lane1 := b, lane2 := c, lane3 := d }
/-- S of 95_test_vectors.md: byte k is k. -/
def valueS : Zmm :=
  z4 0x0F0E0D0C0B0A09080706050403020100#128 0x1F1E1D1C1B1A19181716151413121110#128 0x2F2E2D2C2B2A29282726252423222120#128 0x3F3E3D3C3B3A39383736353433323130#128
/-- D of 95_test_vectors.md. -/
def valueD : Zmm :=
  z4 0xDDDDDDDDDDDDDDDDDDDDDDDDDDDDDDDD#128 0xDDDDDDDDDDDDDDDDDDDDDDDDDDDDDDDD#128 0xDDDDDDDDDDDDDDDDDDDDDDDDDDDDDDDD#128 0xDDDDDDDDDDDDDDDDDDDDDDDDDDDDDDDD#128

/-- The bytes M of 95_test_vectors.md: 8000H + k holds k, here to 7FH. -/
def memoryM : Memory := (List.range 127).map fun k => (0x8001 + k, BitVec.ofNat 8 (k + 1))

/-- The default instantiation at CPL 3 with `pc` = 1000H, every general register 8000H, memory M, S in register `src` and D in
the others. -/
def base (src : BitVec 5) : State :=
  { launch State.reset with
    pc := 0x1000#64, cpl := 3#2, x := Vector.replicate 16 0x8000#64, mem := memoryM
    v := (Vector.replicate 32 valueD).set src.toNat valueS src.isLt }

/-- The same with bytes at `pc`. -/
def code (src : BitVec 5) (bs : List Byte) : State := placeBytes (base src) 0 bs

def masks (s : State) (k1 k2 : Quad) : State := { s with k := (s.k.set 1 k1).set 2 k2 }
def general (s : State) (a : Quad) : State := { s with x := Vector.replicate 16 a }

/-- 1000H to 10FFH and 8000H to 80FFH mapped flat, nothing else. -/
def paged (s : State) : State :=
  { s with
    paging := some
      [{ first := 0x1000, size := 0x100, user := .mapped 0x1000, supervisor := .mapped 0x1000, fetch := some 0x1000 },
       { first := 0x8000, size := 0x100, user := .mapped 0x8000, supervisor := .mapped 0x8000, fetch := none }] }

/-- A 32-bit code segment with base 0. -/
def prot (s : State) : State := { s with cs := { s.cs with base := 0#64, l := false, d := true } }

def realMode (s : State) : State := { s with cr0 := s.cr0 &&& ~~~1#64 }

/-! ## What a step gave -/

def vAfter (n : BitVec 5) : Outcome → Option Zmm
  | .next t => some (t.getV n)
  | _ => none
def pcAfter : Outcome → Option Quad
  | .next t => some t.pc
  | _ => none
/-- Locations read, the last first. -/
def readsAfter : Outcome → Option (List Nat)
  | .next t => some (t.reads.map ReadEvent.location)
  | _ => none
def vectorOf : Outcome → Option Nat
  | .fault f => some (vectorNumber f)
  | _ => none
/-- Code and linear address of a page fault, and the address recorded for CR2. -/
def pageFault : Outcome → Option (BitVec 32 × Quad × Quad)
  | .fault (.pf c a t) => some (c, a, recordedCr2 (.pf c a t))
  | _ => none
def refusedBy : Outcome → Option Refusal
  | .refused r => some r
  | _ => none

/-! ## Decoding: 95_test_vectors.md section 3 -/

theorem test_decode_pshufd :
    decode .long64 [0x66#8, 0x0F#8, 0x70#8, 0xC1#8, 0x1B#8] =
      .instr (.pshufd p66 regBody) [] ∧
    decode .long64 [0x66#8, 0x45#8, 0x0F#8, 0x70#8, 0xD3#8, 0x4E#8] =
      .instr (.pshufd { p66 with rex := some (rexOf true false true) } (body 2#3 (.reg 3#3) 0x4E#8)) [] ∧
    decode .long64 [0x66#8, 0x43#8, 0x0F#8, 0x70#8, 0x54#8, 0xAC#8, 0x10#8, 0x4E#8] =
      .instr (.pshufd { p66 with rex := some (rexOf false true true) }
        (body 2#3 (.sib 2#2 5#3 4#3 (.disp8 0x10#8)) 0x4E#8)) [] ∧
    decode .long64 [0x66#8, 0x0F#8, 0x70#8, 0x15#8, 0x00#8, 0x01#8, 0x00#8, 0x00#8, 0x00#8] =
      .instr (.pshufd p66 (body 2#3 (.disp32 0x100#32) 0#8)) [] ∧
    decode .long64 [0x66#8, 0x0F#8, 0x70#8, 0x4C#8, 0x24#8, 0x20#8, 0x27#8] =
      .instr (.pshufd p66 (body 1#3 (.sib 0#2 4#3 4#3 (.disp8 0x20#8)) 0x27#8)) [] ∧
    decode .long64 [0x64#8, 0x66#8, 0x0F#8, 0x70#8, 0x08#8, 0x27#8] =
      .instr (.pshufd { p66 with seg := some .fs } (body 1#3 (.indirect 0#3 .absent) 0x27#8)) [] ∧
    decode .long64 [0x67#8, 0x66#8, 0x0F#8, 0x70#8, 0x08#8, 0x27#8] =
      .instr (.pshufd { p66 with addr67 := true } (body 1#3 (.indirect 0#3 .absent) 0x27#8)) [] := by decide

theorem test_decode_vex128C5 :
    decode .long64 [0xC5#8, 0xF9#8, 0x70#8, 0xC1#8, 0x1B#8] =
      .instr (.vpshufdVex128C5 noPrefixes vex2 regBody) [] ∧
    decode .long64 [0xC5#8, 0xF9#8, 0x70#8, 0xD2#8, 0x00#8] =
      .instr (.vpshufdVex128C5 noPrefixes vex2 (body 2#3 (.reg 2#3) 0#8)) [] ∧
    decode .long64 [0xC5#8, 0xF9#8, 0x70#8, 0x68#8, 0x10#8, 0x1B#8] =
      .instr (.vpshufdVex128C5 noPrefixes vex2 (body 5#3 (.indirect 0#3 (.disp8 0x10#8)) 0x1B#8)) [] := by decide

theorem test_decode_vex128C4 :
    decode .long64 [0xC4#8, 0xE1#8, 0x79#8, 0x70#8, 0xC1#8, 0x1B#8] =
      .instr (.vpshufdVex128C4 noPrefixes vex3 regBody) [] ∧
    decode .long64 [0xC4#8, 0xE1#8, 0xF9#8, 0x70#8, 0xC1#8, 0x1B#8] =
      .instr (.vpshufdVex128C4 noPrefixes { vex3 with w := true } regBody) [] := by decide

theorem test_decode_vex256C5 :
    decode .long64 [0xC5#8, 0xFD#8, 0x70#8, 0x10#8, 0x4E#8] =
      .instr (.vpshufdVex256C5 noPrefixes vex2 (body 2#3 (.indirect 0#3 .absent) 0x4E#8)) [] ∧
    decode .long64 [0xC5#8, 0xFD#8, 0x70#8, 0x5C#8, 0xCB#8, 0xE0#8, 0x93#8] =
      .instr (.vpshufdVex256C5 noPrefixes vex2 (body 3#3 (.sib 3#2 1#3 3#3 (.disp8 0xE0#8)) 0x93#8)) [] := by decide

theorem test_decode_vex256C4 :
    decode .long64 [0xC4#8, 0x41#8, 0x7D#8, 0x70#8, 0xC7#8, 0xB1#8] =
      .instr (.vpshufdVex256C4 noPrefixes { vex3 with r := true, b := true } (body 0#3 (.reg 7#3) 0xB1#8)) [] ∧
    decode .long64 [0xC4#8, 0x01#8, 0x7D#8, 0x70#8, 0x24#8, 0x08#8, 0xAA#8] =
      .instr (.vpshufdVex256C4 noPrefixes { vex3 with r := true, x := true, b := true }
        (body 4#3 (.sib 0#2 1#3 0#3 .absent) 0xAA#8)) [] := by decide

theorem test_decode_evex128 :
    decode .long64 [0x62#8, 0xF1#8, 0x7D#8, 0x08#8, 0x70#8, 0xC1#8, 0x1B#8] =
      .instr (.vpshufdEvex128 noPrefixes evex regBody) [] ∧
    decode .long64 [0x62#8, 0xE1#8, 0x7D#8, 0x08#8, 0x70#8, 0x68#8, 0x01#8, 0x1B#8] =
      .instr (.vpshufdEvex128 noPrefixes { evex with rHigh := true } (body 5#3 (.indirect 0#3 (.disp8 1#8)) 0x1B#8)) [] ∧
    decode .long64 [0x62#8, 0x91#8, 0x7D#8, 0x1B#8, 0x70#8, 0x6C#8, 0x51#8, 0x7F#8, 0xE4#8] =
      .instr (.vpshufdEvex128 noPrefixes { evex with x := true, b := true, bcast := true, aaa := 3#3 }
        (body 5#3 (.sib 1#2 2#3 1#3 (.disp8 0x7F#8)) 0xE4#8)) [] := by decide

theorem test_decode_evex256 :
    decode .long64 [0x62#8, 0xF1#8, 0x7D#8, 0x28#8, 0x70#8, 0xC1#8, 0x1B#8] =
      .instr (.vpshufdEvex256 noPrefixes evex regBody) [] ∧
    decode .long64 [0x62#8, 0xF1#8, 0x7D#8, 0xBA#8, 0x70#8, 0x58#8, 0x02#8, 0x00#8] =
      .instr (.vpshufdEvex256 noPrefixes { evex with z := true, bcast := true, aaa := 2#3 }
        (body 3#3 (.indirect 0#3 (.disp8 2#8)) 0#8)) [] := by decide

theorem test_decode_evex512 :
    decode .long64 [0x62#8, 0xF1#8, 0x7D#8, 0x49#8, 0x70#8, 0xCA#8, 0xB1#8] =
      .instr (.vpshufdEvex512 noPrefixes { evex with aaa := 1#3 } (body 1#3 (.reg 2#3) 0xB1#8)) [] ∧
    decode .long64 [0x62#8, 0x81#8, 0x7D#8, 0xCF#8, 0x70#8, 0xCE#8, 0xFF#8] =
      .instr (.vpshufdEvex512 noPrefixes
        { evex with x := true, b := true, rHigh := true, z := true, aaa := 7#3 } (body 1#3 (.reg 6#3) 0xFF#8)) [] ∧
    decode .long64 [0x62#8, 0x21#8, 0x7D#8, 0x48#8, 0x70#8, 0xF8#8, 0x55#8] =
      .instr (.vpshufdEvex512 noPrefixes { evex with r := true, x := true, rHigh := true } (body 7#3 (.reg 0#3) 0x55#8)) [] ∧
    decode .long64 [0x62#8, 0xF1#8, 0x7D#8, 0x48#8, 0x70#8, 0xA8#8, 0x41#8, 0x00#8, 0x00#8, 0x00#8, 0x1B#8] =
      .instr (.vpshufdEvex512 noPrefixes evex (body 5#3 (.indirect 0#3 (.disp32 0x41#32)) 0x1B#8)) [] := by decide

/-- V5.3, V5.5, V5.8, V5.9: EVEX.W = 1, L'L = 11b, P1 bit 2 = 0, P0 bits 3:2 = 01b. -/
theorem test_decode_reserved :
    decode .long64 [0x62#8, 0xF1#8, 0xFD#8, 0x48#8, 0x70#8, 0xC1#8, 0x1B#8] = .reserved 7 ∧
    decode .long64 [0x62#8, 0xF1#8, 0x7D#8, 0x68#8, 0x70#8, 0xC1#8, 0x1B#8] = .reserved 7 ∧
    decode .long64 [0x62#8, 0xF1#8, 0x79#8, 0x48#8, 0x70#8, 0xC1#8, 0x1B#8] = .reserved 7 ∧
    decode .long64 [0x62#8, 0xF5#8, 0x7D#8, 0x48#8, 0x70#8, 0xC1#8, 0x1B#8] = .reserved 7 := by decide

/-- V5.12, V5.13, V5.16 (30_encoding.md R92). -/
theorem test_decode_other_instructions :
    decode .long64 [0xF3#8, 0x0F#8, 0x70#8, 0xC1#8, 0x1B#8] = .refused .notThisInstruction ∧
    decode .long64 [0xF2#8, 0x0F#8, 0x70#8, 0xC1#8, 0x1B#8] = .refused .notThisInstruction ∧
    decode .long64 [0x0F#8, 0x70#8, 0xC1#8, 0x1B#8] = .refused .notThisInstruction ∧
    decode .long64 [0xC5#8, 0xFA#8, 0x70#8, 0xC1#8, 0x1B#8] = .refused .notThisInstruction ∧
    decode .long64 [0xC5#8, 0xFB#8, 0x70#8, 0xC1#8, 0x1B#8] = .refused .notThisInstruction ∧
    decode .long64 [0xC5#8, 0xF8#8, 0x70#8, 0xC1#8, 0x1B#8] = .refused .notThisInstruction ∧
    decode .long64 [0xC4#8, 0xE2#8, 0x79#8, 0x70#8, 0xC1#8, 0x1B#8] = .refused .notThisInstruction := by decide

/-- V5.14, V5.15 and 30_encoding.md R91: a repeated prefix, REX before `66`, stored B = 0 outside long64. -/
theorem test_decode_refused :
    decode .long64 [0x66#8, 0x66#8, 0x0F#8, 0x70#8, 0xC1#8, 0x1B#8] = .refused .repeatedPrefix ∧
    decode .long64 [0x41#8, 0x66#8, 0x0F#8, 0x70#8, 0xC1#8, 0x1B#8] = .refused .rexNotLast ∧
    decode .prot32 [0xC4#8, 0xC1#8, 0x79#8, 0x70#8, 0xC1#8, 0x1B#8] = .refused .extensionOutsideLong64 := by decide

/-- 30_encoding.md R67, R76: with prefix 67 in prot32, ModRM 4E is [BP + disp8], and mod 00 rm 110 an absolute address. -/
theorem test_decode_sixteen_bit :
    decode .prot32 [0x67#8, 0x66#8, 0x0F#8, 0x70#8, 0x4E#8, 0x08#8, 0x1B#8] =
      .instr (.pshufd { p66 with addr67 := true } (body 1#3 (.indirect16 6#3 (.disp8 8#8)) 0x1B#8)) [] ∧
    decode .prot32 [0x67#8, 0x66#8, 0x0F#8, 0x70#8, 0x0E#8, 0x34#8, 0x12#8, 0x1B#8] =
      .instr (.pshufd { p66 with addr67 := true } (body 1#3 (.disp16 0x1234#16) 0x1B#8)) [] := by decide

/-- The encoder against the same bytes. -/
theorem test_encode :
    encode (.pshufd p66 regBody) = [0x66#8, 0x0F#8, 0x70#8, 0xC1#8, 0x1B#8] ∧
    encode (.vpshufdVex256C5 noPrefixes vex2 (body 3#3 (.sib 3#2 1#3 3#3 (.disp8 0xE0#8)) 0x93#8)) =
      [0xC5#8, 0xFD#8, 0x70#8, 0x5C#8, 0xCB#8, 0xE0#8, 0x93#8] ∧
    encode (.vpshufdVex256C4 noPrefixes { vex3 with r := true, b := true } (body 0#3 (.reg 7#3) 0xB1#8)) =
      [0xC4#8, 0x41#8, 0x7D#8, 0x70#8, 0xC7#8, 0xB1#8] ∧
    encode (.vpshufdEvex128 noPrefixes { evex with x := true, b := true, bcast := true, aaa := 3#3 }
      (body 5#3 (.sib 1#2 2#3 1#3 (.disp8 0x7F#8)) 0xE4#8)) =
      [0x62#8, 0x91#8, 0x7D#8, 0x1B#8, 0x70#8, 0x6C#8, 0x51#8, 0x7F#8, 0xE4#8] := by decide

/-! ## WellFormed: one ill-formed term for each check -/

theorem test_wf_indirect_needs_wide_addresses : (Rm.indirect 0#3 .absent).wf .a16 = false := by decide
theorem test_wf_indirect_rm4_is_sib : (Rm.indirect 4#3 (.disp8 1#8)).wf .a64 = false := by decide
theorem test_wf_indirect_rm5_is_absolute : (Rm.indirect 5#3 .absent).wf .a32 = false := by decide
theorem test_wf_disp32_needs_wide_addresses : (Rm.disp32 0#32).wf .a16 = false := by decide
theorem test_wf_sib_needs_wide_addresses : (Rm.sib 0#2 0#3 0#3 .absent).wf .a16 = false := by decide
theorem test_wf_sib_base5_has_displacement : (Rm.sib 0#2 0#3 5#3 .absent).wf .a64 = false := by decide
theorem test_wf_sibNoBase_needs_wide_addresses : (Rm.sibNoBase 0#2 0#3 0#32).wf .a16 = false := by decide
theorem test_wf_indirect16_needs_16 : (Rm.indirect16 0#3 .absent).wf .a32 = false := by decide
theorem test_wf_indirect16_rm6_is_absolute : (Rm.indirect16 6#3 .absent).wf .a16 = false := by decide
theorem test_wf_disp16_needs_16 : (Rm.disp16 0#16).wf .a64 = false := by decide
theorem test_wf_rex_needs_long64 :
    (Instr.pshufd { p66 with rex := some (rexOf true false false) } regBody).wf .prot32 = false := by decide
theorem test_wf_legacy_needs_66 : (Instr.pshufd noPrefixes regBody).wf .long64 = false := by decide
theorem test_wf_legacy_no_F2 : (Instr.pshufd { p66 with repne := true } regBody).wf .long64 = false := by decide
theorem test_wf_legacy_no_F3 : (Instr.pshufd { p66 with rep := true } regBody).wf .long64 = false := by decide
theorem test_wf_vex2_bits_outside_long64 :
    (Instr.vpshufdVex128C5 noPrefixes { vex2 with r := true } regBody).wf .prot32 = false ∧
      (Instr.vpshufdVex256C5 noPrefixes { vex2 with vvvv := 7#4 } regBody).wf .prot32 = false := by decide
theorem test_wf_vex3_bits_outside_long64 :
    (Instr.vpshufdVex128C4 noPrefixes { vex3 with r := true } regBody).wf .real = false ∧
      (Instr.vpshufdVex128C4 noPrefixes { vex3 with x := true } regBody).wf .real = false ∧
      (Instr.vpshufdVex256C4 noPrefixes { vex3 with b := true } regBody).wf .prot16 = false ∧
      (Instr.vpshufdVex256C4 noPrefixes { vex3 with vvvv := 7#4 } regBody).wf .prot32 = false := by decide
theorem test_wf_evex_bits_outside_long64 :
    (Instr.vpshufdEvex128 noPrefixes { evex with r := true } regBody).wf .v86 = false ∧
      (Instr.vpshufdEvex256 noPrefixes { evex with x := true } regBody).wf .v86 = false ∧
      (Instr.vpshufdEvex512 noPrefixes { evex with b := true } regBody).wf .prot32 = false ∧
      (Instr.vpshufdEvex512 noPrefixes { evex with rHigh := true } regBody).wf .prot32 = false ∧
      (Instr.vpshufdEvex512 noPrefixes { evex with vHigh := false } regBody).wf .prot32 = false := by decide

/-! ## Steps: two for each instruction -/

/-- V2.1, with D above: bits 127:0 reversed, the bits above kept, `pc` + 5. -/
theorem test_step_pshufd_register :
    vAfter 0#5 (step (code 1#5 [0x66#8, 0x0F#8, 0x70#8, 0xC1#8, 0x1B#8])) =
      some (z4 0x03020100070605040B0A09080F0E0D0C#128 0xDDDDDDDDDDDDDDDDDDDDDDDDDDDDDDDD#128 0xDDDDDDDDDDDDDDDDDDDDDDDDDDDDDDDD#128 0xDDDDDDDDDDDDDDDDDDDDDDDDDDDDDDDD#128) ∧
    pcAfter (step (code 1#5 [0x66#8, 0x0F#8, 0x70#8, 0xC1#8, 0x1B#8])) = some 0x1005#64 := by decide

/-- V2.7 and V2.6: [RBX + 16], disp8 unscaled; [RBX + 4] is misaligned. -/
theorem test_step_pshufd_memory :
    vAfter 2#5 (step (code 1#5 [0x66#8, 0x0F#8, 0x70#8, 0x53#8, 0x10#8, 0x1B#8])) =
      some (z4 0x13121110171615141B1A19181F1E1D1C#128 0xDDDDDDDDDDDDDDDDDDDDDDDDDDDDDDDD#128 0xDDDDDDDDDDDDDDDDDDDDDDDDDDDDDDDD#128 0xDDDDDDDDDDDDDDDDDDDDDDDDDDDDDDDD#128) ∧
    vectorOf (step (code 1#5 [0x66#8, 0x0F#8, 0x70#8, 0x53#8, 0x04#8, 0x1B#8])) = some 13 := by decide

/-- V3.1: bits above 127 zeroed; V3.7: source and destination the same. -/
theorem test_step_vex128C5_register :
    vAfter 0#5 (step (code 1#5 [0xC5#8, 0xF9#8, 0x70#8, 0xC1#8, 0x1B#8])) =
      some (z4 0x03020100070605040B0A09080F0E0D0C#128 0x00000000000000000000000000000000#128 0x00000000000000000000000000000000#128 0x00000000000000000000000000000000#128) ∧
    vAfter 2#5 (step (code 2#5 [0xC5#8, 0xF9#8, 0x70#8, 0xD2#8, 0x00#8])) =
      some (z4 0x03020100030201000302010003020100#128 0x00000000000000000000000000000000#128 0x00000000000000000000000000000000#128 0x00000000000000000000000000000000#128) := by decide

/-- V3.8: an unaligned operand. -/
theorem test_step_vex128C5_memory :
    vAfter 2#5 (step (code 1#5 [0xC5#8, 0xF9#8, 0x70#8, 0x53#8, 0x04#8, 0x1B#8])) =
      some (z4 0x070605040B0A09080F0E0D0C13121110#128 0x00000000000000000000000000000000#128 0x00000000000000000000000000000000#128 0x00000000000000000000000000000000#128) := by decide

/-- V3.2: W = 1 is ignored; `pc` + 6. -/
theorem test_step_vex128C4_register :
    vAfter 0#5 (step (code 1#5 [0xC4#8, 0xE1#8, 0xF9#8, 0x70#8, 0xC1#8, 0x1B#8])) =
      some (z4 0x03020100070605040B0A09080F0E0D0C#128 0x00000000000000000000000000000000#128 0x00000000000000000000000000000000#128 0x00000000000000000000000000000000#128) ∧
    pcAfter (step (code 1#5 [0xC4#8, 0xE1#8, 0xF9#8, 0x70#8, 0xC1#8, 0x1B#8])) = some 0x1006#64 := by decide

/-- 41_vpshufd_vex.md R110 with V3.8's operand. -/
theorem test_step_vex128C4_memory :
    vAfter 2#5 (step (code 1#5 [0xC4#8, 0xE1#8, 0x79#8, 0x70#8, 0x53#8, 0x04#8, 0x1B#8])) =
      some (z4 0x070605040B0A09080F0E0D0C13121110#128 0x00000000000000000000000000000000#128 0x00000000000000000000000000000000#128 0x00000000000000000000000000000000#128) := by decide

/-- V3.3, V3.5: each lane by the same order byte, no doubleword crosses. -/
theorem test_step_vex256C5_register :
    vAfter 0#5 (step (code 1#5 [0xC5#8, 0xFD#8, 0x70#8, 0xC1#8, 0x4E#8])) =
      some (z4 0x07060504030201000F0E0D0C0B0A0908#128 0x17161514131211101F1E1D1C1B1A1918#128 0x00000000000000000000000000000000#128 0x00000000000000000000000000000000#128) ∧
    vAfter 0#5 (step (code 1#5 [0xC5#8, 0xFD#8, 0x70#8, 0xC1#8, 0x93#8])) =
      some (z4 0x0B0A090807060504030201000F0E0D0C#128 0x1B1A191817161514131211101F1E1D1C#128 0x00000000000000000000000000000000#128 0x00000000000000000000000000000000#128) := by decide

/-- V3.9: 32 bytes at [RAX]. -/
theorem test_step_vex256C5_memory :
    vAfter 2#5 (step (code 1#5 [0xC5#8, 0xFD#8, 0x70#8, 0x10#8, 0x4E#8])) =
      some (z4 0x07060504030201000F0E0D0C0B0A0908#128 0x17161514131211101F1E1D1C1B1A1918#128 0x00000000000000000000000000000000#128 0x00000000000000000000000000000000#128) := by decide

/-- V3.10: registers 8 and 15. -/
theorem test_step_vex256C4_register :
    vAfter 8#5 (step (code 15#5 [0xC4#8, 0x41#8, 0x7D#8, 0x70#8, 0xC7#8, 0xB1#8])) =
      some (z4 0x0B0A09080F0E0D0C0302010007060504#128 0x1B1A19181F1E1D1C1312111017161514#128 0x00000000000000000000000000000000#128 0x00000000000000000000000000000000#128) := by decide

/-- 41_vpshufd_vex.md R111 with V3.9's operand. -/
theorem test_step_vex256C4_memory :
    vAfter 2#5 (step (code 1#5 [0xC4#8, 0xE1#8, 0x7D#8, 0x70#8, 0x10#8, 0x4E#8])) =
      some (z4 0x07060504030201000F0E0D0C0B0A0908#128 0x17161514131211101F1E1D1C1B1A1918#128 0x00000000000000000000000000000000#128 0x00000000000000000000000000000000#128) := by decide

/-- V4.6: mask FFF6H, bits above VL zeroed. -/
theorem test_step_evex128_merging :
    vAfter 0#5 (step (masks (code 1#5 [0x62#8, 0xF1#8, 0x7D#8, 0x0A#8, 0x70#8, 0xC1#8, 0x1B#8]) 0#64 0xFFF6#64)) =
      some (z4 0xDDDDDDDD070605040B0A0908DDDDDDDD#128 0x00000000000000000000000000000000#128 0x00000000000000000000000000000000#128 0x00000000000000000000000000000000#128) := by decide

/-- V4.7 zeroing, V4.8 merging. -/
theorem test_step_evex128_empty_mask :
    vAfter 0#5 (step (masks (code 1#5 [0x62#8, 0xF1#8, 0x7D#8, 0x8A#8, 0x70#8, 0xC1#8, 0xFF#8]) 0#64 0#64)) =
      some (z4 0x00000000000000000000000000000000#128 0x00000000000000000000000000000000#128 0x00000000000000000000000000000000#128 0x00000000000000000000000000000000#128) ∧
    vAfter 0#5 (step (masks (code 1#5 [0x62#8, 0xF1#8, 0x7D#8, 0x0A#8, 0x70#8, 0xC1#8, 0xFF#8]) 0#64 0#64)) =
      some (z4 0xDDDDDDDDDDDDDDDDDDDDDDDDDDDDDDDD#128 0x00000000000000000000000000000000#128 0x00000000000000000000000000000000#128 0x00000000000000000000000000000000#128) := by decide

/-- V4.5: mask F0C3H, of which bits 7:0 count. -/
theorem test_step_evex256_zeroing :
    vAfter 3#5 (step (masks (code 1#5 [0x62#8, 0xF1#8, 0x7D#8, 0xAA#8, 0x70#8, 0xD9#8, 0x39#8]) 0#64 0xF0C3#64)) =
      some (z4 0x00000000000000000B0A090807060504#128 0x131211101F1E1D1C0000000000000000#128 0x00000000000000000000000000000000#128 0x00000000000000000000000000000000#128) := by decide

/-- V4.10 on memory M: the doubleword at 8008H, mask 0FH; four bytes are read. -/
theorem test_step_evex256_broadcast :
    vAfter 3#5 (step (masks (code 1#5 [0x62#8, 0xF1#8, 0x7D#8, 0xBA#8, 0x70#8, 0x58#8, 0x02#8, 0x00#8]) 0#64 0xF#64)) =
      some (z4 0x0B0A09080B0A09080B0A09080B0A0908#128 0x00000000000000000000000000000000#128 0x00000000000000000000000000000000#128 0x00000000000000000000000000000000#128) ∧
    readsAfter (step (masks (code 1#5 [0x62#8, 0xF1#8, 0x7D#8, 0xBA#8, 0x70#8, 0x58#8, 0x02#8, 0x00#8]) 0#64 0xF#64)) =
      some [0x8008, 0x8009, 0x800A, 0x800B] := by decide

/-- V4.3: zeroing with mask A5A5H; V4.14: registers 31 and 16. -/
theorem test_step_evex512_register :
    vAfter 1#5 (step (masks (code 2#5 [0x62#8, 0xF1#8, 0x7D#8, 0xC9#8, 0x70#8, 0xCA#8, 0xB1#8]) 0xA5A5#64 0#64)) =
      some (z4 0x000000000F0E0D0C0000000007060504#128 0x1B1A1918000000001312111000000000#128 0x000000002F2E2D2C0000000027262524#128 0x3B3A3938000000003332313000000000#128) ∧
    vAfter 31#5 (step (code 16#5 [0x62#8, 0x21#8, 0x7D#8, 0x48#8, 0x70#8, 0xF8#8, 0x55#8])) =
      some (z4 0x07060504070605040706050407060504#128 0x17161514171615141716151417161514#128 0x27262524272625242726252427262524#128 0x37363534373635343736353437363534#128) := by decide

/-- V4.12: the 64 bytes at [RAX + 64], disp8 = 1 scaled by 64, each lane reversed (memory M with only these bytes). -/
theorem test_step_evex512_memory :
    vAfter 5#5 (step (placeBytes { base 1#5 with mem := memoryM.drop 63 } 0
        [0x62#8, 0xF1#8, 0x7D#8, 0x48#8, 0x70#8, 0x68#8, 0x01#8, 0x1B#8])) =
      some (z4 0x43424140474645444B4A49484F4E4D4C#128 0x53525150575655545B5A59585F5E5D5C#128
        0x63626160676665646B6A69686F6E6D6C#128 0x73727170777675747B7A79787F7E7D7C#128) := by decide

/-! ## Steps that fault or are refused -/

/-- V5.1, V5.4, V5.6, V5.7, V5.10, V5.11, V5.3. -/
theorem test_step_ud :
    vectorOf (step (code 1#5 [0xC5#8, 0xF1#8, 0x70#8, 0xC1#8, 0x1B#8])) = some 6 ∧
    vectorOf (step (code 1#5 [0x62#8, 0xF1#8, 0x7D#8, 0x18#8, 0x70#8, 0xC1#8, 0x1B#8])) = some 6 ∧
    vectorOf (step (code 1#5 [0x62#8, 0xF1#8, 0x7D#8, 0x88#8, 0x70#8, 0xC1#8, 0x1B#8])) = some 6 ∧
    vectorOf (step (code 1#5 [0x62#8, 0xF1#8, 0x7D#8, 0x40#8, 0x70#8, 0xC1#8, 0x1B#8])) = some 6 ∧
    vectorOf (step (code 1#5 [0xF0#8, 0x66#8, 0x0F#8, 0x70#8, 0x00#8, 0x1B#8])) = some 6 ∧
    vectorOf (step (code 1#5 [0x66#8, 0xC5#8, 0xF9#8, 0x70#8, 0xC1#8, 0x1B#8])) = some 6 ∧
    vectorOf (step (code 1#5 [0x62#8, 0xF1#8, 0xFD#8, 0x48#8, 0x70#8, 0xC1#8, 0x1B#8])) = some 6 := by decide

/-- V4.15: no fault suppression. V6.16, V6.20, V6.15: `#PF` with code 4 and the address of a byte of the operand that is not
mapped; alignment first. -/
theorem test_step_page_fault :
    pageFault (step (general (paged (code 1#5 [0x62#8, 0xF1#8, 0x7D#8, 0x49#8, 0x70#8, 0x07#8, 0x00#8])) 0x9000#64)) = some (4#32, 0x9000#64, 0x9000#64) ∧
    pageFault (step (general (paged (code 1#5 [0x66#8, 0x0F#8, 0x70#8, 0x00#8, 0x1B#8])) 0x9000#64)) = some (4#32, 0x9000#64, 0x9000#64) ∧
    pageFault (step (general (paged (code 1#5 [0xC5#8, 0xFD#8, 0x70#8, 0x00#8, 0x1B#8])) 0x80F0#64)) = some (4#32, 0x8100#64, 0x8100#64) ∧
    vectorOf (step (general (paged (code 1#5 [0x66#8, 0x0F#8, 0x70#8, 0x53#8, 0x04#8, 0x1B#8])) 0x9000#64)) = some 13 := by decide

/-- V6.17, V6.18: non-canonical through DS and SS. V6.2, V6.12: `#NM`, and `#UD` before it. -/
theorem test_step_priority :
    vectorOf (step (general (code 1#5 [0xC5#8, 0xF9#8, 0x70#8, 0x00#8, 0x1B#8]) 0x0000800000000000#64)) = some 13 ∧
    vectorOf (step (general (code 1#5 [0xC5#8, 0xF9#8, 0x70#8, 0x45#8, 0x00#8, 0x1B#8]) 0x0000800000000000#64)) = some 12 ∧
    vectorOf (step { code 1#5 [0x66#8, 0x0F#8, 0x70#8, 0xC1#8, 0x1B#8] with cr0 := 0x60000019#64 }) = some 7 ∧
    vectorOf (step { code 1#5 [0x66#8, 0x0F#8, 0x70#8, 0xC1#8, 0x1B#8] with cr0 := 0x6000001D#64 }) = some 6 := by decide

/-- From reset with nothing loaded the bytes at the reset vector are no instruction. -/
theorem test_step_reset : refusedBy (step State.reset) = some .notThisInstruction := by decide

/-- The words of spec/opcode_table.json: match values with fields zero, and V4.1. -/
theorem test_table_words :
    decodeTableWord 24 0x0F7000 = some (.pshufd p66 (body 0#3 (.indirect 0#3 .absent) 0#8)) ∧
    decodeTableWord 32 0xC5017000 =
      some (.vpshufdVex128C5 noPrefixes { r := true, vvvv := 0#4 } (body 0#3 (.indirect 0#3 .absent) 0#8)) ∧
    decodeTableWord 48 0x62F17D4870C1 = some (.vpshufdEvex512 noPrefixes evex (body 0#3 (.reg 1#3) 0#8)) := by decide

theorem test_withFetchWord :
    pcAfter (step (State.reset.withFetchWord 24 0x0F7000)) = some 0xFFF5#64 ∧
    pcAfter (step (State.reset.withFetchWord 48 0x62F17D4870C1)) = some 0xFFF7#64 ∧
    vectorOf (step (State.reset.withFetchWord 32 0xC5017000)) = some 6 := by decide

/-! ## Witnesses: for each statement with hypotheses, a state and operands that meet them together -/

def iSse : Instr := .pshufd p66 regBody
def iSseMem : Instr := .pshufd p66 memBody
def iVex : Instr := .vpshufdVex128C5 noPrefixes vex2 regBody
def iVexMem : Instr := .vpshufdVex256C4 noPrefixes vex3 memBody
def iEvex : Instr := .vpshufdEvex512 noPrefixes { evex with aaa := 1#3 } regBody
def iEvexPlain : Instr := .vpshufdEvex128 noPrefixes evex regBody
def iEvexMem : Instr := .vpshufdEvex256 noPrefixes { evex with z := true, aaa := 1#3 } memBody
def iEvexBcast : Instr := .vpshufdEvex512 noPrefixes { evex with bcast := true, aaa := 1#3 } memBody
def iEvexAddr16 : Instr :=
  .vpshufdEvex128 { noPrefixes with addr67 := true } evex (body 0#3 (.indirect16 6#3 (.disp8 1#8)) 0#8)

/-- Alignment checking on, every general register 8001H. -/
def checked (s : State) : State :=
  { general s 0x8001#64 with cr0 := s.cr0 ||| 0x40000#64, rflags := s.rflags ||| 0x40000#64 }

def taskSwitched (s : State) : State := { s with cr0 := s.cr0 ||| 8#64 }

def locsFrom (a n : Nat) : List Nat := (List.range n).map (a + ·)

theorem inv_of {s : State} (hm : Memory.wf s.mem = true) (hp : s.pc.toNat < 2 ^ pcWidth s.mode)
    (hf : s.machine = resetParams) : s.Inv where
  mem := hm
  pc := hp
  width n := lowLanes_of_ge (by rw [State.feat, hf]; decide) _
  high h := absurd h (by rw [hf]; decide)
  fits _ := by rw [State.feat, hf]; decide
  masks n := by rw [hf]; exact (s.getK n).isLt
  noMasks h := absurd h (by rw [hf]; decide)

theorem base_inv : (base 1#5).Inv := inv_of (by decide) (by decide) rfl

theorem runnable_of {s : State} {i : Instr} (hl : instrLength i ≤ 15) (hu : udOf s i = false)
    (ht : s.cr0.getLsbD 3 = false) (hp : s.pc.toNat + instrLength i < 2 ^ pcWidth s.mode) (hm : s.mode = .long64) :
    Runnable s i :=
  ⟨hl, (udOf_iff s i).1 hu, ht, hp, .inl hm⟩

theorem next_of_pcAfter {o : Outcome} {q : Quad} (h : pcAfter o = some q) : ∃ t, o = .next t := by
  cases o with
  | next t => exact ⟨t, rfl⟩
  | fault f => cases h
  | refused r => cases h

theorem not_checked {seg : SegReg} {ea : Quad} {n : Nat} : ¬ AcPossible (base 1#5) seg ea n :=
  fun h => absurd h.1 (by decide)

theorem test_witness_DecodeOfEncodeGivesInstr :
    iSse.wf .prot32 = true ∧ iVexMem.wf .long64 = true ∧ iEvexBcast.wf .long64 = true ∧
      (Instr.pshufd { p66 with addr67 := true } (body 7#3 (.indirect16 7#3 (.disp16 0xFFFF#16)) 0xFF#8)).wf .prot32 = true ∧
      (Instr.vpshufdEvex512 noPrefixes { evex with r := true, x := true, b := true, rHigh := true, vHigh := false }
        (body 7#3 (.sib 3#2 7#3 7#3 (.disp32 0xFFFFFFFF#32)) 0xFF#8)).wf .long64 = true := by decide

theorem test_witness_DecodedInstrIsWellFormed :
    decode .long64 [0xC5#8, 0xF9#8, 0x70#8, 0xC1#8, 0x1B#8, 0x90#8] = .instr iVex [0x90#8] := by decide

theorem test_witness_NeighbourOpcodesRefused :
    (0xFA#8 : Byte).extractLsb' 0 2 ≠ 1#2 ∧ (0xFB#8 : Byte).extractLsb' 0 2 ≠ 1#2 ∧
      (0xE2#8 : Byte).extractLsb' 0 5 ≠ 1#5 := by decide

theorem test_witness_ReservedEvexFieldsRaiseUd :
    let tail : List Byte := 0xC1#8 :: 0x1B#8 :: List.replicate 12 0#8
    let st (p0 p1 p2 : Byte) : State := code 1#5 [0x62#8, p0, p1, p2, 0x70#8, 0xC1#8, 0x1B#8]
    (st 0xF1#8 0xFD#8 0x48#8).programEnd ≠ some (st 0xF1#8 0xFD#8 0x48#8).pc ∧
    window (st 0xF1#8 0xFD#8 0x48#8) = 0x62#8 :: 0xF1#8 :: 0xFD#8 :: 0x48#8 :: 0x70#8 :: tail ∧
    window (st 0xF1#8 0x7D#8 0x68#8) = 0x62#8 :: 0xF1#8 :: 0x7D#8 :: 0x68#8 :: 0x70#8 :: tail ∧
    window (st 0xF5#8 0x7D#8 0x48#8) = 0x62#8 :: 0xF5#8 :: 0x7D#8 :: 0x48#8 :: 0x70#8 :: tail ∧
    window (prot (st 0xF1#8 0x79#8 0x48#8)) = 0x62#8 :: 0xF1#8 :: 0x79#8 :: 0x48#8 :: 0x70#8 :: tail ∧
    (st 0xF1#8 0xFD#8 0x48#8).mode = .long64 ∧ (prot (st 0xF1#8 0x79#8 0x48#8)).mode = .prot32 ∧
    modOf 0xF1#8 = 3#2 ∧ (0xF1#8 : Byte).getLsbD 5 = true ∧ (0xF1#8 : Byte).getLsbD 4 = true ∧
    (0x48#8 : Byte).getLsbD 3 = true ∧
    (0xF1#8 : Byte).extractLsb' 0 2 = 1#2 ∧ (0xF5#8 : Byte).extractLsb' 0 2 = 1#2 ∧
    (0xFD#8 : Byte).extractLsb' 0 2 = 1#2 ∧ (0x7D#8 : Byte).extractLsb' 0 2 = 1#2 ∧
    (0x79#8 : Byte).extractLsb' 0 2 = 1#2 ∧
    (0xFD#8 : Byte).getLsbD 7 = true ∧ (0x68#8 : Byte).extractLsb' 5 2 = 3#2 ∧ (0xF5#8 : Byte).extractLsb' 2 2 ≠ 0#2 ∧
    (0x79#8 : Byte).getLsbD 2 = false ∧
    (takeBody .a64 tail).isSome = true ∧ (takeBody .a32 tail).isSome = true := by
  refine ⟨?_, ?_, ?_, ?_, ?_, ?_, ?_, ?_, ?_, ?_, ?_, ?_, ?_, ?_, ?_, ?_, ?_, ?_, ?_, ?_, ?_, ?_⟩ <;> decide

theorem test_witness_AddressSizeTable : Mode.v86 = .prot16 ∨ Mode.v86 = .real ∨ Mode.v86 = .v86 := by decide

theorem test_witness_NameableRegisters :
    (iVex.wf .long64 = true ∧ evexOf iVex = none ∧ sourceNumber iVex = some 1#5) ∧
      (iEvex.wf .prot32 = true ∧ sourceNumber iEvex = some 1#5) ∧
      (iSse.wf .long64 = true ∧ p66.rex = none ∧ sourceNumber iSse = some 1#5) := by decide

theorem test_witness_StepRunsDecodedInstr :
    let s := placeBytes { base 1#5 with mem := [] } 0 [0x66#8, 0x0F#8, 0x70#8, 0xC1#8, 0x1B#8]
    s.programEnd ≠ some s.pc ∧ decode s.mode (window s) = .instr iSse (List.replicate 14 0#8) ∧
      pcAfter (step s) = some 0x1005#64 := by decide

theorem test_witness_EncodedBytesInMemoryRun :
    let s := code 1#5 [0x66#8, 0x0F#8, 0x70#8, 0xC1#8, 0x1B#8]
    s.programEnd ≠ some s.pc ∧ s.mode = .long64 ∧ s.paging = none ∧ s.regions = [] ∧
      s.pc.toNat + longestInstr ≤ 2 ^ 47 ∧ iSse.wf .long64 = true ∧
      ∀ j (h : j < (encode iSse).length), memByte s.mem (s.pc.toNat + j) = (encode iSse)[j] := by decide

theorem test_witness_StepKeepsInvariant :
    (code 1#5 [0x66#8, 0x0F#8, 0x70#8, 0xC1#8, 0x1B#8]).Inv ∧
      ∃ t, step (code 1#5 [0x66#8, 0x0F#8, 0x70#8, 0xC1#8, 0x1B#8]) = .next t :=
  ⟨inv_of (by decide) (by decide) rfl, next_of_pcAfter (q := 0x1005#64) (by decide)⟩

theorem test_witness_ResetLeavesEveryFormDisabled : instrLength iEvex ≤ 15 ∧ (3#4 : BitVec 4) ≠ 2#4 := by decide

theorem test_witness_RunEndsAndSuccessorRefused :
    { base 1#5 with programEnd := some 0x1000#64 }.programEnd = some (base 1#5).pc ∧
      instrLength iSse ≤ 15 ∧ NoUd { base 1#5 with pc := 0xFFFFFFFFFFFFFFFB#64 } iSse ∧
      { base 1#5 with pc := 0xFFFFFFFFFFFFFFFB#64 }.cr0.getLsbD 3 = false ∧
      ¬ SuccessorInside { base 1#5 with pc := 0xFFFFFFFFFFFFFFFB#64 } (instrLength iSse) :=
  ⟨rfl, by decide, (udOf_iff _ _).1 (by decide), by decide, fun h => absurd h.1 (by decide)⟩

theorem test_witness_Shuffle128SelectsByField : 3 < 4 := by decide

theorem test_witness_ShuffleLanesWorksPerLane : 1 < vlLanes .v256 ∧ vlLanes .v256 ≤ 2 ∧ 7 < kl .v256 := by decide

theorem test_witness_ShuffleIdentityReverseReplicate :
    ∀ t, t < 4 → laneDword 0xCAFEBABECAFEBABECAFEBABECAFEBABE#128 t =
      laneDword 0xCAFEBABECAFEBABECAFEBABECAFEBABE#128 0 := by decide

/-- V1.13: 39H then 93H is the identity order. -/
theorem test_witness_ShuffleComposes :
    ∀ t, t < 4 → orderField 0xE4#8 t = orderField 0x39#8 (orderField 0x93#8 t) := by decide

theorem test_witness_ShufflePermutesIffFieldsDiffer :
    (∀ t, t < 4 → ∀ u, u < 4 → t ≠ u → orderField 0x1B#8 t ≠ orderField 0x1B#8 u) ∧
      orderField 0x00#8 0 = orderField 0x00#8 1 := by decide

theorem test_witness_MemoryOperandIsLittleEndian :
    4 * 15 + 3 < (List.replicate 64 (1#8 : Byte)).length ∧ 15 < 16 := by decide

theorem test_witness_PshufdRegisterResult :
    sourceNumber iSse = some 1#5 ∧ Runnable (base 1#5) iSse ∧ (base 1#5).Inv :=
  ⟨by decide, runnable_of (by decide) (by decide) (by decide) (by decide) (by decide), base_inv⟩

theorem test_witness_PshufdMemoryResult :
    memOperand (base 1#5) iSseMem = some (.ds, 0x8000#64, 16) ∧ Runnable (base 1#5) iSseMem ∧ (base 1#5).Inv ∧
      Readable (base 1#5) .ds 0x8000#64 16 (locsFrom 0x8000 16) ∧
      (testedAddress (base 1#5) .ds 0x8000#64).toNat % 16 = 0 :=
  ⟨by decide, runnable_of (by decide) (by decide) (by decide) (by decide) (by decide), base_inv,
    ⟨by decide, by decide⟩, by decide⟩

theorem test_witness_VexRegisterResult :
    isVex iVex = true ∧ sourceNumber iVex = some 1#5 ∧ Runnable (base 1#5) iVex ∧ (base 1#5).Inv :=
  ⟨by decide, by decide, runnable_of (by decide) (by decide) (by decide) (by decide) (by decide), base_inv⟩

theorem test_witness_VexMemoryResult :
    isVex iVexMem = true ∧ memOperand (base 1#5) iVexMem = some (.ds, 0x8000#64, 32) ∧ Runnable (base 1#5) iVexMem ∧
      (base 1#5).Inv ∧ Readable (base 1#5) .ds 0x8000#64 32 (locsFrom 0x8000 32) ∧
      ¬ AcPossible (base 1#5) .ds 0x8000#64 32 :=
  ⟨by decide, by decide, runnable_of (by decide) (by decide) (by decide) (by decide) (by decide), base_inv,
    ⟨by decide, by decide⟩, not_checked⟩

theorem test_witness_EvexRegisterResult :
    evexOf iEvex = some { evex with aaa := 1#3 } ∧ sourceNumber iEvex = some 1#5 ∧ Runnable (base 1#5) iEvex ∧
      (base 1#5).Inv :=
  ⟨by decide, by decide, runnable_of (by decide) (by decide) (by decide) (by decide) (by decide), base_inv⟩

theorem test_witness_EvexFullMemoryResult :
    evexOf iEvexMem = some { evex with z := true, aaa := 1#3 } ∧ isDisp8Addr16 (bodyOf iEvexMem).rm = false ∧
      memOperand (base 1#5) iEvexMem = some (.ds, 0x8000#64, 32) ∧ Runnable (base 1#5) iEvexMem ∧ (base 1#5).Inv ∧
      Readable (base 1#5) .ds 0x8000#64 32 (locsFrom 0x8000 32) ∧ ¬ AcPossible (base 1#5) .ds 0x8000#64 32 :=
  ⟨by decide, by decide, by decide, runnable_of (by decide) (by decide) (by decide) (by decide) (by decide), base_inv,
    ⟨by decide, by decide⟩, not_checked⟩

theorem test_witness_EvexBroadcastResult :
    evexOf iEvexBcast = some { evex with bcast := true, aaa := 1#3 } ∧ isDisp8Addr16 (bodyOf iEvexBcast).rm = false ∧
      memOperand (base 1#5) iEvexBcast = some (.ds, 0x8000#64, 4) ∧ Runnable (base 1#5) iEvexBcast ∧ (base 1#5).Inv ∧
      Readable (base 1#5) .ds 0x8000#64 4 (locsFrom 0x8000 4) ∧ ¬ AcPossible (base 1#5) .ds 0x8000#64 4 :=
  ⟨by decide, by decide, by decide, runnable_of (by decide) (by decide) (by decide) (by decide) (by decide), base_inv,
    ⟨by decide, by decide⟩, not_checked⟩

theorem test_witness_OnlyDestinationAndPcChange : ∃ t, exec iSse (base 1#5) = .next t :=
  next_of_pcAfter (q := 0x1005#64) (by decide)

theorem test_witness_OperandReadOnceWhole :
    (∃ t, exec iVexMem (base 1#5) = .next t) ∧ memOperand (base 1#5) iVexMem = some (.ds, 0x8000#64, 32) ∧
      (∃ t, exec iVex (base 1#5) = .next t) ∧ sourceNumber iVex = some 1#5 :=
  ⟨next_of_pcAfter (q := 0x1006#64) (by decide), by decide, next_of_pcAfter (q := 0x1005#64) (by decide), by decide⟩

theorem test_witness_EmptyMaskResult :
    evexOf iEvex = some { evex with aaa := 1#3 } ∧ (1#3 : BitVec 3) ≠ 0#3 ∧
      (∀ j, j < kl (lengthOf iEvex) → ((base 1#5).getK 1#3).getLsbD j = false) ∧ (base 1#5).Inv ∧
      (∃ t, exec iEvex (base 1#5) = .next t) ∧ lengthOf iEvex = .v512 ∧
      evexOf iEvexMem = some { evex with z := true, aaa := 1#3 } ∧ ∃ t, exec iEvexMem (base 1#5) = .next t :=
  ⟨by decide, by decide, by decide, base_inv, next_of_pcAfter (q := 0x1007#64) (by decide), by decide, by decide,
    next_of_pcAfter (q := 0x1007#64) (by decide)⟩

theorem test_witness_UnreadMaskBitsHaveNoEffect :
    evexOf iEvex = some { evex with aaa := 1#3 } ∧ (∃ t, exec iEvex (base 1#5) = .next t) ∧
      ∀ j, j < kl (lengthOf iEvex) →
        ({ base 1#5 with k := Vector.replicate 8 0xFFFFFFFFFFFF0000#64 }.getK 1#3).getLsbD j =
          ((base 1#5).getK 1#3).getLsbD j :=
  ⟨by decide, next_of_pcAfter (q := 0x1007#64) (by decide), by decide⟩

theorem test_witness_NoFaultSuppression :
    (∃ t, exec iEvexBcast (base 1#5) = .next t) ∧
      exec iEvex (taskSwitched (base 1#5)) = raise .nm (taskSwitched (base 1#5)) :=
  ⟨next_of_pcAfter (q := 0x1007#64) (by decide), rfl⟩

theorem test_witness_EvexWithoutMaskEqualsVex :
    evexOf iEvexPlain = some evex ∧ isVex iVex = true ∧ lengthOf iEvexPlain = lengthOf iVex ∧
      (bodyOf iEvexPlain).order = (bodyOf iVex).order ∧ destNumber iEvexPlain = destNumber iVex ∧
      sourceNumber iEvexPlain = some 1#5 ∧ sourceNumber iVex = some 1#5 ∧
      (∃ t, exec iEvexPlain (base 1#5) = .next t) ∧ ∃ t, exec iVex (base 1#5) = .next t :=
  ⟨by decide, by decide, by decide, by decide, by decide, by decide, by decide,
    next_of_pcAfter (q := 0x1007#64) (by decide), next_of_pcAfter (q := 0x1005#64) (by decide)⟩

/-- The same with one operand in memory. -/
theorem test_witness_EvexWithoutMaskEqualsVex_memory :
    let i : Instr := .vpshufdEvex256 noPrefixes evex memBody
    evexOf i = some evex ∧ evex.bcast = false ∧ lengthOf i = lengthOf iVexMem ∧
      (bodyOf i).order = (bodyOf iVexMem).order ∧ destNumber i = destNumber iVexMem ∧
      memOperand (base 1#5) i = some (.ds, 0x8000#64, 32) ∧ memOperand (base 1#5) iVexMem = some (.ds, 0x8000#64, 32) ∧
      (∃ t, exec i (base 1#5) = .next t) ∧ ∃ t, exec iVexMem (base 1#5) = .next t :=
  ⟨by decide, by decide, by decide, by decide, by decide, by decide, by decide,
    next_of_pcAfter (q := 0x1007#64) (by decide), next_of_pcAfter (q := 0x1006#64) (by decide)⟩

theorem test_witness_VexPrefixesEquivalent :
    (∀ d, memBody.rm ≠ .disp32 d) ∧
      (∃ t, exec (.vpshufdVex128C5 noPrefixes vex2 memBody) (base 1#5) = .next t) ∧
      (∃ t, exec (.vpshufdVex128C4 noPrefixes { vex3 with w := true } memBody) (base 1#5) = .next t) ∧
      (∃ t, exec (.vpshufdVex256C5 noPrefixes vex2 regBody) (base 1#5) = .next t) ∧
      ∃ t, exec (.vpshufdVex256C4 noPrefixes { vex3 with w := true } regBody) (base 1#5) = .next t :=
  ⟨nofun, next_of_pcAfter (q := 0x1005#64) (by decide), next_of_pcAfter (q := 0x1006#64) (by decide),
    next_of_pcAfter (q := 0x1005#64) (by decide), next_of_pcAfter (q := 0x1006#64) (by decide)⟩

theorem test_witness_SourceBitsAboveVlUnread :
    sourceNumber iVex = some 1#5 ∧ 1#5 ≠ destNumber iVex ∧ (∃ t, exec iVex (base 1#5) = .next t) ∧
      lowLanes (vlLanes (lengthOf iVex))
          (lowLanes (maxLanes (base 1#5).feat) { valueD with lane0 := valueS.lane0 }) =
        lowLanes (vlLanes (lengthOf iVex)) ((base 1#5).getV 1#5) :=
  ⟨by decide, by decide, next_of_pcAfter (q := 0x1005#64) (by decide), by decide⟩

theorem test_witness_MxcsrAndX87HaveNoEffect :
    (∃ t, exec iSse (base 1#5) = .next t) ∧
      exec iSse (taskSwitched (base 1#5)) = raise .nm (taskSwitched (base 1#5)) :=
  ⟨next_of_pcAfter (q := 0x1005#64) (by decide), rfl⟩

theorem test_witness_PrivilegeHasNoEffect :
    (sourceNumber iSse = some 1#5 ∧ ∃ t, exec iSse (base 1#5) = .next t) ∧
      (∀ la, walk { base 1#5 with cpl := 0#2 } la = walk (base 1#5) la) ∧
      { base 1#5 with cpl := 0#2 }.alignCheck = (base 1#5).alignCheck ∧ ∃ t, exec iSseMem (base 1#5) = .next t :=
  ⟨⟨by decide, next_of_pcAfter (q := 0x1005#64) (by decide)⟩, fun _ => rfl, by decide,
    next_of_pcAfter (q := 0x1004#64 + 1#64) (by decide)⟩

theorem test_witness_FlagsUntouched :
    (∃ t, exec iSse (base 1#5) = .next t) ∧
      (0xCD7#64 : Quad).getLsbD 17 = (base 1#5).rflags.getLsbD 17 ∧
      (0xCD7#64 : Quad).getLsbD 18 = (base 1#5).rflags.getLsbD 18 ∧
      exec iSse (taskSwitched (base 1#5)) = .fault (.nm (taskSwitched (base 1#5))) :=
  ⟨next_of_pcAfter (q := 0x1005#64) (by decide), by decide, by decide, rfl⟩

theorem test_witness_LegacyUdConditions : instrLength iSse ≤ 15 := by decide

theorem test_witness_VexUdConditions : isVex iVexMem = true ∧ instrLength iVexMem ≤ 15 := by decide

theorem test_witness_EvexUdConditions :
    evexOf iEvex = some { evex with aaa := 1#3 } ∧ instrLength iEvex ≤ 15 := by decide

theorem test_witness_VvvvOtherThanOnesRaisesUd :
    vvvvOf (.vpshufdVex128C5 noPrefixes { vex2 with vvvv := 14#4 } regBody) = some 14#4 ∧ (14#4 : BitVec 4) ≠ 15#4 ∧
      instrLength (.vpshufdVex128C5 noPrefixes { vex2 with vvvv := 14#4 } regBody) ≤ 15 := by decide

theorem test_witness_NmUnderTaskSwitched :
    instrLength iEvex ≤ 15 ∧ NoUd (taskSwitched (base 1#5)) iEvex ∧ (taskSwitched (base 1#5)).cr0.getLsbD 3 = true :=
  ⟨by decide, (udOf_iff _ _).1 (by decide), by decide⟩

/-- Five prefixes that R89 answers with `#UD`, EVEX, SIB and disp32 make 17 bytes (log 23). -/
theorem test_witness_OverlongRaisesGp :
    15 < instrLength (.vpshufdEvex512 { p66 with seg := some .fs, lock := true, repne := true, rep := true } evex
      (body 0#3 (.sib 0#2 0#3 0#3 (.disp32 0#32)) 0#8)) ∧
    (let s := code 1#5 ([0x64#8, 0x66#8, 0xF0#8, 0xF2#8, 0xF3#8, 0x62#8, 0xF1#8, 0xFD#8, 0x48#8, 0x70#8, 0x84#8] ++
        List.replicate 6 0#8);
      s.programEnd ≠ some s.pc ∧ decode s.mode (window s) = .reserved 17) := by decide

theorem test_witness_FaultsArePrecise :
    let s := paged (general (code 1#5 [0x66#8, 0x0F#8, 0x70#8, 0x00#8, 0x1B#8]) 0x9000#64)
    step s = .fault (.pf 4#32 0x9000#64 s) := rfl

theorem test_witness_ExceptionRecord :
    (let s := paged (general (code 1#5 [0x66#8, 0x0F#8, 0x70#8, 0x00#8, 0x1B#8]) 0x9000#64);
      step s = .fault (.pf 4#32 0x9000#64 s)) ∧
    (let s := code 1#5 [0xC5#8, 0xF1#8, 0x70#8, 0xC1#8, 0x1B#8];
      step s = .fault (.ud s)) := ⟨rfl, rfl⟩

theorem test_witness_RegisterSourceFaults :
    sourceNumber iSse = some 1#5 ∧ exec iSse (taskSwitched (base 1#5)) = .fault (.nm (taskSwitched (base 1#5))) :=
  ⟨by decide, rfl⟩

theorem test_witness_LegacyMisalignedRaisesGp :
    memOperand (general (base 1#5) 0x8004#64) iSseMem = some (.ds, 0x8004#64, 16) ∧
      Runnable (general (base 1#5) 0x8004#64) iSseMem ∧
      (testedAddress (general (base 1#5) 0x8004#64) .ds 0x8004#64).toNat % 16 ≠ 0 ∧
      translateRead (general (base 1#5) 0x8004#64) .ds 0x8004#64 16 ≠ .fault .ss :=
  ⟨by decide, runnable_of (by decide) (by decide) (by decide) (by decide) (by decide), by decide, by decide⟩

/-- V6.19. -/
theorem test_witness_MisalignedAndIllegalInSsRaisesEither :
    let s := general (base 1#5) 0x0000800000000000#64
    let b := body 0#3 (.indirect 5#3 (.disp8 4#8)) 0x1B#8
    memOperand s (.pshufd p66 b) = some (.ss, 0x0000800000000004#64, 16) ∧ Runnable s (.pshufd p66 b) ∧
      (testedAddress s .ss 0x0000800000000004#64).toNat % 16 ≠ 0 ∧
      translateRead s .ss 0x0000800000000004#64 16 = .fault .ss :=
  ⟨by decide, runnable_of (by decide) (by decide) (by decide) (by decide) (by decide), by decide, by decide⟩

theorem test_witness_TranslationFaultIsRaised :
    (let s := paged (general (base 1#5) 0x9000#64);
      memOperand s iSseMem = some (.ds, 0x9000#64, 16) ∧ Runnable s iSseMem ∧
        (testedAddress s .ds 0x9000#64).toNat % 16 = 0 ∧
        translateRead s .ds 0x9000#64 16 = .fault (.pf 4#32 0x9000#64)) ∧
    (let s := general (base 1#5) 0x0000800000000000#64;
      memOperand s iEvexMem = some (.ds, 0x0000800000000000#64, 32) ∧ Runnable s iEvexMem ∧
        isDisp8Addr16 (bodyOf iEvexMem).rm = false ∧ translateRead s .ds 0x0000800000000000#64 32 = .fault .gp) ∧
    (let s := general (base 1#5) 0x0000800000000000#64;
      let i : Instr := .vpshufdVex128C5 noPrefixes vex2 (body 0#3 (.indirect 5#3 (.disp8 0#8)) 0#8);
      memOperand s i = some (.ss, 0x0000800000000000#64, 16) ∧ Runnable s i ∧
        translateRead s .ss 0x0000800000000000#64 16 = .fault .ss) :=
  ⟨⟨by decide, runnable_of (by decide) (by decide) (by decide) (by decide) (by decide), by decide, by decide⟩,
    ⟨by decide, runnable_of (by decide) (by decide) (by decide) (by decide) (by decide), by decide, by decide⟩,
    ⟨by decide, runnable_of (by decide) (by decide) (by decide) (by decide) (by decide), by decide⟩⟩

theorem test_witness_NonCanonicalOperandFaults :
    (base 1#5).mode = .long64 ∧ 15 < 16 ∧
      canonical (base 1#5).machine.linearWidth (linearAddr (base 1#5) .ss (0x00007FFFFFFFFFF1 + 15)) = false ∧
      canonical (base 1#5).machine.linearWidth (linearAddr (base 1#5) .ds (0x00007FFFFFFFFFF1 + 15)) = false := by
  decide

theorem test_witness_SegmentLimitFaults :
    (prot (base 1#5)).mode = .prot32 ∧ (segOf (prot (base 1#5)) .ss).expandDown = false ∧
      (prot (base 1#5)).machine.wrapsAtTop = false ∧ (segOf (prot (base 1#5)) .ss).limit.toNat < 0xFFF1 + 15 ∧
      (segOf (prot (base 1#5)) .ds).limit.toNat < 0xFFF1 + 15 ∧
      (segOf (prot { base 1#5 with es := { (base 1#5).es with usable := false } }) .es).usable = false ∧
      (segOf (prot { base 1#5 with cs := { (base 1#5).cs with readable := false } }) .cs).readable = false := by decide

theorem test_witness_SixteenBitOffsetLimit :
    (realMode (base 1#5)).mode = .real ∧ 0x10000 < (0xFFF1#64 : Quad).toNat + 16 := by decide

theorem test_witness_PageFaultRecord :
    let s := paged (base 1#5)
    segFault s .ds 0x80F0#64 32 = none ∧ 16 < 32 ∧
      walk s (byteLinear s .ds 0x80F0#64 16) = .denied false false false := by decide

/-- V6.21 for the second clause: a VEX, a full EVEX and a broadcast operand. -/
theorem test_witness_AlignmentCheckConditions :
    vvvvOf iSse = none ∧
    (∀ seg ea n, memOperand (base 1#5) iVexMem = some (seg, ea, n) → ¬ AcPossible (base 1#5) seg ea n) ∧
    (checked (base 1#5)).Inv ∧
    (vvvvOf iVexMem ≠ none ∧ evexOf iVexMem = none ∧
      memOperand (checked (base 1#5)) iVexMem = some (.ds, 0x8001#64, 32) ∧ Runnable (checked (base 1#5)) iVexMem) ∧
    (vvvvOf iEvexMem ≠ none ∧ isDisp8Addr16 (bodyOf iEvexMem).rm = false ∧
      memOperand (checked (base 1#5)) iEvexMem = some (.ds, 0x8001#64, 32) ∧ Runnable (checked (base 1#5)) iEvexMem) ∧
    (Readable (checked (base 1#5)) .ds 0x8001#64 32 (locsFrom 0x8001 32) ∧
      AcPossible (checked (base 1#5)) .ds 0x8001#64 32) ∧
    (vvvvOf iEvexBcast ≠ none ∧ isDisp8Addr16 (bodyOf iEvexBcast).rm = false ∧
      memOperand (checked (base 1#5)) iEvexBcast = some (.ds, 0x8001#64, 4) ∧
      Runnable (checked (base 1#5)) iEvexBcast) ∧
    (Readable (checked (base 1#5)) .ds 0x8001#64 4 (locsFrom 0x8001 4) ∧
      AcPossible (checked (base 1#5)) .ds 0x8001#64 4) :=
  ⟨by decide, fun _ _ _ _ => not_checked, inv_of (by decide) (by decide) rfl,
    ⟨by decide, by decide, by decide, runnable_of (by decide) (by decide) (by decide) (by decide) (by decide)⟩,
    ⟨by decide, by decide, by decide, runnable_of (by decide) (by decide) (by decide) (by decide) (by decide)⟩,
    ⟨⟨by decide, by decide⟩, by decide, by decide, by decide, by decide, by decide⟩,
    ⟨by decide, by decide, by decide, runnable_of (by decide) (by decide) (by decide) (by decide) (by decide)⟩,
    ⟨⟨by decide, by decide⟩, by decide, by decide, by decide, by decide, by decide⟩⟩

theorem test_witness_OperandRefusals :
    (let s := { base 1#5 with regions := [{ first := 0x8000, size := 0x10, kind := .device }] };
      memOperand s iSseMem = some (.ds, 0x8000#64, 16) ∧ Runnable s iSseMem ∧
        (testedAddress s .ds 0x8000#64).toNat % 16 = 0 ∧ evexOf iSseMem = none ∧
        translateRead s .ds 0x8000#64 16 = .ok (locsFrom 0x8000 16) ∧
        (∃ l ∈ locsFrom 0x8000 16, regionAt s l = some .device) ∧ ¬ AcPossible s .ds 0x8000#64 16) ∧
    (evexOf iEvexAddr16 = some evex ∧ isDisp8Addr16 (bodyOf iEvexAddr16).rm = true ∧
      Runnable (prot (base 1#5)) iEvexAddr16) :=
  ⟨⟨by decide, runnable_of (by decide) (by decide) (by decide) (by decide) (by decide), by decide, by decide, by decide,
      by decide, fun h => absurd h.1 (by decide)⟩,
    by decide, by decide, by decide, (udOf_iff _ _).1 (by decide), by decide, by decide, .inr (by decide)⟩

theorem test_witness_RipRelativeAddress :
    (bodyOf (.pshufd p66 (body 2#3 (.disp32 0x100#32) 0#8))).rm = .disp32 0x100#32 := by decide

theorem test_witness_ScaledIndexAddress :
    (bodyOf (.pshufd p66 (body 2#3 (.sib 2#2 5#3 4#3 (.disp8 16#8)) 0#8))).rm = .sib 2#2 5#3 4#3 (.disp8 16#8) ∧
      (bodyOf (.pshufd p66 (body 2#3 (.sibNoBase 3#2 4#3 16#32) 0#8))).rm = .sibNoBase 3#2 4#3 16#32 := by decide

theorem test_witness_Disp8Scaling :
    (bodyOf (.vpshufdEvex512 noPrefixes evex (body 5#3 (.indirect 0#3 (.disp8 1#8)) 0#8))).rm =
      .indirect 0#3 (.disp8 1#8) := by decide

theorem test_witness_SixteenBitAddress :
    addressSize (prot (base 1#5)).mode true = .a16 ∧
      (prefixesOf (.pshufd { p66 with addr67 := true } (body 1#3 (.indirect16 6#3 (.disp8 8#8)) 0#8))).addr67 = true ∧
      evexOf (.pshufd { p66 with addr67 := true } (body 1#3 (.indirect16 6#3 (.disp8 8#8)) 0#8)) = none ∧
      (bodyOf (.pshufd { p66 with addr67 := true } (body 1#3 (.indirect16 6#3 (.disp8 8#8)) 0#8))).rm =
        .indirect16 6#3 (.disp8 8#8) ∧
      (bodyOf (.vpshufdEvex128 { noPrefixes with addr67 := true } evex (body 1#3 (.disp16 0xFFFF#16) 0#8))).rm =
        .disp16 0xFFFF#16 ∧
      isDisp8Addr16 (.disp16 0xFFFF#16) = false := by decide

/-- 30_encoding.md R67 by hand: [BP + 8] wraps modulo 2^16 through SS, [BX + SI - 1] goes through DS. -/
theorem test_sixteen_bit_address :
    let s := prot { base 1#5 with x := ((Vector.replicate 16 0#64).set 5 0x1FFFC#64).set 3 0x2000#64 |>.set 6 0x30#64 }
    memOperand s (.pshufd { p66 with addr67 := true } (body 1#3 (.indirect16 6#3 (.disp8 8#8)) 0#8)) =
      some (.ss, 4#64, 16) ∧
    memOperand s (.pshufd { p66 with addr67 := true } (body 1#3 (.indirect16 0#3 (.disp8 0xFF#8)) 0#8)) =
      some (.ds, 0x202F#64, 16) := by decide

theorem test_witness_OperandSegmentRule :
    noPrefixes.seg = none ∧ Mode.prot32 ≠ Mode.long64 ∧ SegReg.es ≠ SegReg.fs ∧ SegReg.es ≠ SegReg.gs ∧
      { noPrefixes with seg := some SegReg.es }.seg = some .es ∧
      { noPrefixes with seg := some SegReg.fs }.seg = some .fs := by decide

end Sys2Proof.Tests
end

/-! PROOFS. The statements of the family 10_state.md: which registers an encoding names, what a step and a completion change,
what holds of every state, and which fields have no effect. -/

namespace Sys2Proof.Machine

open Sys2Proof

/-! ## The register numbers an encoding can name (10_state.md R21, 30_encoding.md R71) -/

/-- The bits above ModRM.reg and ModRM.rm in an instruction's register numbers: R' and R of the destination, X and B of a
register source. -/
structure RegExt where
  destHigh : Bool
  dest : Bool
  sourceHigh : Bool
  source : Bool

/-- The extension bits of each class: REX, VEX and EVEX. Only EVEX has the two high ones. -/
def regExt : Instr → RegExt
  | .pshufd p _ => ⟨false, rexR p, false, rexB p⟩
  | .vpshufdVex128C5 _ e _ | .vpshufdVex256C5 _ e _ => ⟨false, e.r, false, false⟩
  | .vpshufdVex128C4 _ e _ | .vpshufdVex256C4 _ e _ => ⟨false, e.r, false, e.b⟩
  | .vpshufdEvex128 _ e _ | .vpshufdEvex256 _ e _ | .vpshufdEvex512 _ e _ => ⟨e.rHigh, e.r, e.x, e.b⟩

theorem destNumber_eq_reg5 (i : Instr) :
    destNumber i = reg5 (regExt i).destHigh (regExt i).dest (bodyOf i).reg := by
  cases i <;> rfl

theorem sourceNumber_eq_reg5 {i : Instr} {n : BitVec 5} (h : sourceNumber i = some n) :
    ∃ r, n = reg5 (regExt i).sourceHigh (regExt i).source r := by
  cases i <;> rename_i b <;> cases hb : b.rm <;> simp only [sourceNumber, hb, reduceCtorEq, Option.some.injEq] at h <;>
    exact ⟨_, h.symm⟩

theorem reg5_low_lt : ∀ (mid : Bool) (lo : BitVec 3), (reg5 false mid lo).toNat < 16 := by decide

theorem reg5_unextended_lt : ∀ lo : BitVec 3, (reg5 false false lo).toNat < 8 := by decide

/-- Without the two high bits, which only EVEX has, the registers are below 16. -/
theorem registers_lt_16 {i : Instr} (h : evexOf i = none) :
    (destNumber i).toNat < 16 ∧ ∀ n, sourceNumber i = some n → n.toNat < 16 := by
  have hi : (regExt i).destHigh = false ∧ (regExt i).sourceHigh = false := by
    cases i <;> simp [evexOf, regExt] at h ⊢
  refine ⟨?_, fun n hn => ?_⟩
  · rw [destNumber_eq_reg5, hi.1]
    exact reg5_low_lt _ _
  · obtain ⟨r, rfl⟩ := sourceNumber_eq_reg5 hn
    rw [hi.2]
    exact reg5_low_lt _ _

/-- Without any extension bit the registers are below 8. -/
theorem registers_lt_8 {i : Instr} (h : regExt i = ⟨false, false, false, false⟩) :
    (destNumber i).toNat < 8 ∧ ∀ n, sourceNumber i = some n → n.toNat < 8 := by
  refine ⟨?_, fun n hn => ?_⟩
  · rw [destNumber_eq_reg5, h]
    exact reg5_unextended_lt _
  · obtain ⟨r, rfl⟩ := sourceNumber_eq_reg5 hn
    rw [h]
    exact reg5_unextended_lt _

theorem regExt_of_no_rex {p : Prefixes} (b : Body) (h : p.rex = none) :
    regExt (.pshufd p b) = ⟨false, false, false, false⟩ := by
  simp [regExt, rexR, rexB, h]

/-- In prot32 and prot16 no well-formed instruction has an extension bit (30_encoding.md R63, R91). -/
theorem regExt_of_protected {m : Mode} {i : Instr} (h : i.wf m = true) (hm : m = .prot32 ∨ m = .prot16) :
    regExt i = ⟨false, false, false, false⟩ := by
  have hp : isProtected m = true := by simpa [isProtected] using hm
  have hl : m ≠ .long64 := by rcases hm with rfl | rfl <;> decide
  cases i <;> simp only [Instr.wf, Bool.and_eq_true] at h <;> obtain ⟨⟨hrex, he⟩, -⟩ := h
  case pshufd p b => exact regExt_of_no_rex b (by simpa [Prefixes.wf, hl] using hrex)
  case vpshufdVex128C5 | vpshufdVex256C5 =>
    simp only [Vex2.wf, hl, decide_false, Bool.false_or, Bool.and_eq_true, Bool.not_eq_true'] at he
    simp [regExt, he]
  case vpshufdVex128C4 | vpshufdVex256C4 =>
    simp only [Vex3.wf, hl, hp, decide_false, Bool.false_or, Bool.not_true, Bool.and_eq_true, Bool.not_eq_true'] at he
    simp [regExt, he]
  case vpshufdEvex128 | vpshufdEvex256 | vpshufdEvex512 =>
    simp only [Evex.wf, hl, hp, decide_false, Bool.false_or, Bool.not_true, Bool.and_eq_true, Bool.not_eq_true'] at he
    simp [regExt, he]

/-- Settles O7: the extension bits that an encoding class and a mode leave bound the register numbers. -/
theorem nameableRegisters : Obligations.NameableRegisters := by
  intro m i hw
  refine ⟨registers_lt_16, fun hm => registers_lt_8 (regExt_of_protected hw hm), ?_⟩
  rintro p b rfl hrex
  exact registers_lt_8 (regExt_of_no_rex b hrex)

/-! ## The invariant -/

theorem avx512f_of_evex {s : State} {i : Instr} {e : Evex} (he : evexOf i = some e) (hn : NoUd s i) :
    s.machine.feat.avx512f = true := by
  have hflag (flag : Bool) (p : Prefixes) (e : Evex) (rm : Rm) : EvexNoUd s flag p e rm → flag = true := by
    rintro ⟨⟨-, -, -, -, -, -, hf, -⟩, -⟩
    exact hf
  cases i
  case vpshufdEvex128 | vpshufdEvex256 => exact (Bool.and_eq_true_iff.1 (hflag _ _ _ _ hn)).1
  case vpshufdEvex512 => exact hflag _ _ _ _ hn
  all_goals cases he

/-- A machine without AVX512F runs no instruction whose destination is one of the upper 16 registers. -/
theorem destNumber_lt_of_no_avx512f {s : State} {i : Instr} (hn : NoUd s i) (h : s.machine.feat.avx512f = false) :
    (destNumber i).toNat < 16 := by
  cases he : evexOf i with
  | none => exact (registers_lt_16 he).1
  | some e => simp [avx512f_of_evex he hn] at h

/-- A completion keeps the invariant where its next address and its destination exist. -/
theorem complete_inv {s : State} {d : BitVec 5} {z : Zmm} {next : Quad} {es : List ReadEvent} (h : s.Inv)
    (hpc : next.toNat < 2 ^ pcWidth s.mode) (hd : s.machine.feat.avx512f = false → d.toNat < 16) :
    (complete s d z next es).Inv where
  mem := h.mem
  pc := hpc
  width n := by
    by_cases hn : n = d
    · subst hn
      simp
    · rw [getV_complete_ne _ _ _ _ _ _ hn]
      exact h.width n
  high ha n hn := by
    have hne : n ≠ d := by
      rintro rfl
      exact absurd (hd ha) (by omega)
    rw [getV_complete_ne _ _ _ _ _ _ hne]
    exact h.high ha n hn
  fits := h.fits
  masks := h.masks
  noMasks := h.noMasks

theorem exec_inv {s t : State} {i : Instr} (h : s.Inv) (he : exec i s = .next t) : t.Inv := by
  obtain ⟨-, hu, -, hs, src, -, rfl⟩ := exec_next he
  refine complete_inv h ?_ (destNumber_lt_of_no_avx512f ((udOf_iff s i).1 hu))
  rw [nextAddress_toNat hs]
  exact hs.1

/-- Settles O10: a step that gives a next state is a completion, which keeps the invariant. -/
theorem stepKeepsInvariant : Obligations.StepKeepsInvariant := by
  intro s t h hst
  obtain ⟨i, -, -, he⟩ := step_next hst
  exact exec_inv h he

/-! ## What a step runs, and how it moves `pc` -/

theorem exec_pc {s t : State} {i : Instr} (h : exec i s = .next t) : t.pc = s.pc + BitVec.ofNat 64 (instrLength i) := by
  obtain ⟨-, -, -, -, src, -, rfl⟩ := exec_next h
  rfl

theorem step_of_decoded {s : State} {i : Instr} {rest : List Byte} (hp : s.programEnd ≠ some s.pc)
    (hd : decode s.mode (window s) = .instr i rest) : step s = exec i s := by
  simp [step, hp, hd]

/-- Settles O8: the step is the decoded instruction's meaning, whose completion moves `pc` by its length. -/
theorem stepRunsDecodedInstr : Obligations.StepRunsDecodedInstr := by
  intro s i rest hp hd
  have hstep := step_of_decoded hp hd
  exact ⟨hstep, fun t ht => exec_pc (hstep ▸ ht)⟩

theorem step_of_programEnd {s : State} (h : s.programEnd = some s.pc) : step s = .refused .programEnded :=
  if_pos h

theorem guarded_outside {s : State} {len : Nat} {ud : Bool} (body : Quad → Outcome) (hl : len ≤ 15) (hu : ud = false)
    (ht : s.ts = false) (hs : ¬ SuccessorInside s len) : guarded s len ud body = .refused .successorOutside := by
  simp [guarded, lengthLimit, hl, hu, ht, nextPc_of_outside hs]

/-- Settles O13: both refusals, the second once the checks for length, `#UD` and `#NM` are passed. -/
theorem runEndsAndSuccessorRefused : Obligations.RunEndsAndSuccessorRefused := by
  refine ⟨fun s => step_of_programEnd, fun s i hl hn ht hs => ?_⟩
  rw [exec_eq]
  exact guarded_outside _ hl ((udOf_iff s i).2 hn) ht hs

/-! ## What a completion leaves unchanged (10_state.md R32) -/

theorem exec_frame {s t : State} {i : Instr} (h : exec i s = .next t) : FrameExcept s t (destNumber i) := by
  obtain ⟨-, -, -, -, src, -, rfl⟩ := exec_next h
  exact frame_complete _ _ _ _ _

/-- Settles O27: the frame of a completion, and its fields read off. -/
theorem onlyDestinationAndPcChange : Obligations.OnlyDestinationAndPcChange := by
  intro s t i h
  have hframe := exec_frame h
  have hpc := exec_pc h
  obtain ⟨-, -, -, -, src, -, rfl⟩ := exec_next h
  exact ⟨hframe, hpc, rfl, rfl, rfl, rfl, rfl, rfl, rfl, rfl, rfl, rfl, rfl, rfl⟩

/-! ## An instruction up to its completion -/

/-- What an instruction does before its completion: the checks in the order of 60_exceptions.md R151, then operand 2. -/
def checkedSource (s : State) (i : Instr) : Got Source :=
  if lengthLimit < instrLength i then .raises .gp
  else if udOf s i then .raises .ud
  else if s.ts then .raises .nm
  else
    match nextPc s (instrLength i) with
    | none => .stops .successorOutside
    | some next => sourceOf s next i

theorem exec_eq_checkedSource (i : Instr) (s : State) :
    exec i s = withGot s (checkedSource s i) fun src =>
      .next (complete s (destNumber i) (valueOf s src.value i) (nextAddress s (instrLength i)) src.events) := by
  rw [exec_eq]
  unfold guarded checkedSource
  split
  · rfl
  split
  · rfl
  split
  · rfl
  rcases nextPc_eq s (instrLength i) with ⟨hn, -⟩ | ⟨hn, -⟩
  · rw [hn]
  · rw [hn]
    rfl

/-- An instruction completes where it gets operand 2. -/
theorem exec_next_iff {i : Instr} {s t : State} :
    exec i s = .next t ↔ ∃ src, checkedSource s i = .got src ∧
      t = complete s (destNumber i) (valueOf s src.value i) (nextAddress s (instrLength i)) src.events := by
  rw [exec_eq_checkedSource]
  cases checkedSource s i with
  | got src => simp [withGot, eq_comm]
  | raises e => simp [withGot, raise_ne_next]
  | stops r => simp [withGot]

theorem exec_raise_iff {i : Instr} {s : State} {x : Exc} :
    exec i s = raise x s ↔ checkedSource s i = .raises x := by
  rw [exec_eq_checkedSource]
  cases checkedSource s i with
  | got src => simpa [withGot] using (raise_ne_next x s _).symm
  | raises e => simpa [withGot] using ⟨raise_injective, fun h => h ▸ rfl⟩
  | stops r => simpa [withGot] using (raise_ne_refused x s r).symm

/-! ## Fields that no form reads -/

/-- Other contents of the opmask registers, the flags with VM and AC as they are, MXCSR and the x87 registers
(10_state.md R23, R24, R25, R28). -/
structure Unread (s : State) where
  k : Vector Quad 8
  rflags : Quad
  mxcsr : BitVec 32
  st : Vector (BitVec 80) 8
  fsw : BitVec 16
  ftw : BitVec 16
  vm : rflags.getLsbD 17 = s.rflags.getLsbD 17
  ac : rflags.getLsbD 18 = s.rflags.getLsbD 18

/-- The state with those contents. -/
def State.withUnread (s : State) (u : Unread s) : State :=
  { s with k := u.k, rflags := u.rflags, mxcsr := u.mxcsr, st := u.st, fsw := u.fsw, ftw := u.ftw }

section Unread

variable (s : State) (u : Unread s)

@[simp] theorem withUnread_mode : (s.withUnread u).mode = s.mode := by
  have hvm : (s.withUnread u).vm = s.vm := u.vm
  unfold State.mode
  rw [hvm]
  rfl

@[simp] theorem withUnread_alignCheck : (s.withUnread u).alignCheck = s.alignCheck := by
  have hac : (s.withUnread u).acFlag = s.acFlag := u.ac
  unfold State.alignCheck
  rw [hac]
  rfl

@[simp] theorem linearAddr_withUnread (seg : SegReg) (o : Nat) :
    linearAddr (s.withUnread u) seg o = linearAddr s seg o := by
  unfold linearAddr segBase
  rw [withUnread_mode]
  rfl

@[simp] theorem segFault_withUnread (seg : SegReg) (ea : Quad) (n : Nat) :
    segFault (s.withUnread u) seg ea n = segFault s seg ea n := by
  unfold segFault allCanonical
  simp only [withUnread_mode, linearAddr_withUnread]
  rfl

@[simp] theorem byteLinear_withUnread (seg : SegReg) (ea : Quad) (j : Nat) :
    byteLinear (s.withUnread u) seg ea j = byteLinear s seg ea j := by
  unfold byteLinear
  simp only [withUnread_mode, linearAddr_withUnread]
  rfl

@[simp] theorem walk_withUnread (la : Quad) : walk (s.withUnread u) la = walk s la := by
  unfold walk
  rw [withUnread_mode]
  rfl

@[simp] theorem translateRead_withUnread (seg : SegReg) (ea : Quad) (n : Nat) :
    translateRead (s.withUnread u) seg ea n = translateRead s seg ea n := by
  have hloc : byteLocation (s.withUnread u) seg ea = byteLocation s seg ea := by
    funext j
    simp [byteLocation]
  have hpf : bytePageFault (s.withUnread u) seg ea = bytePageFault s seg ea := by
    funext j
    simp only [bytePageFault, walk_withUnread, byteLinear_withUnread]
    rfl
  unfold translateRead
  rw [segFault_withUnread, hloc, hpf]
  rfl

theorem memRead_withUnread (legacy : Bool) (seg : SegReg) (ea : Quad) (n : Nat) :
    memRead (s.withUnread u) legacy seg ea n = memRead s legacy seg ea n := by
  have hm : misaligned (s.withUnread u) legacy seg ea = misaligned s legacy seg ea := by
    unfold misaligned testedAddress
    rw [linearAddr_withUnread]
    rfl
  have ha : acTaken (s.withUnread u) legacy seg ea n = acTaken s legacy seg ea n := by
    unfold acTaken
    rw [withUnread_alignCheck, linearAddr_withUnread]
    rfl
  unfold memRead
  rw [translateRead_withUnread, hm, ha]
  rfl

theorem readOperand_withUnread (legacy : Bool) (p : Prefixes) (ad : Addressing) (next : Quad) (bytes : Nat) :
    readOperand (s.withUnread u) legacy p ad next bytes = readOperand s legacy p ad next bytes := by
  unfold readOperand
  rw [memRead_withUnread, withUnread_mode]
  rfl

theorem sourceOf_withUnread (next : Quad) (i : Instr) : sourceOf (s.withUnread u) next i = sourceOf s next i := by
  cases i <;>
    simp only [sourceOf, readSource, evexSource, withUnread_mode, readOperand_withUnread] <;> rfl

theorem udOf_withUnread (i : Instr) : udOf (s.withUnread u) i = udOf s i := by
  cases i <;> simp only [udOf, legacyUd, vexUd, evexUd, withUnread_mode] <;> rfl

/-- Nothing before the completion depends on these fields. -/
theorem checkedSource_withUnread (i : Instr) : checkedSource (s.withUnread u) i = checkedSource s i := by
  have hn : nextPc (s.withUnread u) (instrLength i) = nextPc s (instrLength i) := by
    unfold nextPc
    rw [withUnread_mode]
    rfl
  unfold checkedSource
  simp only [udOf_withUnread, sourceOf_withUnread, hn]
  rfl

/-- A completion with the value unchanged writes the same and keeps the other contents. -/
theorem exec_withUnread_next {t : State} {i : Instr} (h : exec i s = .next t)
    (hv : ∀ src, valueOf (s.withUnread u) src i = valueOf s src i) :
    exec i (s.withUnread u) =
      .next { t with k := u.k, rflags := u.rflags, mxcsr := u.mxcsr, st := u.st, fsw := u.fsw, ftw := u.ftw } := by
  obtain ⟨src, hsrc, rfl⟩ := exec_next_iff.1 h
  refine exec_next_iff.2 ⟨src, (checkedSource_withUnread s u i).trans hsrc, ?_⟩
  rw [hv]
  rfl

theorem exec_withUnread_raise {i : Instr} {x : Exc} (h : exec i s = raise x s) :
    exec i (s.withUnread u) = raise x (s.withUnread u) := by
  rw [exec_raise_iff] at h ⊢
  rw [checkedSource_withUnread, h]

/-- The value written depends on the vector registers and, in EVEX forms, on the opmask registers. -/
theorem valueOf_withUnread_of_masks (hk : u.k = s.k) (src : Zmm) (i : Instr) :
    valueOf (s.withUnread u) src i = valueOf s src i := by
  have hm (a : BitVec 3) : (s.withUnread u).getK a = s.getK a := by simp [State.getK, State.withUnread, hk]
  cases i <;> simp only [valueOf, hm] <;> rfl

end Unread

/-- EvexWrite depends on the mask bits below KL only, and on none without a writemask (10_state.md R23). -/
theorem evexMerge_congr_mask {vl : VL} {aaa : BitVec 3} {mask mask' : Quad}
    (h : aaa ≠ 0#3 → ∀ j, j < kl vl → mask'.getLsbD j = mask.getLsbD j) (z : Bool) (old tmp : Zmm) :
    evexMerge vl aaa mask' z old tmp = evexMerge vl aaa mask z old tmp := by
  have hon : ∀ j, j < kl vl → maskOn aaa mask' j = maskOn aaa mask j := by
    intro j hj
    by_cases ha : aaa = 0#3
    · simp [maskOn, ha]
    · simp [maskOn, h ha j hj]
  refine zmm_ext fun l _ => ?_
  rw [laneOf_evexMerge, laneOf_evexMerge]
  split
  · refine lane_ext fun t ht => ?_
    rw [laneDword_maskedLane _ _ _ _ _ _ ht, laneDword_maskedLane _ _ _ _ _ _ ht, hon _ (by unfold kl; omega)]
  · rfl

/-- Settles O30: other opmask contents change the value only through the mask bits below KL. -/
theorem unreadMaskBitsHaveNoEffect : Obligations.UnreadMaskBitsHaveNoEffect := by
  intro s t i e k' he h hk
  obtain ⟨-, -, -, -, _, -, rfl⟩ := exec_next h
  refine exec_withUnread_next s ⟨k', s.rflags, s.mxcsr, s.st, s.fsw, s.ftw, rfl, rfl⟩ h fun src => ?_
  rw [valueOf_evex he, valueOf_evex he]
  exact evexMerge_congr_mask hk _ _ _

/-- Settles O35: nothing reads MXCSR or the x87 registers, and a completion keeps them. -/
theorem mxcsrAndX87HaveNoEffect : Obligations.MxcsrAndX87HaveNoEffect := by
  intro s i m r sw tw
  refine ⟨fun t h => ?_, fun x h => exec_withUnread_raise s ⟨s.k, s.rflags, m, r, sw, tw, rfl, rfl⟩ h⟩
  have hother := exec_withUnread_next s ⟨s.k, s.rflags, m, r, sw, tw, rfl, rfl⟩ h fun src =>
    valueOf_withUnread_of_masks s _ rfl src i
  obtain ⟨-, -, -, -, _, -, rfl⟩ := exec_next h
  exact ⟨rfl, rfl, rfl, rfl, hother⟩

/-- Settles O37: of the flags only VM and AC are read, and neither a completion nor a fault changes the register. -/
theorem flagsUntouched : Obligations.FlagsUntouched := by
  refine fun s i => ⟨fun t h => ?_, fun f h => ?_⟩
  · have hother (r : Quad) (hvm : r.getLsbD 17 = s.rflags.getLsbD 17) (hac : r.getLsbD 18 = s.rflags.getLsbD 18) :=
      exec_withUnread_next s ⟨s.k, r, s.mxcsr, s.st, s.fsw, s.ftw, hvm, hac⟩ h fun src =>
        valueOf_withUnread_of_masks s _ rfl src i
    obtain ⟨-, -, -, -, _, -, rfl⟩ := exec_next h
    exact ⟨rfl, hother⟩
  · obtain ⟨e, he⟩ := exec_fault h
    obtain ⟨f', hf, hleft⟩ := raise_fault e s
    rw [he, hf] at h
    cases h
    rw [hleft]

end Sys2Proof.Machine

/-! PROOFS. The statements of the family 20_memory.md: fetching and reading bytes, where a memory operand stands, and the faults
and refusals of reading it. -/

namespace Sys2Proof.Machine

open Sys2Proof

/-! ## Bytes at `pc` run as the instruction they encode (20_memory.md R54) -/

theorem length_encode (i : Instr) : (encode i).length = instrLength i := by
  cases i with
  | pshufd p b => exact Laws.EncodeLength.pshufd p b
  | vpshufdVex128C5 p e b => exact Laws.EncodeLength.vpshufdVex128C5 p e b
  | vpshufdVex128C4 p e b => exact Laws.EncodeLength.vpshufdVex128C4 p e b
  | vpshufdVex256C5 p e b => exact Laws.EncodeLength.vpshufdVex256C5 p e b
  | vpshufdVex256C4 p e b => exact Laws.EncodeLength.vpshufdVex256C4 p e b
  | vpshufdEvex128 p e b => exact Laws.EncodeLength.vpshufdEvex128 p e b
  | vpshufdEvex256 p e b => exact Laws.EncodeLength.vpshufdEvex256 p e b
  | vpshufdEvex512 p e b => exact Laws.EncodeLength.vpshufdEvex512 p e b

theorem prefixesLength_le (p : Prefixes) : prefixesLength p ≤ 7 := by
  have h1 := Bool.toNat_le p.seg.isSome
  have h2 := Bool.toNat_le p.addr67
  have h3 := Bool.toNat_le p.opsize66
  have h4 := Bool.toNat_le p.lock
  have h5 := Bool.toNat_le p.repne
  have h6 := Bool.toNat_le p.rep
  have h7 := Bool.toNat_le p.rex.isSome
  unfold prefixesLength
  omega

theorem instrLength_le_longestInstr (i : Instr) : instrLength i ≤ longestInstr := by
  have hp := prefixesLength_le (prefixesOf i)
  have hr := rmLength_le (bodyOf i).rm
  cases i <;> simp only [instrLength, prefixesOf, bodyOf, longestInstr] at hp hr ⊢ <;> omega

/-- What the encoding class reads behind the encoder's prefixes is what the decoder reads. -/
theorem decode_of_decodeClass {m : Mode} {p : Prefixes} {c : Byte} {bs : List Byte} {d : Decoded} (hc : ClassByte c)
    (hp : p.wf m = true) (h : ∀ n, decodeClass m p n (c :: bs) = d) : decode m (encodePrefixes p ++ c :: bs) = d := by
  obtain ⟨n, hn⟩ := decode_encodePrefixes m p c bs hc hp
  rw [hn, h]

theorem decodeLegacy_encode {m : Mode} {p : Prefixes} (n : Nat) {b : Body} (rest : List Byte) (hl : p.wfLegacy = true)
    (hb : b.rm.wf (addressSize m p.addr67) = true) :
    decodeClass m p n (0x0F#8 :: 0x70#8 :: (encodeBody b ++ rest)) = .instr (.pshufd p b) rest := by
  have h66 : p.opsize66 = true ∧ (!p.repne) = true ∧ (!p.rep) = true := by
    simpa [Prefixes.wfLegacy, and_assoc] using hl
  simp only [decodeClass, decodeLegacy, h66, and_self, if_true]
  exact finishInstr_encodeBody _ _ _ _ hb

theorem classByte_legacy : ClassByte 0x0F#8 := ⟨by decide, by decide⟩
theorem classByte_vex2 : ClassByte 0xC5#8 := ⟨by decide, by decide⟩
theorem classByte_vex3 : ClassByte 0xC4#8 := ⟨by decide, by decide⟩
theorem classByte_evex : ClassByte 0x62#8 := ⟨by decide, by decide⟩

/-- The decoder reads back what the encoder writes, whatever bytes follow (30_encoding.md R60). -/
theorem decode_encode {m : Mode} {i : Instr} (rest : List Byte) (h : i.wf m = true) :
    decode m (encode i ++ rest) = .instr i rest := by
  cases i <;> simp only [Instr.wf, Bool.and_eq_true] at h <;> obtain ⟨⟨hp, he⟩, hb⟩ := h <;>
    simp only [encode, List.append_assoc]
  case pshufd p b =>
    exact decode_of_decodeClass classByte_legacy hp fun n => decodeLegacy_encode n rest he hb
  case vpshufdVex128C5 p e b =>
    exact decode_of_decodeClass classByte_vex2 hp fun n => decodeVex2_encode m p n e false b rest he hb
  case vpshufdVex128C4 p e b =>
    exact decode_of_decodeClass classByte_vex3 hp fun n => decodeVex3_encode m p n e false b rest he hb
  case vpshufdVex256C5 p e b =>
    exact decode_of_decodeClass classByte_vex2 hp fun n => decodeVex2_encode m p n e true b rest he hb
  case vpshufdVex256C4 p e b =>
    exact decode_of_decodeClass classByte_vex3 hp fun n => decodeVex3_encode m p n e true b rest he hb
  case vpshufdEvex128 p e b =>
    exact decode_of_decodeClass classByte_evex hp fun n => decodeEvex_encode m p n e 0#2 b rest (by decide) he hb
  case vpshufdEvex256 p e b =>
    exact decode_of_decodeClass classByte_evex hp fun n => decodeEvex_encode m p n e 1#2 b rest (by decide) he hb
  case vpshufdEvex512 p e b =>
    exact decode_of_decodeClass classByte_evex hp fun n => decodeEvex_encode m p n e 2#2 b rest (by decide) he hb

theorem canonical_of_lt {w : LinearWidth} {la : Quad} (h : la.toNat < 2 ^ 47) : canonical w la = true := by
  have h47 : la.extractLsb' 47 17 = 0#17 := by
    apply BitVec.eq_of_toNat_eq
    simp only [BitVec.extractLsb'_toNat, Nat.shiftRight_eq_div_pow, BitVec.toNat_ofNat]
    rw [Nat.div_eq_of_lt h]
  have h56 : la.extractLsb' 56 8 = 0#8 := by
    apply BitVec.eq_of_toNat_eq
    simp only [BitVec.extractLsb'_toNat, Nat.shiftRight_eq_div_pow, BitVec.toNat_ofNat]
    rw [Nat.div_eq_of_lt (by omega)]
  cases w <;> simp [canonical, h47, h56]

/-- In long64 with paging off the code segment is flat: below 2^47 byte `j` at `pc` is fetched from location `pc + j`. -/
theorem fetchLocation_flat {s : State} {j : Nat} (hm : s.mode = .long64) (hp : s.paging = none)
    (hj : s.pc.toNat + j < 2 ^ 47) : fetchLocation s j = some (s.pc.toNat + j) := by
  have hla : (linearAddr s .cs (s.pc.toNat + j)).toNat = s.pc.toNat + j := by
    simp only [linearAddr, segBase, hm, linearBits, BitVec.toNat_ofNat]
    omega
  have hc : canonical s.machine.linearWidth (linearAddr s .cs (s.pc.toNat + j)) = true :=
    canonical_of_lt (by omega)
  simp only [fetchLocation, hm, hp, pcWidth, hc, hla, if_true, and_true]
  rw [if_pos (by omega)]

theorem fetchByte_flat {s : State} {j : Nat} (hm : s.mode = .long64) (hp : s.paging = none) (hr : s.regions = [])
    (hj : s.pc.toNat + j < 2 ^ 47) : fetchByte s j = some (memByte s.mem (s.pc.toNat + j)) := by
  simp [fetchByte, fetchLocation_flat hm hp hj, regionAt, hr]

/-- Where the fetch finds the bytes `bs`, fetching that many or more gives `bs` first. -/
theorem fetchBytes_append (s : State) (n : Nat) (bs : List Byte) : ∀ i,
    (∀ j (h : j < bs.length), fetchByte s (i + j) = some bs[j]) →
    fetchBytes s i (bs.length + n) = bs ++ fetchBytes s (i + bs.length) n := by
  induction bs with
  | nil => intro i _; simp
  | cons b bs ih =>
    intro i h
    have hb : fetchByte s i = some b := h 0 (by simp)
    have htail := ih (i + 1) fun j hj => by
      rw [Nat.add_right_comm]
      exact h (j + 1) (Nat.succ_lt_succ hj)
    have hlen : (b :: bs).length + n = bs.length + n + 1 := by simp only [List.length_cons]; omega
    have hi : i + 1 + bs.length = i + (b :: bs).length := by simp only [List.length_cons]; omega
    rw [hlen, fetchBytes, hb, ← hi]
    simp [htail]

/-- Settles O9: the window begins with the bytes of the instruction, which the decoder reads back. -/
theorem encodedBytesInMemoryRun : Obligations.EncodedBytesInMemoryRun := by
  intro s i hend hm hpg hr hpc hw hbytes
  have hlen : (encode i).length ≤ longestInstr := length_encode i ▸ instrLength_le_longestInstr i
  have hfetch : ∀ j (h : j < (encode i).length), fetchByte s (0 + j) = some (encode i)[j] := by
    intro j hj
    rw [Nat.zero_add, fetchByte_flat hm hpg hr (by omega), hbytes j hj]
  obtain ⟨n, hn⟩ := Nat.le.dest hlen
  have hwin : window s = encode i ++ fetchBytes s (0 + (encode i).length) n := by
    rw [← fetchBytes_append s n _ 0 hfetch, hn]
    rfl
  exact step_of_decoded hend (hm ▸ hwin ▸ decode_encode _ hw)

/-! ## The value of a memory operand (20_memory.md R42) -/

/-- A doubleword is its four bytes, the last of them highest. -/
theorem laneDword_eq_bytes (a : Lane) (t : Nat) :
    laneDword a t = a.extractLsb' (8 * (4 * t + 3)) 8 ++ a.extractLsb' (8 * (4 * t + 2)) 8 ++
      a.extractLsb' (8 * (4 * t + 1)) 8 ++ a.extractLsb' (8 * (4 * t)) 8 := by
  rw [BitVec.extractLsb'_append_extractLsb'_eq_extractLsb' (by omega),
    BitVec.extractLsb'_append_extractLsb'_eq_extractLsb' (by omega),
    BitVec.extractLsb'_append_extractLsb'_eq_extractLsb' (by omega)]
  rw [laneDword, show 32 * t = 8 * (4 * t) by omega]

theorem getD_take_drop (bs : List Byte) (k n i : Nat) (h : i < n) :
    ((bs.drop k).take n).getD i 0#8 = bs.getD (k + i) 0#8 := by
  simp only [List.getD_eq_getElem?_getD, List.getElem?_take_of_lt h, List.getElem?_drop]

/-- Byte `i` of lane `l` of an operand is byte `16l + i` of it. -/
theorem laneOf_zmmOfBytes_byte (bs : List Byte) {l i : Nat} (hl : l < 4) (hi : i < 16) :
    (laneOf (zmmOfBytes bs) l).extractLsb' (8 * i) 8 = bs.getD (16 * l + i) 0#8 := by
  rw [zmmOfBytes, laneOf_zmmOf _ hl, laneOfBytes_byte _ _ hi, getD_take_drop _ _ _ _ hi]

/-- Settles O19: doubleword j is doubleword j mod 4 of lane j / 4, byte by byte. -/
theorem memoryOperandIsLittleEndian : Obligations.MemoryOperandIsLittleEndian := by
  intro bs j _ hj
  have hbyte (i : Nat) (hi : i < 4) :
      (laneOf (zmmOfBytes bs) (j / 4)).extractLsb' (8 * (4 * (j % 4) + i)) 8 = bs.getD (4 * j + i) 0#8 := by
    rw [laneOf_zmmOfBytes_byte bs (by omega) (by omega)]
    congr 1
    omega
  rw [dwordOf, laneDword_eq_bytes, hbyte 3 (by omega), hbyte 2 (by omega), hbyte 1 (by omega)]
  exact congrArg _ (hbyte 0 (by omega))

/-! ## What a completed read reads (20_memory.md R41, R46, R52) -/

/-- One event for each location, in order, each the memory oracle's answer. -/
theorem readBytes_got {s : State} {locs : List Nat} {es : List ReadEvent} (h : readBytes s locs = .got es) :
    es.length = locs.length ∧ ∀ j (hj : j < es.length) (hj' : j < locs.length),
      es[j].location = locs[j] ∧ es[j].byte = oracleByte s j locs[j] := by
  unfold readBytes at h
  split at h
  · cases h
  · cases h
    simp

theorem memRead_got {s : State} {legacy : Bool} {seg : SegReg} {ea : Quad} {n : Nat} {es : List ReadEvent}
    (h : memRead s legacy seg ea n = .got es) :
    ∃ locs, translateRead s seg ea n = .ok locs ∧ readBytes s locs = .got es := by
  rcases memRead_cases s legacy seg ea n with ⟨locs, es', ht, -, -, hr, hm⟩ | ⟨_, _, _, _, _, hm⟩ | ⟨_, hm⟩ |
      ⟨_, _, _, hm⟩ | ⟨_, _, _, hm⟩ <;> rw [h] at hm <;> cases hm
  exact ⟨locs, ht, hr⟩

theorem operandBytes_of_memOperand {s : State} {i : Instr} {seg : SegReg} {ea : Quad} {n : Nat}
    (h : memOperand s i = some (seg, ea, n)) : n = operandBytes i := by
  rw [memOperand_eq] at h
  obtain ⟨ad, -, had⟩ := Option.map_eq_some_iff.1 h
  cases had
  rfl

/-- An operand in memory that was obtained was read by MemRead. -/
theorem events_of_sourceOf_memory {s : State} {i : Instr} {seg : SegReg} {ea : Quad} {n : Nat} {src : Source}
    (h : memOperand s i = some (seg, ea, n)) (hs : sourceOf s (nextAddress s (instrLength i)) i = .got src) :
    memRead s (vvvvOf i).isNone seg ea n = .got src.events := by
  rw [sourceOf_memory h] at hs
  split at hs
  · cases hs
  · cases hm : memRead s (vvvvOf i).isNone seg ea n <;> rw [hm] at hs <;> cases hs
    rfl

/-- Settles O28: the events of a completion are those of its one MemRead, or none with a register source. -/
theorem operandReadOnceWhole : Obligations.OperandReadOnceWhole := by
  intro s t i h
  obtain ⟨-, -, -, -, src, hsrc, rfl⟩ := exec_next h
  refine ⟨fun n hn => ?_, fun seg ea n hmo => ?_⟩
  · rw [sourceOf_register hn] at hsrc
    cases hsrc
    rfl
  · obtain ⟨locs, htr, hrb⟩ := memRead_got (events_of_sourceOf_memory hmo hsrc)
    obtain ⟨hlen, hes⟩ := readBytes_got hrb
    have hn := translateRead_ok_length htr
    exact ⟨operandBytes_of_memOperand hmo, locs, src.events, htr, hn, hlen.trans hn, rfl, hes⟩

/-- Settles O31: no opmask register is read before the completion, so neither the read nor the exception depends on one. -/
theorem noFaultSuppression : Obligations.NoFaultSuppression := by
  intro s i k'
  obtain ⟨u, hu⟩ : ∃ u : Unread s, s.withUnread u = { s with k := k' } :=
    ⟨⟨k', s.rflags, s.mxcsr, s.st, s.fsw, s.ftw, rfl, rfl⟩, rfl⟩
  rw [← hu]
  refine ⟨fun t h => ?_, fun x h => exec_withUnread_raise s u h⟩
  obtain ⟨src, hsrc, rfl⟩ := exec_next_iff.1 h
  refine ⟨_, exec_next_iff.2 ⟨src, (checkedSource_withUnread s u i).trans hsrc, rfl⟩, ?_⟩
  simp only [complete_reads, State.withUnread]

/-! ## Faults of MemRead (20_memory.md R43, R50) -/

section MemRead

variable {s : State} {i : Instr} {seg : SegReg} {ea : Quad} {n : Nat}

/-- A misaligned legacy operand: `#GP(0)`, but for the choice where it is illegal in SS. -/
theorem memRead_of_misaligned {legacy : Bool} (hm : misaligned s legacy seg ea = true) :
    memRead s legacy seg ea n = .raises .gp ∨
      (translateRead s seg ea n = .fault .ss ∧ memRead s legacy seg ea n = .raises .ss) := by
  have hlegacy : legacy = true := (Bool.and_eq_true_iff.1 hm).1
  rcases memRead_cases s legacy seg ea n with ⟨_, _, _, hm', _⟩ | ⟨_, _, hm', _⟩ | ⟨_, hr⟩ | ⟨_, _, ha, _⟩ |
      ⟨e, ht, he, hr⟩
  · simp [hm] at hm'
  · simp [hm] at hm'
  · exact .inl hr
  · simp [acTaken, hlegacy] at ha
  · rcases he with rfl | hm'
    · exact .inr ⟨ht, hr⟩
    · simp [hm] at hm'

theorem misaligned_eq_false (ha : vvvvOf i = none → (testedAddress s seg ea).toNat % 16 = 0) :
    misaligned s (vvvvOf i).isNone seg ea = false := by
  cases hv : vvvvOf i with
  | none => simp [misaligned, ha hv]
  | some v => rfl

theorem memRead_of_translateRead_fault {legacy : Bool} {x : Exc} (hm : misaligned s legacy seg ea = false)
    (ht : translateRead s seg ea n = .fault x) : memRead s legacy seg ea n = .raises x := by
  cases x <;> simp [memRead, ht, hm]

theorem memRead_of_device {legacy : Bool} {locs : List Nat} (hm : misaligned s legacy seg ea = false)
    (ha : acTaken s legacy seg ea n = false) (ht : translateRead s seg ea n = .ok locs)
    (hd : ∃ l ∈ locs, regionAt s l = some .device) : memRead s legacy seg ea n = .stops .deviceOperand := by
  simp [memRead, ht, hm, ha, readBytes, hd]

/-! ## The outcome of an instruction whose read does not complete -/

theorem sourceOf_eq_memRead (hmo : memOperand s i = some (seg, ea, n))
    (hd : evexOf i ≠ none → isDisp8Addr16 (bodyOf i).rm = false) :
    sourceOf s (nextAddress s (instrLength i)) i =
      mapGot (fun es => { value := operandValue i (eventBytes es), events := es })
        (memRead s (vvvvOf i).isNone seg ea n) := by
  have hcond : ((evexOf i).isSome && isDisp8Addr16 (bodyOf i).rm) = false := by
    cases he : evexOf i with
    | none => rfl
    | some e => simp [hd (by simp [he])]
  rw [sourceOf_memory hmo, hcond]
  rfl

theorem exec_of_memRead_raises {x : Exc} (hmo : memOperand s i = some (seg, ea, n)) (hr : Runnable s i)
    (hd : evexOf i ≠ none → isDisp8Addr16 (bodyOf i).rm = false)
    (h : memRead s (vvvvOf i).isNone seg ea n = .raises x) : exec i s = raise x s := by
  rw [exec_runnable hr, sourceOf_eq_memRead hmo hd, h]
  rfl

theorem exec_of_memRead_stops {r : Refusal} (hmo : memOperand s i = some (seg, ea, n)) (hr : Runnable s i)
    (hd : evexOf i ≠ none → isDisp8Addr16 (bodyOf i).rm = false)
    (h : memRead s (vvvvOf i).isNone seg ea n = .stops r) : exec i s = .refused r := by
  rw [exec_runnable hr, sourceOf_eq_memRead hmo hd, h]
  rfl

/-- A misaligned operand of PSHUFD: `#GP(0)`, or `#SS(0)` where the translation answers that. -/
theorem exec_pshufd_misaligned {p : Prefixes} {b : Body} (hmo : memOperand s (.pshufd p b) = some (seg, ea, n))
    (hr : Runnable s (.pshufd p b)) (ha : (testedAddress s seg ea).toNat % 16 ≠ 0) :
    exec (.pshufd p b) s = raise .gp s ∨
      (translateRead s seg ea n = .fault .ss ∧ exec (.pshufd p b) s = raise .ss s) := by
  have hraise {x : Exc} (h : memRead s true seg ea n = .raises x) : exec (.pshufd p b) s = raise x s :=
    exec_of_memRead_raises hmo hr (fun hne => absurd rfl hne) h
  have hm : misaligned s true seg ea = true := by simp [misaligned, ha]
  rcases memRead_of_misaligned hm with h | ⟨ht, h⟩
  · exact .inl (hraise h)
  · exact .inr ⟨ht, hraise h⟩

end MemRead

/-- Settles O47: where the translation does not answer `#SS`, a misaligned operand leaves only `#GP(0)`. -/
theorem legacyMisalignedRaisesGp : Obligations.LegacyMisalignedRaisesGp := by
  intro s p b seg ea n hmo hr ha hss
  rcases exec_pshufd_misaligned hmo hr ha with h | ⟨ht, -⟩
  · exact h
  · exact absurd ht hss

/-- Settles O48: a misaligned operand leaves only the two exceptions. -/
theorem misalignedAndIllegalInSsRaisesEither : Obligations.MisalignedAndIllegalInSsRaisesEither := by
  intro s p b seg ea n hmo hr ha _
  rcases exec_pshufd_misaligned hmo hr ha with h | ⟨-, h⟩
  · exact .inr h
  · exact .inl h

/-- Settles O49: MemRead passes the fault of an aligned operand's translation on, which is one of three kinds. -/
theorem translationFaultIsRaised : Obligations.TranslationFaultIsRaised := by
  intro s i seg ea n x hmo hr ha hd ht
  have hexec : exec i s = raise x s :=
    exec_of_memRead_raises hmo hr hd (memRead_of_translateRead_fault (misaligned_eq_false ha) ht)
  rcases translateRead_fault_kind ht with rfl | rfl | ⟨p, rsvd, pk, la, rfl⟩
  · exact .inl ⟨rfl, hexec⟩
  · exact .inr (.inl ⟨rfl, hexec⟩)
  · exact .inr (.inr ⟨_, la, rfl, hexec⟩)

/-! ## The two refusals of a memory operand (20_memory.md R47, 30_encoding.md R67) -/

theorem acTaken_eq_false {s : State} {i : Instr} {seg : SegReg} {ea : Quad} {n : Nat} (h : ¬ AcPossible s seg ea n) :
    acTaken s (vvvvOf i).isNone seg ea n = false :=
  Bool.eq_false_iff.2 fun ht => h (acTaken_spec ht).1

/-- A disp8 with 16-bit addresses belongs to a memory operand. -/
theorem memOperand_of_disp8Addr16 {i : Instr} (s : State) (h : isDisp8Addr16 (bodyOf i).rm = true) :
    ∃ seg ea n, memOperand s i = some (seg, ea, n) := by
  obtain ⟨rm, d, hrm⟩ : ∃ rm d, (bodyOf i).rm = .indirect16 rm (.disp8 d) := by
    unfold isDisp8Addr16 at h
    split at h
    · exact ⟨_, _, ‹_›⟩
    · cases h
  rw [memOperand_eq, hrm]
  exact ⟨_, _, _, rfl⟩

/-- Settles O55: a device stops MemRead once it is translated and aligned; the EVEX disp8 is refused before MemRead. -/
theorem operandRefusals : Obligations.OperandRefusals := by
  refine ⟨fun s i seg ea n locs hmo hr ha hd ht hdev hac => ?_, fun s i e he hd hr => ?_⟩
  · exact exec_of_memRead_stops hmo hr hd
      (memRead_of_device (misaligned_eq_false ha) (acTaken_eq_false hac) ht hdev)
  · obtain ⟨seg, ea, n, hmo⟩ := memOperand_of_disp8Addr16 s hd
    rw [exec_runnable hr, sourceOf_memory hmo, he, hd]
    rfl

/-! ## Segment faults (20_memory.md R51) -/

section SegFault

variable {s : State} {seg : SegReg} {ea : Quad} {n : Nat}

theorem translateRead_of_segFault {x : Exc} (h : segFault s seg ea n = some x) :
    translateRead s seg ea n = .fault x := by
  simp [translateRead, h]

theorem allCanonical_eq_false {j : Nat} (hj : j < n)
    (h : canonical s.machine.linearWidth (linearAddr s seg (ea.toNat + j)) = false) :
    allCanonical s seg ea n = false := by
  have hall : ((List.range n).all fun i => canonical s.machine.linearWidth (linearAddr s seg (ea.toNat + i))) = false :=
    List.all_eq_false.2 ⟨j, List.mem_range.2 hj, by simp [h]⟩
  rw [allCanonical, hall, Bool.false_and]

theorem allInLimit_eq_false {g : Segment} {j : Nat} (hj : j < n) (h : inLimit g (byteOffset s ea j) = false) :
    allInLimit s g ea n = false :=
  List.all_eq_false.2 ⟨j, List.mem_range.2 hj, by simp [h]⟩

/-- The table's line for a byte outside the segment in prot32 and prot16. -/
theorem segFault_of_outside_limit (hm : s.mode = .prot32 ∨ s.mode = .prot16)
    (h : allInLimit s (segOf s seg) ea n = false) : segFault s seg ea n = some (if seg = .ss then .ss else .gp) := by
  by_cases hs : seg = .ss
  · subst hs
    have hss : allInLimit s s.ss ea n = false := h
    rcases hm with hm | hm <;> simp [segFault, hm, hss]
  · rcases hm with hm | hm <;> simp [segFault, hm, hs, h]

/-- The table's lines for a null and an unreadable segment in prot32 and prot16. -/
theorem segFault_of_unusable (hm : s.mode = .prot32 ∨ s.mode = .prot16) (hs : seg ≠ .ss)
    (h : (segOf s seg).usable = false ∨ (segOf s seg).readable = false) : segFault s seg ea n = some .gp := by
  have hur : ((segOf s seg).usable && (segOf s seg).readable) = false := Bool.and_eq_false_iff.2 h
  rcases hm with hm | hm <;> simp only [segFault, hm, hs, hur, if_false, Bool.false_and, Bool.false_eq_true]

end SegFault

/-- Settles O50: one non-canonical byte fails the canonical test of the whole operand. -/
theorem nonCanonicalOperandFaults : Obligations.NonCanonicalOperandFaults := by
  intro s seg ea n j hm hj hc
  apply translateRead_of_segFault
  simp [segFault, hm, allCanonical_eq_false hj hc]

/-- Settles O51: one byte above the limit fails the limit test of the whole operand; the other lines are the table's. -/
theorem segmentLimitFaults : Obligations.SegmentLimitFaults := by
  intro s seg ea n hm
  refine ⟨fun j hj hdown hwrap hlim => ?_, fun hs h => translateRead_of_segFault (segFault_of_unusable hm hs h)⟩
  have hout : inLimit (segOf s seg) (byteOffset s ea j) = false := by
    simpa [inLimit, byteOffset, hdown, hwrap] using hlim
  exact translateRead_of_segFault (segFault_of_outside_limit hm (allInLimit_eq_false hj hout))

/-- Settles O52: the bound of real and v86 holds for every segment. -/
theorem sixteenBitOffsetLimit : Obligations.SixteenBitOffsetLimit := by
  intro s seg ea n hm hlim
  apply translateRead_of_segFault
  have hout : ¬ ea.toNat + n ≤ 0x10000 := by omega
  rcases hm with hm | hm <;> simp [segFault, hm, hout]

/-! ## The address and segment of a memory operand (20_memory.md R57, R58) -/

/-- A memory operand in the rules' words: segment rule, truncated sum, size. -/
theorem memOperand_of_addressing {s : State} {i : Instr} {ad : Addressing}
    (h : addressing s.mode (extOf i) (disp8Factor i) (bodyOf i).rm = some ad) :
    memOperand s i = some (segmentRule s.mode (prefixesOf i) (defaultSeg ad),
      truncated (addressSize s.mode (prefixesOf i).addr67)
        ((if ad.riprel then nextAddress s (instrLength i) else (ad.base.map s.getX).getD 0#64) +
          (ad.index.map s.getX).getD 0#64 * BitVec.ofNat 64 ad.scale + ad.disp),
      operandBytes i) := by
  rw [memOperand_eq, h, Option.map_some, operandSeg_eq, effectiveAddress_eq]

/-- Settles O56: the form has no base and no index; in long64 the next address stands for the base. -/
theorem ripRelativeAddress : Obligations.RipRelativeAddress := by
  intro s i d hrm
  have had : addressing s.mode (extOf i) (disp8Factor i) (bodyOf i).rm =
      some ⟨none, none, 1, d.signExtend 64, s.mode = .long64⟩ := by
    rw [hrm]
    rfl
  rw [memOperand_of_addressing had, defaultSeg_none _ rfl]
  simp [nextAddress]

/-- Settles O57: base, scaled index and displacement of the two SIB forms. -/
theorem scaledIndexAddress : Obligations.ScaledIndexAddress := by
  refine fun s i sc ix => ⟨fun ba d hrm => ?_, fun d hrm => ?_⟩
  · have had : addressing s.mode (extOf i) (disp8Factor i) (bodyOf i).rm =
        some ⟨some (reg4 (extOf i).b ba), indexReg (extOf i) ix, 2 ^ sc.toNat, displacement i d, false⟩ := by
      rw [hrm, ← dispValue_eq]
      rfl
    rw [memOperand_of_addressing had, defaultSeg_base _ _ rfl, indexReg_scaled]
    rfl
  · have had : addressing s.mode (extOf i) (disp8Factor i) (bodyOf i).rm =
        some ⟨none, indexReg (extOf i) ix, 2 ^ sc.toNat, d.signExtend 64, false⟩ := by
      rw [hrm]
      rfl
    rw [memOperand_of_addressing had, defaultSeg_none _ rfl, indexReg_scaled]
    simp

theorem defaultSeg_eq_ss_iff (ad : Addressing) : defaultSeg ad = .ss ↔ ad.base = some 4#4 ∨ ad.base = some 5#4 := by
  unfold defaultSeg
  split <;> simp_all

theorem defaultSeg_ss_or_ds (ad : Addressing) : defaultSeg ad = .ss ∨ defaultSeg ad = .ds := by
  unfold defaultSeg
  split
  · exact .inl rfl
  · exact .inr rfl

/-- Settles O60: the default without an override, and which overrides count in which mode. -/
theorem operandSegmentRule : Obligations.OperandSegmentRule := by
  intro m p ad
  refine ⟨fun hp => ?_, fun sg hp hm => ?_, fun sg hp hm hsg => ?_, fun sg hp hm hfs hgs => ?_⟩
  · have hdefault : operandSeg m p ad = defaultSeg ad := by simp [operandSeg, hp]
    rw [hdefault]
    exact ⟨defaultSeg_eq_ss_iff ad, defaultSeg_ss_or_ds ad⟩
  · simp [operandSeg, hp, hm]
  · rcases hsg with rfl | rfl <;> simp [operandSeg, hp]
  · simp [operandSeg, hp, hm, hfs, hgs]

end Sys2Proof.Machine

/-! PROOFS. The statements of the family 30_encoding.md: the decoder against the encoder, the encodings it refuses or reserves,
what the VEX and EVEX fields change, and the addressing forms. -/

namespace Sys2Proof.Machine

open Sys2Proof

/-! ## Decoding what the encoder writes (30_encoding.md R60) -/

/-- Settles O1: each part of an encoding is read back behind the one before it. -/
theorem decodeOfEncodeGivesInstr : Obligations.DecodeOfEncodeGivesInstr :=
  fun _ _ rest hw => decode_encode rest hw

/-! ## What the decoder reads is an instruction of the mode (30_encoding.md R63 to R70, R91) -/

section Classes

variable {m : Mode} {p : Prefixes} {bs rest : List Byte} {i : Instr}

/-- Outside long64 bits 7:6 of the byte after `C5`, `C4` or `62` are 11b (30_encoding.md R91). -/
theorem topBits_of_modOf {b : Byte} (h : ¬ (m ≠ .long64 ∧ modOf b ≠ 3#2)) :
    (decide (m = .long64) || (bit b 7 && bit b 6)) = true := by
  have htop : ∀ b : Byte, modOf b = 3#2 → (bit b 7 && bit b 6) = true := by decide
  by_cases hm : m = .long64
  · simp [hm]
  · simp [htop b (by tauto)]

/-- The bits that prot32 and prot16 require are set (30_encoding.md R91). -/
theorem required_of_not_refused {a : Bool} (h : ¬ (isProtected m = true ∧ (!a) = true)) :
    (!isProtected m || a) = true := by
  cases hp : isProtected m <;> simp_all

theorem vvvvHigh_eq_bit (b : Byte) : (b.extractLsb' 3 4).getLsbD 3 = bit b 6 := by
  simp [bit]

/-- What the bytes behind the prefixes `p` are read as: an instruction of the mode, as long as the bytes taken. -/
def ReadsInstr (m : Mode) (p : Prefixes) (bs : List Byte) (i : Instr) (rest : List Byte) : Prop :=
  i.wf m = true ∧ prefixesLength p + bs.length = instrLength i + rest.length

theorem decodeLegacy_reads (hp : p.wf m = true) (h : decodeLegacy m p bs = .instr i rest) :
    ReadsInstr m p (0x0F#8 :: bs) i rest := by
  unfold decodeLegacy at h
  split at h
  · cases h
  split at h
  · rename_i hop
    obtain ⟨-, h66, hne, hrep⟩ := hop
    obtain ⟨b, rfl, hrm, hlen⟩ := finishInstr_spec h
    refine ⟨by simp [Instr.wf, Prefixes.wfLegacy, hp, hrm, h66, hne, hrep], ?_⟩
    simp only [instrLength, List.length_cons]
    omega
  · cases h

theorem decodeVex2_reads (hp : p.wf m = true) (h : decodeVex2 m p bs = .instr i rest) :
    ReadsInstr m p (0xC5#8 :: bs) i rest := by
  unfold decodeVex2 at h
  split at h
  · rename_i v1 op bs'
    split at h
    · cases h
    rename_i hfix
    obtain ⟨b, rfl, hrm, hlen⟩ := finishInstr_spec h
    have he : Vex2.wf m { r := !bit v1 7, vvvv := v1.extractLsb' 3 4 } = true := by
      simpa only [Vex2.wf, vvvvHigh_eq_bit, Bool.not_not] using topBits_of_modOf (fun hm => hfix (.inl hm))
    split
    all_goals
      refine ⟨by simp [Instr.wf, hp, he, hrm], ?_⟩
      simp only [instrLength, List.length_cons]
      omega
  · cases h

theorem decodeVex3_reads (hp : p.wf m = true) (h : decodeVex3 m p bs = .instr i rest) :
    ReadsInstr m p (0xC4#8 :: bs) i rest := by
  unfold decodeVex3 at h
  split at h
  · rename_i v1 v2 op bs'
    split at h
    · cases h
    rename_i hfix
    split at h
    · cases h
    rename_i hprot
    obtain ⟨b, rfl, hrm, hlen⟩ := finishInstr_spec h
    have he : Vex3.wf m { r := !bit v1 7, x := !bit v1 6, b := !bit v1 5, w := bit v2 7, vvvv := v2.extractLsb' 3 4 } =
        true := by
      simpa only [Vex3.wf, vvvvHigh_eq_bit, Bool.not_not, Bool.and_eq_true] using
        And.intro (topBits_of_modOf fun hm => hfix (.inl hm)) (required_of_not_refused hprot)
    split
    all_goals
      refine ⟨by simp [Instr.wf, hp, he, hrm], ?_⟩
      simp only [instrLength, List.length_cons]
      omega
  · cases h

theorem decodeEvex_reads {n : Nat} (hp : p.wf m = true) (h : decodeEvex m p n bs = .instr i rest) :
    ReadsInstr m p (0x62#8 :: bs) i rest := by
  unfold decodeEvex at h
  split at h
  · rename_i p0 p1 p2 op bs'
    split at h
    · cases h
    rename_i hfix
    split at h
    · cases h
    rename_i hprot
    split at h
    · split at h <;> cases h
    obtain ⟨b, rfl, hrm, hlen⟩ := finishInstr_spec h
    have he : Evex.wf m
        { r := !bit p0 7, x := !bit p0 6, b := !bit p0 5, rHigh := !bit p0 4, vvvv := p1.extractLsb' 3 4,
          z := bit p2 7, bcast := bit p2 4, vHigh := bit p2 3, aaa := p2.extractLsb' 0 3 } = true := by
      simpa only [Evex.wf, Bool.not_not, Bool.and_eq_true] using
        And.intro (topBits_of_modOf fun hm => hfix (.inl hm)) (required_of_not_refused hprot)
    unfold evexRow
    split
    case' isFalse => split
    all_goals
      refine ⟨by simp [Instr.wf, hp, he, hrm], ?_⟩
      simp only [instrLength, List.length_cons]
      omega
  · cases h

theorem decodeClass_reads {n : Nat} (hp : p.wf m = true) (h : decodeClass m p n bs = .instr i rest) :
    ReadsInstr m p bs i rest := by
  unfold decodeClass at h
  split at h
  · cases h
  · split at h
    · subst ‹_ = 0x0F#8›
      exact decodeLegacy_reads hp h
    split at h
    · subst ‹_ = 0xC5#8›
      exact decodeVex2_reads hp h
    split at h
    · subst ‹_ = 0xC4#8›
      exact decodeVex3_reads hp h
    split at h
    · subst ‹_ = 0x62#8›
      exact decodeEvex_reads hp h
    · cases h

theorem decodeRex_reads {n : Nat} (hp : p.rex = none) (h : decodeRex m p n bs = .instr i rest) :
    ReadsInstr m p bs i rest := by
  unfold decodeRex at h
  split at h
  · cases h
  · split at h
    · rename_i hrex
      split at h
      · cases h
      · obtain ⟨hw, hlen⟩ := decodeClass_reads (by simp [Prefixes.wf, hrex.1]) h
        refine ⟨hw, hlen ▸ ?_⟩
        simp only [prefixesLength, hp, List.length_cons, Option.isSome_some, Option.isSome_none, Bool.toNat_true,
          Bool.toNat_false]
        omega
    · exact decodeClass_reads (by simp [Prefixes.wf, hp]) h

end Classes

/-- Settles O2: the scanned prefixes and what each encoding class reads behind them. -/
theorem decodedInstrIsWellFormed : Obligations.DecodedInstrIsWellFormed := by
  intro m bs i rest h
  unfold decode at h
  split at h
  · cases h
  · rename_i p bs' hscan
    obtain ⟨hrex, hpre⟩ := scanPrefixes_spec hscan
    obtain ⟨hw, hlen⟩ := decodeRex_reads hrex h
    have hzero : prefixesLength noPrefixes = 0 := rfl
    exact ⟨hw, by omega⟩

/-! ## Encodings that are refused or reserved (30_encoding.md R87, R88, R92) -/

/-- The decoder reads an encoding class without prefixes from its first byte. -/
theorem decode_of_classByte {c : Byte} (m : Mode) (bs : List Byte) (hc : ClassByte c) :
    decode m (c :: bs) = decodeClass m noPrefixes 0 (c :: bs) := by
  obtain ⟨hlegacy, hrex⟩ := hc
  simp [decode, scanPrefixes, decodeRex, hlegacy, hrex]

/-- Without `66`, or with `F2` or `F3`, the legacy opcode is another instruction's (30_encoding.md R92). -/
theorem decodeClass_legacy_refused {p : Prefixes} (hp : p.wfLegacy = false) (m : Mode) (n : Nat) (bs : List Byte) :
    decodeClass m p n (0x0F#8 :: 0x70#8 :: bs) = .refused .notThisInstruction := by
  have hno : ¬ (p.opsize66 = true ∧ (!p.repne) = true ∧ (!p.rep) = true) := by
    rintro ⟨h66, hne, hrep⟩
    simp [Prefixes.wfLegacy, h66, hne, hrep] at hp
  simp only [decodeClass, decodeLegacy, if_true, true_and, if_neg hno]

/-- Settles O4: the class byte selects the reader, whose test for pp, map or the mandatory prefix fails. -/
theorem neighbourOpcodesRefused : Obligations.NeighbourOpcodesRefused := by
  intro m b bs
  have hlegacy {p : Prefixes} (hp : p.wf m = true) (hl : p.wfLegacy = false) :
      decode m (encodePrefixes p ++ 0x0F#8 :: 0x70#8 :: bs) = .refused .notThisInstruction :=
    decode_of_decodeClass classByte_legacy hp fun n => decodeClass_legacy_refused hl m n bs
  refine ⟨hlegacy (p := noPrefixes) rfl rfl, hlegacy (p := { noPrefixes with rep := true }) rfl rfl,
    hlegacy (p := { noPrefixes with repne := true }) rfl rfl,
    hlegacy (p := { noPrefixes with opsize66 := true, rep := true }) rfl rfl,
    hlegacy (p := { noPrefixes with opsize66 := true, repne := true }) rfl rfl,
    fun hpp => ?_, fun hpp v1 => ?_, fun hmap v2 => ?_, fun hpp p0 p2 => ?_⟩
  · rw [decode_of_classByte _ _ classByte_vex2]
    simp [decodeClass, decodeVex2, hpp]
  · rw [decode_of_classByte _ _ classByte_vex3]
    simp [decodeClass, decodeVex3, hpp]
  · rw [decode_of_classByte _ _ classByte_vex3]
    simp [decodeClass, decodeVex3, hmap]
  · rw [decode_of_classByte _ _ classByte_evex]
    simp [decodeClass, decodeEvex, hpp]

/-- An EVEX prefix on opcode 70 with a reserved field that matches no row, and a complete body (30_encoding.md R87, R88). -/
theorem decodeEvex_reserved {m : Mode} {p : Prefixes} {n : Nat} {p0 p1 p2 : Byte} {bs rest : List Byte} {b : Body}
    (hm : m = .long64 ∨ modOf p0 = 3#2 ∧ bit p0 5 = true ∧ bit p0 4 = true ∧ bit p2 3 = true)
    (hmap : p0.extractLsb' 0 2 = 1#2) (hpp : p1.extractLsb' 0 2 = 1#2)
    (hres : p0.extractLsb' 2 2 ≠ 0#2 ∨ bit p1 7 = true ∨ (!bit p1 2) = true ∨ p2.extractLsb' 5 2 = 3#2)
    (hb : takeBody (addressSize m p.addr67) bs = some (b, rest)) :
    decodeEvex m p n (p0 :: p1 :: p2 :: 0x70#8 :: bs) = .reserved (n + 4 + (bs.length - rest.length)) := by
  have hclass : ¬ (m ≠ .long64 ∧ modOf p0 ≠ 3#2) := by tauto
  have hprot : ¬ (isProtected m = true ∧ (!(bit p0 5 && bit p0 4 && bit p2 3)) = true) := by
    rcases hm with rfl | ⟨-, h5, h4, h3⟩
    · simp [isProtected]
    · simp [h5, h4, h3]
  simp only [decodeEvex, hclass, hmap, hpp, ne_eq, not_true_eq_false, or_self, if_false, if_neg hprot]
  rw [if_pos hres, hb]

theorem step_of_reserved {s : State} {len : Nat} (hp : s.programEnd ≠ some s.pc)
    (hd : decode s.mode (window s) = .reserved len) (hl : len ≤ 15) : step s = .fault (.ud s) := by
  have hlen : ¬ lengthLimit < len := by simpa [lengthLimit] using hl
  simp only [step, if_neg hp, hd, reservedOutcome, if_neg hlen]
  rfl

/-- Settles O5: such an encoding without prefixes is reserved and at most 12 bytes long. -/
theorem reservedEvexFieldsRaiseUd : Obligations.ReservedEvexFieldsRaiseUd := by
  intro s p0 p1 p2 bs hend hwin hm hmap hpp hres hbody
  obtain ⟨⟨b, rest⟩, hb⟩ := Option.isSome_iff_exists.1 hbody
  have hres' : p0.extractLsb' 2 2 ≠ 0#2 ∨ bit p1 7 = true ∨ (!bit p1 2) = true ∨ p2.extractLsb' 5 2 = 3#2 := by
    simp only [bit, Bool.not_eq_true']
    tauto
  have hd : decode s.mode (window s) = .reserved (0 + 1 + 4 + (bs.length - rest.length)) := by
    rw [hwin, decode_of_classByte _ _ classByte_evex]
    exact decodeEvex_reserved hm hmap hpp hres' hb
  obtain ⟨-, hlen⟩ := takeBody_spec hb
  have hrm := rmLength_le b.rm
  exact step_of_reserved hend hd (by omega)

/-! ## The fields of VEX and EVEX (30_encoding.md R69, R85, R86) -/

theorem guarded_next {s t : State} {len : Nat} {ud : Bool} {body : Quad → Outcome}
    (h : guarded s len ud body = .next t) : body (nextAddress s len) = .next t := by
  rcases guarded_cases s len ud body with ⟨-, hg⟩ | ⟨-, -, hg⟩ | ⟨-, -, -, hg⟩ | ⟨-, -, -, -, hg⟩ | ⟨-, -, -, -, hg⟩ <;>
    rw [hg] at h
  · exact absurd h (raise_ne_next _ _ _)
  · exact absurd h (raise_ne_next _ _ _)
  · exact absurd h (raise_ne_next _ _ _)
  · cases h
  · exact h

theorem guarded_ud {s : State} {len : Nat} {ud : Bool} (body : Quad → Outcome) (hl : len ≤ 15) (hu : ud = true) :
    guarded s len ud body = .fault (.ud s) := by
  simp [guarded, lengthLimit, Nat.not_lt.2 hl, hu, raise]

section Vex

variable {s t u : State} {vl : VL} {p : Prefixes} {e : Ext}

/-- What a completed VEX form read and wrote. -/
theorem runVex_next {len : Nat} {vvvv : BitVec 4} {d : BitVec 5} {b : Body}
    (h : runVex s vl len p vvvv d e b = .next t) :
    ∃ src, readSource s false vl p e b.rm (nextAddress s len) = .got src ∧
      t = complete s d (shuffleLanes vl src.value b.order) (nextAddress s len) src.events := by
  have hbody := guarded_next h
  cases hsrc : readSource s false vl p e b.rm (nextAddress s len) with
  | got src =>
    rw [hsrc] at hbody
    cases hbody
    exact ⟨src, rfl, rfl⟩
  | raises x =>
    rw [hsrc] at hbody
    exact absurd hbody (raise_ne_next _ _ _)
  | stops r =>
    rw [hsrc] at hbody
    cases hbody

/-- Only the RIP-relative form counts from the next instruction (30_encoding.md R66). -/
theorem riprel_of_addressing {m : Mode} {n : Nat} {rm : Rm} {ad : Addressing} (h : addressing m e n rm = some ad)
    (hrip : m = .long64 → ∀ d, rm ≠ .disp32 d) : ad.riprel = false := by
  cases rm <;> simp only [addressing, reduceCtorEq, Option.some.injEq] at h
  case disp32 d =>
    subst h
    exact decide_eq_false fun hm => hrip hm d rfl
  all_goals
    subst h
    rfl

theorem readSource_congr_next {legacy : Bool} {rm : Rm} (hrip : s.mode = .long64 → ∀ d, rm ≠ .disp32 d)
    (next next' : Quad) : readSource s legacy vl p e rm next = readSource s legacy vl p e rm next' := by
  cases had : addressing s.mode e 1 rm with
  | none =>
    cases rm <;> simp only [addressing, reduceCtorEq] at had
    rfl
  | some ad =>
    rw [readSource_memory had, readSource_memory had]
    simp [readOperand, effectiveAddress, riprel_of_addressing had hrip]

/-- Two VEX forms that differ in length only, by one byte, complete alike but for `pc`. -/
theorem runVex_succ_length {len : Nat} {vvvv : BitVec 4} {d : BitVec 5} {b : Body}
    (hrip : s.mode = .long64 → ∀ d, b.rm ≠ .disp32 d) (ht : runVex s vl len p vvvv d e b = .next t)
    (hu : runVex s vl (len + 1) p vvvv d e b = .next u) : u = { t with pc := t.pc + 1#64 } := by
  obtain ⟨src, hsrc, rfl⟩ := runVex_next ht
  obtain ⟨src', hsrc', rfl⟩ := runVex_next hu
  have hsame : src' = src := by
    rw [readSource_congr_next hrip _ (nextAddress s len), hsrc] at hsrc'
    cases hsrc'
    rfl
  have hnext : nextAddress s (len + 1) = nextAddress s len + 1#64 := by
    simp only [nextAddress, BitVec.ofNat_add, BitVec.add_assoc]
  rw [hsame, hnext]
  rfl

end Vex

/-- Settles O33: a C4 form with X = B = 0 runs as the C5 form of its fields that is one byte longer. -/
theorem vexPrefixesEquivalent : Obligations.VexPrefixesEquivalent := by
  intro s t u p e w b hrip e3
  have hlen (n : Nat) : prefixesLength p + 4 + n + 1 = prefixesLength p + 3 + n + 1 + 1 := by omega
  have h128 : exec (.vpshufdVex128C4 p e3 b) s =
      runVex s .v128 (instrLength (.vpshufdVex128C5 p e b) + 1) p e.vvvv (vex2Dest e b) vex2Ext b :=
    congrArg (fun len => runVex s .v128 len p e.vvvv (vex2Dest e b) vex2Ext b) (hlen _)
  have h256 : exec (.vpshufdVex256C4 p e3 b) s =
      runVex s .v256 (instrLength (.vpshufdVex256C5 p e b) + 1) p e.vvvv (vex2Dest e b) vex2Ext b :=
    congrArg (fun len => runVex s .v256 len p e.vvvv (vex2Dest e b) vex2Ext b) (hlen _)
  exact ⟨fun ht hu => runVex_succ_length hrip ht (h128 ▸ hu), fun ht hu => runVex_succ_length hrip ht (h256 ▸ hu)⟩

/-- An instruction without a `#UD` condition stores 1111b in vvvv, where it has one (30_encoding.md R85). -/
theorem vvvv_of_noUd {s : State} {i : Instr} {v : BitVec 4} (hn : NoUd s i) (hv : vvvvOf i = some v) : v = 15#4 := by
  have hvex {flag : Bool} {p : Prefixes} {v : BitVec 4} : VexNoUd s flag p v → v = 15#4 := by
    rintro ⟨-, -, -, -, -, -, -, h⟩
    exact h
  cases i <;> cases hv
  case vpshufdVex128C5 | vpshufdVex128C4 | vpshufdVex256C5 | vpshufdVex256C4 => exact hvex hn
  case vpshufdEvex128 | vpshufdEvex256 | vpshufdEvex512 => exact hvex hn.1

/-- Settles O41: such a vvvv meets the `#UD` test, which stands before every operand read. -/
theorem vvvvOtherThanOnesRaisesUd : Obligations.VvvvOtherThanOnesRaisesUd := by
  intro s i v hv hne hl
  have hud : udOf s i = true := by
    rw [← Bool.not_eq_false, udOf_iff]
    exact fun hn => hne (vvvv_of_noUd hn hv)
  rw [exec_eq]
  exact guarded_ud _ hl hud

/-! ## Addressing forms (30_encoding.md R66, R67, R75, R76) -/

/-- Settles O6: the ten entries of the table. -/
theorem addressSizeTable : Obligations.AddressSizeTable := by
  refine ⟨rfl, rfl, rfl, rfl, fun m hm => ?_⟩
  rcases hm with rfl | rfl | rfl <;> exact ⟨rfl, rfl⟩

/-- Settles O58: a base register, no index and a displacement, in which a disp8 counts N bytes. -/
theorem disp8Scaling : Obligations.Disp8Scaling := by
  intro s i rm d hrm
  have had : addressing s.mode (extOf i) (disp8Factor i) (bodyOf i).rm =
      some ⟨some (reg4 (extOf i).b rm), none, 1, displacement i d, false⟩ := by
    rw [hrm, ← dispValue_eq]
    rfl
  rw [memOperand_of_addressing had, defaultSeg_base _ _ rfl]
  cases d with
  | absent => simp [displacement]
  | disp32 d => simp [displacement]
  | disp8 d => cases he : evexOf i <;> simp [displacement, disp8Factor, operandBytes, he]

theorem setWidth_signExtend (d : BitVec 16) : ((d.signExtend 64).setWidth 16).setWidth 64 = d.setWidth 64 := by
  congr 1
  refine BitVec.eq_of_getLsbD_eq fun j hj => ?_
  have hj' : j < 64 := by omega
  simp [BitVec.getElem_signExtend, hj, hj']

/-- Settles O59: the table of registers, the displacement, and the sum truncated to 16 bits; the address of an EVEX disp8, which is
refused, needs no case of its own. -/
theorem sixteenBitAddress : Obligations.SixteenBitAddress := by
  refine fun s i ha _ => ⟨fun rm d hrm => ?_, fun d hrm => ?_⟩
  · have had : addressing s.mode (extOf i) (disp8Factor i) (bodyOf i).rm =
        some ⟨some (regs16 rm).1, (regs16 rm).2, 1, displacement16 d, false⟩ := by
      rw [hrm, ← disp16Value_eq]
      rfl
    obtain ⟨hsum, hseg⟩ := regs16_eq s rm
    rw [memOperand_of_addressing had, defaultSeg_base _ _ rfl, hseg, ha, ← hsum]
    simp [truncated]
  · have had : addressing s.mode (extOf i) (disp8Factor i) (bodyOf i).rm =
        some ⟨none, none, 1, d.signExtend 64, false⟩ := by
      rw [hrm]
      rfl
    rw [memOperand_of_addressing had, defaultSeg_none _ rfl, ha]
    simp [truncated, setWidth_signExtend]

end Sys2Proof.Machine

/-! PROOFS. The statements of the family 40_pshufd_sse.md: the shuffle by its order fields, the completion of PSHUFD, and the
source bits above VL, which no form reads. -/

namespace Sys2Proof.Machine

open Sys2Proof

/-! ## The order fields (30_encoding.md R74) -/

theorem orderField_eq_div_mod (order : Byte) (t : Nat) : orderField order t = order.toNat / 4 ^ t % 4 := by
  simp [orderField, Nat.shiftRight_eq_div_pow, Nat.pow_mul]

/-- The fields of the order bytes that 40_pshufd_sse.md R103 (a) to (d) names. -/
theorem orderField_named : ∀ t, t < 4 →
    orderField 0xE4#8 t = t ∧ orderField 0x1B#8 t = 3 - t ∧
    orderField 0x00#8 t = 0 ∧ orderField 0x55#8 t = 1 ∧ orderField 0xAA#8 t = 2 ∧ orderField 0xFF#8 t = 3 ∧
    orderField 0x4E#8 t = (t + 2) % 4 ∧ orderField 0xB1#8 t = (if t % 2 = 0 then t + 1 else t - 1) ∧
    orderField 0x39#8 t = (t + 1) % 4 ∧ orderField 0x93#8 t = (t + 3) % 4 := by
  decide

/-! ## The shuffle (40_pshufd_sse.md R100, R101, R103) -/

/-- Settles O14: the shift of R100 selects the doubleword that the field names. -/
theorem shuffle128SelectsByField : Obligations.Shuffle128SelectsByField := by
  intro a order t ht
  rw [← orderField_eq_div_mod, shift_selects]
  exact ⟨laneDword_shuffle128 a order ht, laneDword_shuffle128 a order ht⟩

theorem laneDword_shuffle128_of_field {order : Byte} {t n : Nat} (a : Lane) (ht : t < 4) (h : orderField order t = n) :
    laneDword (shuffle128 a order) t = laneDword a n := by
  rw [laneDword_shuffle128 a order ht, h]

/-- Doubleword t of lane l is doubleword 4l + t of the register. -/
theorem dwordOf_lane (z : Zmm) (l : Nat) {t : Nat} (ht : t < 4) : dwordOf z (4 * l + t) = laneDword (laneOf z l) t := by
  have hl : (4 * l + t) / 4 = l := by omega
  have hm : (4 * l + t) % 4 = t := by omega
  rw [dwordOf, hl, hm]

/-- ShuffleLanes by doubleword: an element below KL comes from its own lane. -/
theorem dwordOf_shuffleLanes {vl : VL} {j : Nat} (z : Zmm) (order : Byte) (hj : j < kl vl) :
    dwordOf (shuffleLanes vl z order) j = dwordOf z (4 * (j / 4) + orderField order (j % 4)) := by
  have hl : j / 4 < vlLanes vl := by unfold kl at hj; omega
  rw [dwordOf_lane z _ (orderField_lt order _), dwordOf, laneOf_shuffleLanes, if_pos hl,
    laneDword_shuffle128 _ _ (by omega)]

/-- Settles O15: the lanes of ShuffleLanes, and its elements by lane and doubleword. -/
theorem shuffleLanesWorksPerLane : Obligations.ShuffleLanesWorksPerLane := by
  refine fun vl z order => ⟨fun l hl => ?_, fun l hl => ?_, fun j hj => ?_⟩
  · rw [laneOf_shuffleLanes, if_pos hl]
  · rw [laneOf_shuffleLanes, if_neg (Nat.not_lt.2 hl)]
  · rw [dwordOf_shuffleLanes z order hj, orderField_eq_div_mod]

/-- A shuffle leaves the lane as it is where every field names an equal doubleword. -/
theorem shuffle128_eq_self {a : Lane} {order : Byte}
    (h : ∀ t, t < 4 → laneDword a (orderField order t) = laneDword a t) : shuffle128 a order = a := by
  refine lane_ext fun t ht => ?_
  rw [laneDword_shuffle128 a order ht, h t ht]

/-- Two shuffles select by the composed fields. -/
theorem shuffle128_shuffle128 (a : Lane) {p q c : Byte}
    (h : ∀ t, t < 4 → orderField c t = orderField p (orderField q t)) :
    shuffle128 (shuffle128 a p) q = shuffle128 a c := by
  refine lane_ext fun t ht => ?_
  calc laneDword (shuffle128 (shuffle128 a p) q) t
      = laneDword (shuffle128 a p) (orderField q t) := laneDword_shuffle128 _ q ht
    _ = laneDword a (orderField p (orderField q t)) := laneDword_shuffle128 a p (orderField_lt q t)
    _ = laneDword (shuffle128 a c) t := (laneDword_shuffle128_of_field a ht (h t ht)).symm

/-- Settles O17: a field of q names a doubleword of the first result, which p selects. -/
theorem shuffleComposes : Obligations.ShuffleComposes :=
  fun a _ _ _ h => shuffle128_shuffle128 a h

theorem shuffle128_identity (a : Lane) : shuffle128 a 0xE4#8 = a :=
  shuffle128_eq_self fun t ht => congrArg (laneDword a) (orderField_named t ht).1

/-- Reversing twice composes to the identity. -/
theorem shuffle128_reverse_reverse (a : Lane) : shuffle128 (shuffle128 a 0x1B#8) 0x1B#8 = a :=
  (shuffle128_shuffle128 a (c := 0xE4#8) (by decide)).trans (shuffle128_identity a)

/-- Settles O16: each law is read off the fields of its order byte. -/
theorem shuffleIdentityReverseReplicate : Obligations.ShuffleIdentityReverseReplicate := by
  refine fun a => ⟨shuffle128_identity a, shuffle128_reverse_reverse a, fun t ht => ?_, fun heq order => ?_⟩
  · have hsel {order : Byte} {n : Nat} : orderField order t = n → laneDword (shuffle128 a order) t = laneDword a n :=
      laneDword_shuffle128_of_field a ht
    obtain ⟨-, h1B, h00, h55, hAA, hFF, h4E, hB1, h39, h93⟩ := orderField_named t ht
    exact ⟨hsel h1B, hsel h00, hsel h55, hsel hAA, hsel hFF, hsel h4E, hsel hB1, hsel h39, hsel h93⟩
  · exact shuffle128_eq_self fun t ht => (heq _ (orderField_lt order t)).trans (heq t ht).symm

/-- The lane whose doubleword t is the number t. -/
def countingLane : Lane := laneOfDwords (BitVec.ofNat 32)

theorem laneDword_countingLane_toNat {t : Nat} (ht : t < 4) : (laneDword countingLane t).toNat = t := by
  rw [countingLane, laneDword_laneOfDwords _ ht, BitVec.toNat_ofNat]
  omega

/-- The fields of an order byte as a map of doubleword numbers. -/
def fieldMap (order : Byte) (t : Fin 4) : Fin 4 := ⟨orderField order t, orderField_lt order t⟩

theorem fieldMap_injective_iff (order : Byte) : Function.Injective (fieldMap order) ↔
    ∀ t u : Nat, t < 4 → u < 4 → t ≠ u → orderField order t ≠ orderField order u := by
  refine ⟨fun h t u ht hu hne heq => hne ?_, fun h t u heq => ?_⟩
  · exact Fin.mk.inj (h (a₁ := ⟨t, ht⟩) (a₂ := ⟨u, hu⟩) (Fin.ext heq))
  · exact Fin.ext (Decidable.not_not.1 fun hne => h t u t.isLt u.isLt hne (Fin.mk.inj heq))

/-- A lane of four different doublewords shows the map: it is that of the fields. -/
theorem eq_fieldMap_of_countingLane {order : Byte} {f : Fin 4 → Fin 4}
    (h : ∀ t : Fin 4, laneDword (shuffle128 countingLane order) t = laneDword countingLane (f t)) :
    f = fieldMap order := by
  refine funext fun t => Fin.ext ?_
  have ht := congrArg BitVec.toNat (h t)
  rw [laneDword_shuffle128 _ _ t.isLt, laneDword_countingLane_toNat (orderField_lt _ _),
    laneDword_countingLane_toNat (f t).isLt] at ht
  exact ht.symm

/-- Settles O18: the map is that of the fields, and on four doublewords injective is bijective. -/
theorem shufflePermutesIffFieldsDiffer : Obligations.ShufflePermutesIffFieldsDiffer := by
  intro order
  rw [← fieldMap_injective_iff]
  refine ⟨fun h => ?_, fun h a => ⟨fieldMap order, Finite.injective_iff_bijective.1 h, fun t => ?_⟩⟩
  · obtain ⟨f, hf, hlane⟩ := h countingLane
    exact eq_fieldMap_of_countingLane hlane ▸ hf.injective
  · exact laneDword_shuffle128 a order t.isLt

/-! ## The completion of PSHUFD (40_pshufd_sse.md R102) -/

theorem maxLanes_pos (f : Features) : 0 < maxLanes f := by
  unfold maxLanes
  split
  · decide
  · split <;> decide

/-- The legacy write sets nothing above lane 0, so a register with nothing above `k` lanes stays one. -/
theorem lowLanes_legacyMerge {k : Nat} (hk : 0 < k) {old : Zmm} (h : lowLanes k old = old) (r : Lane) :
    lowLanes k (legacyMerge old r) = legacyMerge old r := by
  calc lowLanes k (legacyMerge old r) = legacyMerge (lowLanes k old) r := by
        simp only [lowLanes, zmmOf, legacyMerge, laneOf, if_pos hk]
    _ = legacyMerge old r := by rw [h]

/-- PSHUFD completes once it has operand 2: lane 0 shuffled, the bits above kept. -/
theorem exec_pshufd_of_source {s : State} {p : Prefixes} {b : Body} {src : Source} (hr : Runnable s (.pshufd p b))
    (hi : s.Inv) (hs : sourceOf s (nextAddress s (instrLength (.pshufd p b))) (.pshufd p b) = .got src) :
    ∃ t, exec (.pshufd p b) s = .next t ∧
      t.getV (legacyDest p b) =
        { s.getV (legacyDest p b) with lane0 := shuffle128 src.value.lane0 b.order } ∧
      t.pc = s.pc + BitVec.ofNat 64 (instrLength (.pshufd p b)) ∧ t.reads = src.events ++ s.reads ∧
      FrameExcept s t (legacyDest p b) := by
  refine ⟨_, by rw [exec_runnable hr, hs]; rfl, ?_, rfl, rfl, frame_complete _ _ _ _ _⟩
  exact (getV_complete_same _ _ _ _ _).trans (lowLanes_legacyMerge (maxLanes_pos _) (hi.width _) _)

/-- Settles O20: operand 2 is lane 0 of the register, read without memory. -/
theorem pshufdRegisterResult : Obligations.PshufdRegisterResult := by
  intro s p b n hn hr hi
  obtain ⟨t, hexec, hv, hpc, hreads, hframe⟩ := exec_pshufd_of_source hr hi (sourceOf_register hn s _)
  exact ⟨t, hexec, hv, hpc, hreads, hframe⟩

/-- Lane 0 of an operand of 16 bytes is the whole operand. -/
theorem zmmOfBytes_lane0 {bs : List Byte} (h : bs.length = 16) : (zmmOfBytes bs).lane0 = laneOfBytes bs := by
  simp only [zmmOfBytes, zmmOf, Nat.mul_zero, List.drop_zero, List.take_of_length_le h.le]

/-- Settles O21: operand 2 is the 16 bytes that memory holds at the locations. -/
theorem pshufdMemoryResult : Obligations.PshufdMemoryResult := by
  intro s p b seg ea n locs hmo hr hi hread halign
  obtain ⟨es, hes, hbytes⟩ := memRead_private (i := .pshufd p b) hread (fun _ => halign) fun h => absurd rfl h
  have hsrc := sourceOf_eq_memRead hmo fun h => absurd rfl h
  rw [hes] at hsrc
  obtain ⟨t, hexec, hv, hpc, -, hframe⟩ := exec_pshufd_of_source hr hi hsrc
  have hlen : (locs.map (memByte s.mem)).length = 16 := by
    rw [List.length_map, translateRead_ok_length hread.1, operandBytes_of_memOperand hmo]
    rfl
  have hlane : (zmmOfBytes (eventBytes es)).lane0 = laneOfBytes (locs.map (memByte s.mem)) := by
    rw [hbytes, zmmOfBytes_lane0 hlen]
  exact ⟨t, hexec, hlane ▸ hv, hpc, hframe⟩

/-! ## Source bits above VL (40_pshufd_sse.md R102, 41_vpshufd_vex.md R110) -/

section SourceRegister

variable {s : State} {i : Instr} {n : BitVec 5} {z : Zmm}

theorem udOf_setV : udOf (s.setV n z) i = udOf s i := by
  cases i <;> rfl

/-- Of the vector registers the value written depends on operand 2 and the destination only. -/
theorem valueOf_setV_ne (h : n ≠ destNumber i) (src : Zmm) : valueOf (s.setV n z) src i = valueOf s src i := by
  have hd : (s.setV n z).getV (destNumber i) = s.getV (destNumber i) := getV_setV_ne s n _ z h.symm
  cases he : evexOf i with
  | some e => rw [valueOf_evex he, valueOf_evex he, hd, setV_getK]
  | none =>
    cases i
    case pshufd p b => exact congrArg (legacyMerge · (shuffle128 src.lane0 b.order)) hd
    case vpshufdEvex128 | vpshufdEvex256 | vpshufdEvex512 => cases he
    all_goals rfl

/-- Operand 2 is the same where the register agrees below VL. -/
theorem sourceOf_setV_source (hn : sourceNumber i = some n)
    (hz : lowLanes (vlLanes (lengthOf i)) (lowLanes (maxLanes s.feat) z) = lowLanes (vlLanes (lengthOf i)) (s.getV n))
    (next : Quad) : sourceOf (s.setV n z) next i = sourceOf s next i := by
  rw [sourceOf_register hn, sourceOf_register hn, getV_setV_same, hz]

end SourceRegister

/-- Settles O34: the write to the source changes neither the checks, nor operand 2, nor the value written. -/
theorem sourceBitsAboveVlUnread : Obligations.SourceBitsAboveVlUnread := by
  intro s t i n z hn hne h hz
  obtain ⟨-, -, -, -, src, hsrc, rfl⟩ := exec_next h
  refine ⟨_, exec_congr udOf_setV rfl (fun _ => Iff.rfl) rfl (fun hs => (sourceOf_setV_source hn hz _).trans hs) h hsrc, ?_⟩
  rw [getV_complete_same, getV_complete_same, valueOf_setV_ne hne, setV_feat]

end Sys2Proof.Machine

/-! PROOFS. The statements of the family 41_vpshufd_vex.md: the completion of the VEX rows. -/

namespace Sys2Proof.Machine

open Sys2Proof

/-! ## Completion, once operand 2 is obtained -/

section Completion

variable {s : State} {i : Instr}

/-- A runnable instruction completes once it has operand 2: destination, next address, reads and frame. -/
theorem exec_of_source {src : Source} (hr : Runnable s i)
    (hs : sourceOf s (nextAddress s (instrLength i)) i = .got src) :
    ∃ t, exec i s = .next t ∧ t.getV (destNumber i) = lowLanes (maxLanes s.feat) (valueOf s src.value i) ∧
      t.pc = s.pc + BitVec.ofNat 64 (instrLength i) ∧ t.reads = src.events ++ s.reads ∧
      FrameExcept s t (destNumber i) :=
  ⟨_, by rw [exec_runnable hr, hs]; rfl, getV_complete_same _ _ _ _ _, rfl, rfl, frame_complete _ _ _ _ _⟩

/-- Operand 2 in readable private memory is the value of the bytes that memory holds at the locations. -/
theorem sourceOf_private {seg : SegReg} {ea : Quad} {n : Nat} {locs : List Nat}
    (hmo : memOperand s i = some (seg, ea, n)) (hread : Readable s seg ea n locs)
    (ha : vvvvOf i = none → (testedAddress s seg ea).toNat % 16 = 0) (hac : vvvvOf i ≠ none → ¬ AcPossible s seg ea n)
    (hd : evexOf i ≠ none → isDisp8Addr16 (bodyOf i).rm = false) :
    ∃ src, sourceOf s (nextAddress s (instrLength i)) i = .got src ∧
      src.value = operandValue i (locs.map (memByte s.mem)) := by
  obtain ⟨es, hes, hbytes⟩ := memRead_private hread ha hac
  refine ⟨⟨operandValue i (eventBytes es), es⟩, ?_, congrArg (operandValue i) hbytes⟩
  rw [sourceOf_eq_memRead hmo hd, hes]
  rfl

end Completion

/-! ## The VEX rows (41_vpshufd_vex.md R110, R111) -/

section Vex

variable {s : State} {i : Instr} (hv : isVex i = true)

include hv

theorem operandValue_vex (bs : List Byte) : operandValue i bs = zmmOfBytes bs := by
  rw [operandValue, evexOf_vex hv]
  rfl

/-- A VEX row completes once it has operand 2: its lanes shuffled. The machine has every bit below VL. -/
theorem exec_vex_of_source {src : Source} (hr : Runnable s i) (hi : s.Inv)
    (hs : sourceOf s (nextAddress s (instrLength i)) i = .got src) :
    ∃ t, exec i s = .next t ∧ t.getV (destNumber i) = shuffleLanes (lengthOf i) src.value (bodyOf i).order ∧
      t.pc = s.pc + BitVec.ofNat 64 (instrLength i) ∧ t.reads = src.events ++ s.reads ∧
      FrameExcept s t (destNumber i) := by
  have ⟨_, hnoUd, _, _⟩ := hr
  obtain ⟨t, hexec, hval, hrest⟩ := exec_of_source hr hs
  refine ⟨t, hexec, ?_, hrest⟩
  rw [hval, valueOf_vex hv, lowLanes_shuffleLanes_of_le (vlLanes_le_maxLanes hi hnoUd)]

end Vex

/-- Settles O22: operand 2 is the register below VL, which is all of it that the shuffle reads, and no byte is read. -/
theorem vexRegisterResult : Obligations.VexRegisterResult := by
  intro s i n hv hn hr hi
  obtain ⟨t, hexec, hval, hpc, hreads, hframe⟩ := exec_vex_of_source hv hr hi (sourceOf_register hn s _)
  rw [shuffleLanes_lowLanes] at hval
  exact ⟨t, hexec, hval, hpc, hreads, hframe⟩

/-- Settles O23: operand 2 is the bytes that memory holds at the locations, whatever their alignment. -/
theorem vexMemoryResult : Obligations.VexMemoryResult := by
  intro s i seg ea n locs hv hmo hr hi hread hac
  obtain ⟨src, hsrc, hvalue⟩ := sourceOf_private hmo hread (fun h => absurd h (vvvvOf_vex hv)) (fun _ => hac)
    fun h => absurd (evexOf_vex hv) h
  obtain ⟨t, hexec, hval, hpc, -, hframe⟩ := exec_vex_of_source hv hr hi hsrc
  rw [hvalue, operandValue_vex hv] at hval
  exact ⟨t, hexec, hval, hpc, hframe⟩

end Sys2Proof.Machine

/-! PROOFS. The statements of the family 42_vpshufd_evex.md: the completion of the EVEX rows under writemask and broadcast, the
empty writemask, and the agreement with VEX without one. -/

namespace Sys2Proof.Machine

open Sys2Proof

/-! ## Doublewords of a register and the elements below KL (30_encoding.md R72) -/

theorem div_four_lt_vlLanes_iff (vl : VL) (j : Nat) : j / 4 < vlLanes vl ↔ j < kl vl := by
  unfold kl
  omega

/-- A register is its sixteen doublewords. -/
theorem zmm_ext_dword {a b : Zmm} (h : ∀ j, j < 16 → dwordOf a j = dwordOf b j) : a = b := by
  refine zmm_ext fun l hl => lane_ext fun t ht => ?_
  rw [← dwordOf_lane a l ht, ← dwordOf_lane b l ht, h _ (by omega)]

theorem dwordOf_lowLanes (vl : VL) (z : Zmm) (j : Nat) :
    dwordOf (lowLanes (vlLanes vl) z) j = if j < kl vl then dwordOf z j else 0#32 := by
  simp only [dwordOf, laneOf_lowLanes, div_four_lt_vlLanes_iff]
  split
  · rfl
  · exact laneDword_zero _

theorem dwordOf_zeroZmm {j : Nat} (hj : j < 16) : dwordOf zeroZmm j = 0#32 := by
  rw [dwordOf, show zeroZmm = zmmOf fun _ => 0#128 from rfl, laneOf_zmmOf _ (by omega), laneDword_zero]

/-! ## EvexWrite without a writemask and under an empty one (42_vpshufd_evex.md R121, R122) -/

theorem evexMerge_no_mask (vl : VL) (mask : Quad) (z : Bool) (old tmp : Zmm) :
    evexMerge vl 0#3 mask z old tmp = lowLanes (vlLanes vl) tmp := by
  refine zmm_ext_dword fun j _ => ?_
  rw [dwordOf_evexMerge, dwordOf_lowLanes, if_pos (c := 0#3 = 0#3 ∨ _) (.inl rfl)]

section EmptyMask

variable {vl : VL} {aaa : BitVec 3} {mask : Quad} (ha : aaa ≠ 0#3) (hm : ∀ j, j < kl vl → mask.getLsbD j = false)

include ha hm

/-- An empty writemask lets no element be written. -/
theorem dwordOf_evexMerge_empty (z : Bool) (old tmp : Zmm) (j : Nat) :
    dwordOf (evexMerge vl aaa mask z old tmp) j =
      if j < kl vl then if z = true then 0#32 else dwordOf old j else 0#32 := by
  rw [dwordOf_evexMerge]
  split
  · rw [if_neg (by simp [ha, hm j ‹_›])]
  · rfl

theorem evexMerge_empty_merging (old tmp : Zmm) :
    evexMerge vl aaa mask false old tmp = lowLanes (vlLanes vl) old := by
  refine zmm_ext_dword fun j _ => ?_
  rw [dwordOf_evexMerge_empty ha hm, dwordOf_lowLanes, if_neg Bool.false_ne_true]

theorem evexMerge_empty_zeroing (old tmp : Zmm) : evexMerge vl aaa mask true old tmp = zeroZmm := by
  refine zmm_ext_dword fun j hj => ?_
  rw [dwordOf_evexMerge_empty ha hm, if_pos rfl, ite_self, dwordOf_zeroZmm hj]

end EmptyMask

/-! ## The completion of the EVEX rows (42_vpshufd_evex.md R122 to R124) -/

section Evex

variable {s : State} {i : Instr} {e : Evex} (he : evexOf i = some e)

include he

/-- The machine has every bit below VL, so all of EvexWrite's value is written. -/
theorem lowLanes_valueOf_evex (hi : s.Inv) (hn : NoUd s i) (src : Zmm) :
    lowLanes (maxLanes s.feat) (valueOf s src i) =
      evexMerge (lengthOf i) e.aaa (s.getK e.aaa) e.z (s.getV (destNumber i))
        (shuffleLanes (lengthOf i) src (bodyOf i).order) := by
  rw [valueOf_evex he, lowLanes_evexMerge_of_le (vlLanes_le_maxLanes hi hn)]

/-- An EVEX row completes once it has operand 2: each doubleword of the shuffle under its mask bit. -/
theorem exec_evex_of_source (hi : s.Inv) {src : Source} (hr : Runnable s i)
    (hs : sourceOf s (nextAddress s (instrLength i)) i = .got src) :
    ∃ t, exec i s = .next t ∧
      (∀ j, dwordOf (t.getV (destNumber i)) j =
        if j < kl (lengthOf i) then
          if e.aaa = 0#3 ∨ (s.getK e.aaa).getLsbD j = true then
            dwordOf (shuffleLanes (lengthOf i) src.value (bodyOf i).order) j
          else if e.z = true then 0#32 else dwordOf (s.getV (destNumber i)) j
        else 0#32) ∧
      t.pc = s.pc + BitVec.ofNat 64 (instrLength i) ∧ t.reads = src.events ++ s.reads ∧
      FrameExcept s t (destNumber i) := by
  have ⟨_, hnoUd, _, _⟩ := hr
  obtain ⟨t, hexec, hval, hrest⟩ := exec_of_source hr hs
  refine ⟨t, hexec, fun j => ?_, hrest⟩
  rw [hval, lowLanes_valueOf_evex he hi hnoUd, dwordOf_evexMerge]

/-- An EVEX operand of readable private memory is the value of the bytes that memory holds. -/
theorem sourceOf_evex_private {seg : SegReg} {ea : Quad} {n : Nat} {locs : List Nat}
    (hd : isDisp8Addr16 (bodyOf i).rm = false) (hmo : memOperand s i = some (seg, ea, n))
    (hread : Readable s seg ea n locs) (hac : ¬ AcPossible s seg ea n) :
    ∃ src, sourceOf s (nextAddress s (instrLength i)) i = .got src ∧
      src.value = operandValue i (locs.map (memByte s.mem)) :=
  sourceOf_private hmo hread (fun h => absurd h (vvvvOf_evex he)) (fun _ => hac) fun _ => hd

theorem operandValue_evex_full (hb : e.bcast = false) (bs : List Byte) : operandValue i bs = zmmOfBytes bs := by
  simp [operandValue, he, hb]

/-- A broadcast operand is its four bytes in every doubleword (42_vpshufd_evex.md R120). -/
theorem operandValue_evex_bcast (hb : e.bcast = true) {bs : List Byte} (hlen : bs.length = 4) :
    operandValue i bs = broadcast (lengthOf i) (dwordOf (zmmOfBytes bs) 0) := by
  have hlane : laneOf (zmmOfBytes bs) 0 = laneOfBytes bs := by
    rw [zmmOfBytes, laneOf_zmmOf _ (by decide), Nat.mul_zero, List.drop_zero, List.take_of_length_le (by omega)]
  have hdword : (laneOfBytes bs).setWidth 32 = dwordOf (zmmOfBytes bs) 0 := by
    rw [dwordOf, hlane, ← shift_selects, BitVec.ushiftRight_zero]
  simp [operandValue, he, hb, hdword]

theorem memOperand_bytes_of_bcast (hb : e.bcast = true) {seg : SegReg} {ea : Quad} {n : Nat}
    (hmo : memOperand s i = some (seg, ea, n)) : n = 4 := by
  rw [operandBytes_of_memOperand hmo]
  simp [operandBytes, he, hb]

end Evex

/-- Settles O24: operand 2 is the register below VL, which is all of it that the shuffle reads, and no byte is read. -/
theorem evexRegisterResult : Obligations.EvexRegisterResult := by
  intro s i e n he hn hr hi
  obtain ⟨t, hexec, hval, hpc, hreads, hframe⟩ := exec_evex_of_source he hi hr (sourceOf_register hn s _)
  rw [shuffleLanes_lowLanes] at hval
  exact ⟨t, hexec, fun j _ => hval j, hpc, hreads, hframe⟩

/-- Settles O25: operand 2 is the bytes that memory holds at the locations. -/
theorem evexFullMemoryResult : Obligations.EvexFullMemoryResult := by
  intro s i e seg ea n locs he hb hd hmo hr hi hread hac
  obtain ⟨src, hsrc, hvalue⟩ := sourceOf_evex_private he hd hmo hread hac
  obtain ⟨t, hexec, hval, hpc, -, hframe⟩ := exec_evex_of_source he hi hr hsrc
  rw [hvalue, operandValue_evex_full he hb] at hval
  exact ⟨t, hexec, fun j _ => hval j, hpc, hframe⟩

/-! ## The broadcast (42_vpshufd_evex.md R120, 40_pshufd_sse.md R103 (f)) -/

/-- Every doubleword of a lane is the same, so each order byte leaves it. -/
theorem shuffleLanes_broadcast (vl : VL) (d : Dword) (order : Byte) :
    shuffleLanes vl (broadcast vl d) order = broadcast vl d := by
  refine zmm_ext fun l _ => ?_
  rw [laneOf_shuffleLanes, laneOf_broadcast]
  split
  · refine shuffle128_eq_self fun t ht => ?_
    rw [laneDword_laneOfDwords _ (orderField_lt order t), laneDword_laneOfDwords _ ht]
  · rfl

theorem dwordOf_broadcast {vl : VL} {j : Nat} (d : Dword) (hj : j < kl vl) : dwordOf (broadcast vl d) j = d := by
  rw [dwordOf, laneOf_broadcast, if_pos ((div_four_lt_vlLanes_iff vl j).2 hj), laneDword_laneOfDwords _ (by omega)]

/-- Settles O26: operand 2 is a broadcast, which the shuffle leaves, so each doubleword of it is the four bytes. -/
theorem evexBroadcastResult : Obligations.EvexBroadcastResult := by
  intro s i e seg ea n locs he hb hd hmo hr hi hread hac
  have hn : n = 4 := memOperand_bytes_of_bcast he hb hmo
  have hlen : (locs.map (memByte s.mem)).length = 4 := by
    rw [List.length_map, translateRead_ok_length hread.1, hn]
  obtain ⟨src, hsrc, hvalue⟩ := sourceOf_evex_private he hd hmo hread hac
  obtain ⟨t, hexec, hval, hpc, -, hframe⟩ := exec_evex_of_source he hi hr hsrc
  refine ⟨hn, t, hexec, fun j _ => (hval j).trans ?_, hpc, hframe⟩
  rw [hvalue, operandValue_evex_bcast he hb hlen, shuffleLanes_broadcast]
  split
  · rw [dwordOf_broadcast _ ‹_›]
  · rfl

/-! ## An empty writemask, and none (42_vpshufd_evex.md R122 (a) to (c), R124 (b)) -/

/-- Settles O29: EvexWrite under an empty mask is the old value below VL, or zero; below VL = 512 stands the whole register. -/
theorem emptyMaskResult : Obligations.EmptyMaskResult := by
  intro s t i e he ha hm hi h
  obtain ⟨-, hu, -, -, src, -, rfl⟩ := exec_next h
  rw [getV_complete_same, lowLanes_valueOf_evex he hi ((udOf_iff s i).1 hu)]
  have hmerging (hz : e.z = false) := hz ▸ evexMerge_empty_merging ha hm (s.getV (destNumber i))
    (shuffleLanes (lengthOf i) src.value (bodyOf i).order)
  refine ⟨hmerging, fun hz => hz ▸ evexMerge_empty_zeroing ha hm _ _, fun hz hl => (hmerging hz).trans ?_⟩
  rw [hl]
  exact lowLanes_of_ge (by decide) _

/-- Without a writemask an EVEX form writes its shuffle. -/
theorem valueOf_evex_no_mask {i : Instr} {e : Evex} (he : evexOf i = some e) (ha : e.aaa = 0#3) (s : State) (src : Zmm) :
    valueOf s src i = shuffleLanes (lengthOf i) src (bodyOf i).order := by
  rw [valueOf_evex he, ha, evexMerge_no_mask, lowLanes_shuffleLanes]

/-- Settles O32: both forms obtain the same operand 2 and write its shuffle. -/
theorem evexWithoutMaskEqualsVex : Obligations.EvexWithoutMaskEqualsVex := by
  intro s t u i j e he ha hv hl ho hd hop hi hj
  obtain ⟨-, -, -, -, a, hsa, rfl⟩ := exec_next hi
  obtain ⟨-, -, -, -, b, hsb, rfl⟩ := exec_next hj
  have hab : a = b := by
    rcases hop with ⟨n, hni, hnj⟩ | ⟨hb, hmo⟩
    · rw [sourceOf_register hni, hl] at hsa
      rw [sourceOf_register hnj] at hsb
      exact Got.got.inj (hsa.symm.trans hsb)
    · have hvvvv : (vvvvOf i).isNone = (vvvvOf j).isNone :=
        Bool.eq_iff_iff.2 (by simp [vvvvOf_evex he, vvvvOf_vex hv])
      have hbcast : (evexOf i).any Evex.bcast = (evexOf j).any Evex.bcast := by
        simp [he, hb, evexOf_vex hv]
      exact sourceOf_same_operand hl hvvvv hbcast (.inr hmo) hsa hsb
  rw [getV_complete_same, hd, getV_complete_same, valueOf_evex_no_mask he ha, valueOf_vex hv, hab, hl, ho]

end Sys2Proof.Machine

/-! PROOFS. The statements of the family 60_exceptions.md: which exception an instruction raises and why, what it records
and leaves, and where CPL and alignment checking enter. -/

namespace Sys2Proof.Machine

open Sys2Proof

/-! ## Where an exception comes from (60_exceptions.md R151) -/

section Raise

variable {s : State} {i : Instr}

/-- Operand 2 raises what MemRead raises. -/
theorem memRead_of_sourceOf_raises {x : Exc} (h : sourceOf s (nextAddress s (instrLength i)) i = .raises x) :
    ∃ seg ea n, memOperand s i = some (seg, ea, n) ∧ memRead s (vvvvOf i).isNone seg ea n = .raises x := by
  rcases register_or_memory i s with ⟨n, hn, -⟩ | ⟨-, seg, ea, n, hmo, -⟩
  · rw [sourceOf_register hn] at h
    cases h
  · refine ⟨seg, ea, n, hmo, ?_⟩
    rw [sourceOf_memory hmo] at h
    split at h
    · cases h
    · cases hm : memRead s (vvvvOf i).isNone seg ea n <;> rw [hm] at h <;> cases h
      rfl

/-- The four sources of an exception: length, `#UD` condition, CR0.TS, and the read of a memory operand. -/
theorem exec_raise_cases {x : Exc} (h : exec i s = raise x s) :
    (x = .gp ∧ 15 < instrLength i) ∨ (x = .ud ∧ ¬ NoUd s i) ∨ (x = .nm ∧ s.ts = true) ∨
      ∃ seg ea n, memOperand s i = some (seg, ea, n) ∧ memRead s (vvvvOf i).isNone seg ea n = .raises x := by
  rcases exec_cases i s with ⟨hl, he⟩ | ⟨-, hu, he⟩ | ⟨-, -, ht, he⟩ | ⟨-, -, -, -, he⟩ |
      ⟨-, -, -, -, ⟨src, -, he⟩ | ⟨y, hy, he⟩ | ⟨r, -, he⟩⟩ <;> rw [h] at he
  · exact .inl ⟨raise_injective he, hl⟩
  · exact .inr (.inl ⟨raise_injective he, fun hn => by simp [(udOf_iff s i).2 hn] at hu⟩)
  · exact .inr (.inr (.inl ⟨raise_injective he, ht⟩))
  · exact absurd he (raise_ne_refused _ _ _)
  · exact absurd he (raise_ne_next _ _ _)
  · exact .inr (.inr (.inr (raise_injective he ▸ memRead_of_sourceOf_raises hy)))
  · exact absurd he (raise_ne_refused _ _ _)

/-! ## `#UD` (60_exceptions.md R141 to R143) -/

/-- `#UD` is raised exactly where one of its conditions holds. -/
theorem exec_ud_iff (hl : instrLength i ≤ 15) : exec i s = .fault (.ud s) ↔ ¬ NoUd s i := by
  refine ⟨fun h => ?_, fun h => ?_⟩
  · rcases exec_raise_cases (x := .ud) h with ⟨hx, -⟩ | ⟨-, hn⟩ | ⟨hx, -⟩ | ⟨_, _, _, -, hm⟩
    · cases hx
    · exact hn
    · cases hx
    · exact absurd rfl (memRead_no_ud hm).1
  · rw [exec_eq]
    exact guarded_ud _ hl (Bool.not_eq_false _ ▸ mt (udOf_iff s i).1 h)

end Raise

/-- Settles O38: the negation of R141's list. -/
theorem legacyUdConditions : Obligations.LegacyUdConditions := by
  intro s p b hl
  rw [exec_ud_iff hl]
  simp only [NoUd, SseNoUd, not_and_or, Bool.not_eq_false, Bool.not_eq_true]

theorem not_vexNoUd_iff (s : State) (flag : Bool) (p : Prefixes) (vvvv : BitVec 4) :
    ¬ VexNoUd s flag p vvvv ↔
      s.mode = .real ∨ s.mode = .v86 ∨ p.opsize66 = true ∨ p.repne = true ∨ p.rep = true ∨ p.lock = true ∨
      p.rex ≠ none ∨ s.cr4.getLsbD 18 = false ∨ s.xcr0.getLsbD 1 = false ∨ s.xcr0.getLsbD 2 = false ∨
      flag = false ∨ vvvv ≠ 15#4 := by
  simp only [VexNoUd, PrefixesAllowed, not_and_or, not_not, ne_eq, Bool.not_eq_false, Bool.not_eq_true, or_assoc]

theorem noUd_vex {s : State} {i : Instr} (hv : isVex i = true) :
    ∃ v, vvvvOf i = some v ∧ (NoUd s i ↔ VexNoUd s (vexFeature s.feat (lengthOf i)) (prefixesOf i) v) := by
  cases i
  case vpshufdVex128C5 | vpshufdVex128C4 | vpshufdVex256C5 | vpshufdVex256C4 => exact ⟨_, rfl, Iff.rfl⟩
  all_goals cases hv

theorem vexFeature_eq_false_iff {i : Instr} (hv : isVex i = true) (f : Features) :
    vexFeature f (lengthOf i) = false ↔
      (lengthOf i = .v128 ∧ f.avx = false) ∨ (lengthOf i = .v256 ∧ f.avx2 = false) := by
  cases i
  case vpshufdVex128C5 | vpshufdVex128C4 | vpshufdVex256C5 | vpshufdVex256C4 => simp [vexFeature, lengthOf]
  all_goals cases hv

/-- Settles O39: the negation of R142's list, the feature flag by vector length. -/
theorem vexUdConditions : Obligations.VexUdConditions := by
  intro s i hv hl
  obtain ⟨v, hvvvv, hn⟩ := noUd_vex (s := s) hv
  rw [exec_ud_iff hl, hn, not_vexNoUd_iff, vexFeature_eq_false_iff hv, hvvvv]
  simp only [State.feat, ne_eq, Option.some.injEq, or_assoc]

theorem noUd_evex {s : State} {i : Instr} {e : Evex} (he : evexOf i = some e) :
    NoUd s i ↔ EvexNoUd s (evexFeature s.feat (lengthOf i)) (prefixesOf i) e (bodyOf i).rm := by
  cases i <;> cases he <;> exact Iff.rfl

theorem evexFeature_eq_false_iff (f : Features) (vl : VL) :
    evexFeature f vl = false ↔ f.avx512f = false ∨ (vl ≠ .v512 ∧ f.avx512vl = false) := by
  cases vl <;> simp [evexFeature, Bool.and_eq_false_iff, -Bool.and_eq_false_imp]

/-- R143 adds to R142 the opmask and ZMM state of XCR0 and the EVEX fields. -/
theorem not_evexNoUd_iff (s : State) (flag : Bool) (p : Prefixes) (e : Evex) (rm : Rm) :
    ¬ EvexNoUd s flag p e rm ↔
      ¬ VexNoUd s flag p e.vvvv ∨ s.xcr0.getLsbD 5 = false ∨ s.xcr0.getLsbD 6 = false ∨ s.xcr0.getLsbD 7 = false ∨
      e.vHigh = false ∨ (e.z = true ∧ e.aaa = 0#3) ∨ (e.bcast = true ∧ ∃ r, rm = .reg r) := by
  simp only [EvexNoUd, not_and_or, Classical.not_imp, not_forall, not_not, ne_eq, Bool.not_eq_true]

/-- Settles O40: the negation of R143's list, the feature flags by vector length. -/
theorem evexUdConditions : Obligations.EvexUdConditions := by
  intro s i e he hl
  rw [exec_ud_iff hl, noUd_evex he, not_evexNoUd_iff, not_vexNoUd_iff, evexFeature_eq_false_iff]
  simp only [State.feat]
  ac_nf

/-! ## `#NM` and the length `#GP(0)` (60_exceptions.md R144, R151) -/

theorem guarded_nm {s : State} {len : Nat} {ud : Bool} (body : Quad → Outcome) (hl : len ≤ 15) (hu : ud = false)
    (ht : s.ts = true) : guarded s len ud body = .fault (.nm s) := by
  simp [guarded, lengthLimit, Nat.not_lt.2 hl, hu, ht, raise]

/-- Settles O42: the test of CR0.TS stands right behind the `#UD` test and before operand 2. -/
theorem nmUnderTaskSwitched : Obligations.NmUnderTaskSwitched := by
  intro s i hl hn ht
  rw [exec_eq]
  exact ⟨guarded_nm _ hl ((udOf_iff s i).2 hn) ht, rfl⟩

theorem exec_overlong {s : State} {i : Instr} (hl : 15 < instrLength i) : exec i s = .fault (.gp s) := by
  rw [exec_eq]
  exact if_pos hl

/-- Settles O43: the length is tested first, of an instruction and of a reserved encoding. -/
theorem overlongRaisesGp : Obligations.OverlongRaisesGp := by
  refine ⟨fun s i => exec_overlong, fun s len hp hd hl => ?_⟩
  rw [step, if_neg hp, hd]
  exact if_pos hl

/-! ## What an exception leaves and records (60_exceptions.md R140, R150, R152) -/

/-- Settles O44: a fault of a step is an exception taken in the state before it. -/
theorem faultsArePrecise : Obligations.FaultsArePrecise := by
  intro s f h
  obtain ⟨x, hx⟩ := step_fault h
  obtain ⟨f', hf, hleft⟩ := raise_fault x s
  rw [hx, hf] at h
  cases h
  exact hleft

/-- Settles O45: one line of R140's table for each exception. -/
theorem exceptionRecord : Obligations.ExceptionRecord := by
  intro s f h
  refine ⟨congrArg State.pc (faultsArePrecise s f h), ?_⟩
  obtain ⟨x, hx⟩ := step_fault h
  rw [hx] at h
  cases x <;> cases h
  case ud => exact .inl ⟨rfl, rfl, rfl, rfl⟩
  case nm => exact .inr (.inl ⟨rfl, rfl, rfl, rfl⟩)
  case ss => exact .inr (.inr (.inl ⟨rfl, rfl, rfl, rfl⟩))
  case gp => exact .inr (.inr (.inr (.inl ⟨rfl, rfl, rfl, rfl⟩)))
  case pf code la => exact .inr (.inr (.inr (.inr (.inl ⟨code, la, rfl, rfl, rfl, rfl⟩))))
  case ac => exact .inr (.inr (.inr (.inr (.inr ⟨rfl, rfl, rfl, rfl⟩))))

theorem memOperand_of_sourceNumber {i : Instr} {n : BitVec 5} (h : sourceNumber i = some n) (s : State) :
    memOperand s i = none := by
  rcases register_or_memory i s with ⟨_, -, hm⟩ | ⟨hn, -⟩
  · exact hm
  · cases h.symm.trans hn

/-- Settles O46: of the four sources of an exception a register source leaves the three before operand 2. -/
theorem registerSourceFaults : Obligations.RegisterSourceFaults := by
  intro s i n f hn h
  obtain ⟨x, hx⟩ := exec_fault h
  rcases exec_raise_cases hx with ⟨rfl, hl⟩ | ⟨rfl, -⟩ | ⟨rfl, -⟩ | ⟨_, _, _, hmo, -⟩
  · cases h.symm.trans hx
    exact .inr (.inr ⟨rfl, hl⟩)
  · cases h.symm.trans hx
    exact .inl rfl
  · cases h.symm.trans hx
    exact .inr (.inl rfl)
  · cases (memOperand_of_sourceNumber hn s).symm.trans hmo

/-! ## `#PF` (60_exceptions.md R147) -/

theorem bytePageFault_of_denied {s : State} {seg : SegReg} {ea : Quad} {j : Nat} {p r k : Bool}
    (h : walk s (byteLinear s seg ea j) = .denied p r k) :
    bytePageFault s seg ea j = some (.pf (pfCode s p r k) (byteLinear s seg ea j)) := by
  simp [bytePageFault, h]

theorem denied_of_bytePageFault {s : State} {seg : SegReg} {ea : Quad} {j : Nat} {x : Exc}
    (h : bytePageFault s seg ea j = some x) :
    ∃ p r k, walk s (byteLinear s seg ea j) = .denied p r k ∧ x = .pf (pfCode s p r k) (byteLinear s seg ea j) := by
  cases hw : walk s (byteLinear s seg ea j) with
  | mapped loc => simp [bytePageFault, hw] at h
  | denied p r k => exact ⟨p, r, k, rfl, Option.some.inj (h.symm.trans (bytePageFault_of_denied hw))⟩

/-- Past the segment checks a denied byte makes the translation answer the page fault of some byte, whichever it reports. -/
theorem translateRead_pageFault {s : State} {seg : SegReg} {ea : Quad} {n j : Nat} {x : Exc}
    (hseg : segFault s seg ea n = none) (hj : j < n) (hx : bytePageFault s seg ea j = some x) :
    ∃ j' y, j' < n ∧ bytePageFault s seg ea j' = some y ∧ translateRead s seg ea n = .fault y := by
  cases hl : (List.range n).filterMap (bytePageFault s seg ea) with
  | nil =>
    have := List.filterMap_eq_nil_iff.1 hl j (List.mem_range.2 hj)
    cases hx.symm.trans this
  | cons f fs =>
    have hlt : s.machine.reportedByte % (f :: fs).length < (f :: fs).length := Nat.mod_lt _ (by simp)
    have hmem : (f :: fs).getD (s.machine.reportedByte % (f :: fs).length) f ∈ f :: fs := by
      rw [List.getD_eq_getElem _ _ hlt]
      exact List.getElem_mem hlt
    obtain ⟨j', hj', hy⟩ := List.mem_filterMap.1 (hl ▸ hmem)
    exact ⟨j', _, List.mem_range.1 hj', hy, by simp only [translateRead, hseg, hl]⟩

/-- The fault code from its bits, P lowest. -/
theorem pfCode_eq_concat (s : State) (p r k : Bool) :
    pfCode s p r k =
      ((((((0#26).concat k).concat false).concat r).concat (s.cpl = 3#2)).concat false).concat p :=
  rfl

theorem pfCode_bits (s : State) (p r k : Bool) :
    (pfCode s p r k).getLsbD 0 = p ∧ (pfCode s p r k).getLsbD 1 = false ∧
      (pfCode s p r k).getLsbD 2 = decide (s.cpl = 3#2) ∧ (pfCode s p r k).getLsbD 3 = r ∧
      (pfCode s p r k).getLsbD 4 = false ∧ (pfCode s p r k).getLsbD 5 = k ∧
      ∀ b, 6 ≤ b → (pfCode s p r k).getLsbD b = false := by
  rw [pfCode_eq_concat]
  refine ⟨?_, ?_, ?_, ?_, ?_, ?_, fun b hb => ?_⟩
  case refine_7 =>
    obtain ⟨c, rfl⟩ := Nat.exists_eq_add_of_le' hb
    simp only [BitVec.getLsbD_concat_succ, BitVec.getLsbD_zero]
  all_goals simp only [BitVec.getLsbD_concat_zero, BitVec.getLsbD_concat_succ]

/-- Settles O53: some byte is denied, so the translation answers the page fault of a denied byte. -/
theorem pageFaultRecord : Obligations.PageFaultRecord := by
  intro s seg ea n j p r k hseg hj hw
  obtain ⟨j', y, hj', hy, ht⟩ := translateRead_pageFault hseg hj (bytePageFault_of_denied hw)
  obtain ⟨p', r', k', hw', rfl⟩ := denied_of_bytePageFault hy
  exact ⟨j', p', r', k', _, hj', hw', ht, pfCode_bits s p' r' k'⟩

/-! ## `#AC(0)` (60_exceptions.md R148, 20_memory.md R45) -/

section AlignmentCheck

variable {s : State} {i : Instr} {seg : SegReg} {ea : Quad} {n : Nat}

theorem acTaken_of_memRead_ac {legacy : Bool} (h : memRead s legacy seg ea n = .raises .ac) :
    acTaken s legacy seg ea n = true := by
  rcases memRead_cases s legacy seg ea n with ⟨_, _, _, _, _, _, hm⟩ | ⟨_, _, _, _, _, hm⟩ | ⟨_, hm⟩ | ⟨_, _, ha, hm⟩ |
      ⟨x, ht, _, hm⟩ <;> rw [h] at hm <;> cases hm
  · exact ha
  · rcases translateRead_fault_kind ht with hx | hx | ⟨_, _, _, _, hx⟩ <;> cases hx

theorem memRead_of_acTaken {locs : List Nat} (hv : vvvvOf i ≠ none) (ht : translateRead s seg ea n = .ok locs)
    (ha : acTaken s (vvvvOf i).isNone seg ea n = true) : memRead s (vvvvOf i).isNone seg ea n = .raises .ac := by
  simp [memRead, ht, misaligned_eq_false fun h => absurd h hv, ha]

/-- A checked operand of a VEX or EVEX form raises `#AC(0)`, or is the bytes that memory holds. -/
theorem ac_or_sourceOf_private {locs : List Nat} (hv : vvvvOf i ≠ none)
    (hd : evexOf i ≠ none → isDisp8Addr16 (bodyOf i).rm = false) (hmo : memOperand s i = some (seg, ea, n))
    (hr : Runnable s i) (hread : Readable s seg ea n locs) :
    exec i s = .fault (.ac s) ∨ ∃ src, sourceOf s (nextAddress s (instrLength i)) i = .got src ∧
      src.value = operandValue i (locs.map (memByte s.mem)) := by
  cases ha : acTaken s (vvvvOf i).isNone seg ea n with
  | true => exact .inl (exec_of_memRead_raises hmo hr hd (memRead_of_acTaken hv hread.1 ha))
  | false =>
    obtain ⟨es, hes, hbytes, -⟩ := memRead_readable hread (misaligned_eq_false fun h => absurd h hv) ha
    refine .inr ⟨⟨operandValue i (eventBytes es), es⟩, ?_, congrArg (operandValue i) hbytes⟩
    rw [sourceOf_eq_memRead hmo hd, hes]
    rfl

end AlignmentCheck

theorem isVex_of_vvvv {i : Instr} (hv : vvvvOf i ≠ none) (he : evexOf i = none) : isVex i = true := by
  cases i
  case pshufd => exact absurd rfl hv
  case vpshufdEvex128 | vpshufdEvex256 | vpshufdEvex512 => cases he
  all_goals rfl

/-- A doubleword below KL of an EVEX row's shuffle of a memory operand, full or broadcast (42_vpshufd_evex.md R120). -/
theorem dwordOf_shuffle_operandValue {i : Instr} {e : Evex} (he : evexOf i = some e) {bs : List Byte}
    (hlen : e.bcast = true → bs.length = 4) (order : Byte) {j : Nat} (hj : j < kl (lengthOf i)) :
    dwordOf (shuffleLanes (lengthOf i) (operandValue i bs) order) j =
      if e.bcast = true then dwordOf (zmmOfBytes bs) 0
      else dwordOf (shuffleLanes (lengthOf i) (zmmOfBytes bs) order) j := by
  split
  · rw [operandValue_evex_bcast he ‹_› (hlen ‹_›), shuffleLanes_broadcast, dwordOf_broadcast _ hj]
  · rw [operandValue_evex_full he (Bool.eq_false_iff.2 ‹_›)]

/-- Settles O54: only MemRead raises `#AC(0)`, when it is taken; where it is not, VEX and EVEX forms complete. -/
theorem alignmentCheckConditions : Obligations.AlignmentCheckConditions := by
  refine ⟨fun s i hcond u h => ?_, fun s i seg ea n locs hv hd hmo hr hi hread _ => ?_⟩
  · obtain ⟨x, hx⟩ := exec_fault h
    obtain rfl : x = .ac := by cases x <;> cases h.symm.trans hx; rfl
    rcases exec_raise_cases hx with ⟨hx', -⟩ | ⟨hx', -⟩ | ⟨hx', -⟩ | ⟨seg, ea, n, hmo, hm⟩
    · cases hx'
    · cases hx'
    · cases hx'
    · obtain ⟨hac, hv⟩ := acTaken_spec (acTaken_of_memRead_ac hm)
      exact hcond.elim hv fun hno => hno seg ea n hmo hac
  · rcases ac_or_sourceOf_private hv hd hmo hr hread with hac | ⟨src, hsrc, hvalue⟩
    · exact .inl hac
    right
    cases he : evexOf i with
    | none =>
      have hvex := isVex_of_vvvv hv he
      obtain ⟨t, hexec, hval, hpc, -, hframe⟩ := exec_vex_of_source hvex hr hi hsrc
      rw [hvalue, operandValue_vex hvex] at hval
      exact ⟨t, hexec, hpc, hframe, fun _ => hval, nofun⟩
    | some e =>
      obtain ⟨t, hexec, hval, hpc, -, hframe⟩ := exec_evex_of_source he hi hr hsrc
      refine ⟨t, hexec, hpc, hframe, nofun, ?_⟩
      rintro _ ⟨rfl⟩ j -
      have hlen (hb : e.bcast = true) : (locs.map (memByte s.mem)).length = 4 := by
        rw [List.length_map, translateRead_ok_length hread.1, memOperand_bytes_of_bcast he hb hmo]
      rw [hval, hvalue]
      split
      · rw [dwordOf_shuffle_operandValue he hlen _ ‹_›]
      · rfl

/-! ## CPL (60_exceptions.md R156) -/

section Privilege

variable {s : State} {i : Instr} {c : BitVec 2}

theorem udOf_cpl : udOf { s with cpl := c } i = udOf s i := by
  cases i <;> rfl

theorem valueOf_cpl (src : Zmm) : valueOf { s with cpl := c } src i = valueOf s src i := by
  cases i <;> rfl

/-- CPL enters a read through the page walk and alignment checking only. -/
theorem memRead_cpl (hwalk : ∀ la, walk { s with cpl := c } la = walk s la)
    (hac : ({ s with cpl := c } : State).alignCheck = s.alignCheck) {legacy : Bool} {seg : SegReg} {ea : Quad} {n : Nat}
    {es : List ReadEvent} (h : memRead s legacy seg ea n = .got es) :
    memRead { s with cpl := c } legacy seg ea n = .got es := by
  have hta : acTaken { s with cpl := c } legacy seg ea n = acTaken s legacy seg ea n := by
    unfold acTaken
    rw [hac]
    rfl
  exact memRead_congr (s := s) rfl (fun _ => rfl) hwalk rfl hta (fun _ => rfl) h

end Privilege

/-- Settles O36: at another CPL the checks, operand 2 and the value are the same, so the completion is. -/
theorem privilegeHasNoEffect : Obligations.PrivilegeHasNoEffect := by
  intro s t i c hc h
  obtain ⟨-, -, -, -, src, hsrc, rfl⟩ := exec_next h
  have hsrc' : sourceOf { s with cpl := c } (nextAddress s (instrLength i)) i = .got src := by
    rcases hc with ⟨n, hn⟩ | ⟨hwalk, hac⟩
    · rw [sourceOf_register hn] at hsrc ⊢
      exact hsrc
    · exact sourceOf_congr (fun _ => rfl) rfl rfl (fun _ _ _ _ => memRead_cpl hwalk hac) hsrc
  rw [exec_congr (s' := { s with cpl := c }) udOf_cpl rfl (fun _ => Iff.rfl) rfl (fun _ => hsrc') h hsrc, valueOf_cpl]
  rfl

end Sys2Proof.Machine

/-! PROOFS. The statements of the family 70_reset_and_hazards.md: the state after reset and INIT (R171). -/

namespace Sys2Proof.Machine

open Sys2Proof

/-! ## The registers after reset -/

@[simp] theorem reset_getV (n : BitVec 5) : State.reset.getV n = zeroZmm := Vector.getElem_replicate _

@[simp] theorem reset_getK (n : BitVec 3) : State.reset.getK n = 0#64 := Vector.getElem_replicate _

/-- Only EDX, register 2, holds anything: the processor identification (log 6). -/
theorem reset_getX {n : BitVec 4} (h : n ≠ 2#4) : State.reset.getX n = 0#64 := by
  have hn : 2 ≠ n.toNat := fun he => h (BitVec.eq_of_toNat_eq he.symm)
  exact (Vector.getElem_set_ne (by decide) _ hn).trans (Vector.getElem_replicate _)

theorem reset_mode : State.reset.mode = .real := by decide

/-- Settles O11: every register whose width the invariant bounds is zero, and `pc` is FFF0H. -/
theorem resetMeetsInvariant : Obligations.ResetMeetsInvariant where
  mem := reset_mem_wf
  pc := by
    rw [reset_mode]
    decide
  width n := by rw [reset_getV, lowLanes_zero]
  high _ n _ := reset_getV n
  fits _ := by decide
  masks n := by
    rw [reset_getK]
    exact Nat.two_pow_pos _
  noMasks _ := reset_getK

/-! ## No form executes after reset (60_exceptions.md R141 to R143) -/

/-- VEX and EVEX do not exist in real mode. -/
theorem not_vexNoUd_of_real {s : State} (h : s.mode = .real) (flag : Bool) (p : Prefixes) (vvvv : BitVec 4) :
    ¬ VexNoUd s flag p vvvv := fun hn => hn.1 h

/-- Every form raises `#UD` in real mode with CR4.OSFXSR clear, PSHUFD for the second reason and the others for the first. -/
theorem not_noUd_of_real {s : State} (hm : s.mode = .real) (hfx : s.cr4.getLsbD 9 = false) (i : Instr) : ¬ NoUd s i := by
  cases i
  case pshufd p b =>
    rintro ⟨-, -, h, -⟩
    exact Bool.false_ne_true (hfx.symm.trans h)
  case vpshufdVex128C5 | vpshufdVex128C4 | vpshufdVex256C5 | vpshufdVex256C4 => exact not_vexNoUd_of_real hm _ _ _
  case vpshufdEvex128 | vpshufdEvex256 | vpshufdEvex512 =>
    rintro ⟨h, -⟩
    exact not_vexNoUd_of_real hm _ _ _ h

theorem exec_reset {i : Instr} (hl : instrLength i ≤ 15) : exec i State.reset = .fault (.ud State.reset) :=
  (exec_ud_iff hl).2 (not_noUd_of_real reset_mode (by decide) i)

/-- The first instruction byte is fetched at CS base FFFF0000H + FFF0H. -/
theorem reset_fetchLocation : fetchLocation State.reset 0 = some 0xFFFFFFF0 := by decide

/-- Settles O12: the registers and the fetch address by value, `#UD` from real mode and CR4.OSFXSR = 0, and the fields that
INIT keeps or resets. -/
theorem resetLeavesEveryFormDisabled : Obligations.ResetLeavesEveryFormDisabled :=
  ⟨reset_getV, reset_getK, rfl, rfl, rfl, rfl, rfl, rfl, rfl, reset_mode, rfl, rfl, rfl, reset_fetchLocation,
    fun _ => reset_getX, fun _ => exec_reset, fun _ => ⟨rfl, rfl, rfl, rfl, rfl, rfl⟩⟩

end Sys2Proof.Machine

/-! PROOFS. The statement of the family other: the words written out in 95_test_vectors.md section 3. -/

namespace Sys2Proof.Machine

open Sys2Proof

/-- A word that the encoder writes for a well-formed instruction decodes to it, with no byte left over. -/
theorem decode_of_encode_eq {m : Mode} {i : Instr} {bs : List Byte} (he : encode i = bs) (hw : i.wf m = true) :
    decode m bs = .instr i [] := by
  have hround := decode_encode (m := m) [] hw
  rwa [List.append_nil, he] at hround

/-- Settles O3: each word is what the encoder writes for its instruction, so the round trip reads it back. -/
theorem writtenOutWordsDecode : Obligations.WrittenOutWordsDecode :=
  ⟨decode_of_encode_eq rfl rfl, decode_of_encode_eq rfl rfl, decode_of_encode_eq rfl rfl, decode_of_encode_eq rfl rfl⟩

end Sys2Proof.Machine
